-- ==== Sys2Proof/Word.lean ====
section
/-! DEFINITION. The machine's word. -/
namespace Sys2Proof

/-- A 16-bit word: a register, a memory word, a code word, a bus cell (R9, R60, R61). -/
abbrev Word := BitVec 16

end Sys2Proof
end

