-- ==== Sys2Proof/Syntax.lean ====
section
/-! DEFINITION. The instruction set as syntax: registers, operands, instructions (R21, R24, R103, R110). -/
namespace Sys2Proof

/-- The general registers, in index order 0 to 7 (R21). -/
inductive Reg where
  | a | b | c | d | x0 | x1 | x2 | x3
  deriving DecidableEq, Repr, Inhabited

/-- The pointer bases X0 to X3 (R24). -/
inductive Ptr where
  | x0 | x1 | x2 | x3
  deriving DecidableEq, Repr, Inhabited

/-- The order in which the elements of a word are numbered (R77, R145). -/
inductive ElemOrder where
  /-- Element 0 at the most significant end (modes 0x28 to 0x2B and 0x3E). -/
  | msbFirst
  /-- Element 0 at the least significant end (modes 0x2C to 0x2F and 0x3F). -/
  | lsbFirst
  deriving DecidableEq, Repr, Inhabited

/-- An operand: an addressing mode with its extension words (R103, R107). -/
inductive Operand where
  /-- `#k`, 4-bit immediate (R142). -/
  | imm4 (k : BitVec 4)
  /-- `[BP+k]`, stack-relative with a 4-bit offset (R143). -/
  | stack4 (k : BitVec 4)
  /-- A general register (R144). -/
  | reg (r : Reg)
  /-- `[Xn]` or `[Xn]R`, pointer modes P and Q (R146). -/
  | ptr (order : ElemOrder) (n : Ptr)
  /-- `[BP+Xn]` (R147). -/
  | stackIdx (n : Ptr)
  /-- `#imm16` (R148). -/
  | imm16 (v : Word)
  /-- `[BP+imm16]` (R149). -/
  | stack16 (off : Word)
  /-- `[adr]`, data-memory absolute (R150). -/
  | abs (adr : Word)
  /-- `[adr:s,f]` or `[adr:s,f]R`, bit-addressed absolute (R106, R151). -/
  | absBit (order : ElemOrder) (adr : Word) (sub : BitVec 4) (frac : BitVec 4)
  deriving DecidableEq, Repr, Inhabited

/-- One constructor per row of spec/opcode_table.json. `EaR` is the form "ea, r", `REa` the form "r, ea". -/
inductive Instr where
  | nop
  | movEaR (ea : Operand) (r : Reg)
  | movREa (r : Reg) (ea : Operand)
  | xch (r : Reg) (ea : Operand)
  | addEaR (ea : Operand) (r : Reg)
  | addREa (r : Reg) (ea : Operand)
  | adcEaR (ea : Operand) (r : Reg)
  | adcREa (r : Reg) (ea : Operand)
  | subEaR (ea : Operand) (r : Reg)
  | subREa (r : Reg) (ea : Operand)
  | sbcEaR (ea : Operand) (r : Reg)
  | sbcREa (r : Reg) (ea : Operand)
  | andEaR (ea : Operand) (r : Reg)
  | andREa (r : Reg) (ea : Operand)
  | orEaR (ea : Operand) (r : Reg)
  | orREa (r : Reg) (ea : Operand)
  | xorEaR (ea : Operand) (r : Reg)
  | xorREa (r : Reg) (ea : Operand)
  | shlEaR (ea : Operand) (r : Reg)
  | shlREa (r : Reg) (ea : Operand)
  | shrEaR (ea : Operand) (r : Reg)
  | shrREa (r : Reg) (ea : Operand)
  | asrEaR (ea : Operand) (r : Reg)
  | asrREa (r : Reg) (ea : Operand)
  | mulEaR (ea : Operand) (r : Reg)
  | mulREa (r : Reg) (ea : Operand)
  | mlsEaR (ea : Operand) (r : Reg)
  | mlsREa (r : Reg) (ea : Operand)
  | divEaR (ea : Operand) (r : Reg)
  | divREa (r : Reg) (ea : Operand)
  | dvsEaR (ea : Operand) (r : Reg)
  | dvsREa (r : Reg) (ea : Operand)
  | modEaR (ea : Operand) (r : Reg)
  | modREa (r : Reg) (ea : Operand)
  | mdsEaR (ea : Operand) (r : Reg)
  | mdsREa (r : Reg) (ea : Operand)
  | not (ea : Operand)
  | neg (ea : Operand)
  | xeq (r : Reg) (ea : Operand)
  | xne (r : Reg) (ea : Operand)
  | xug (r : Reg) (ea : Operand)
  | xul (r : Reg) (ea : Operand)
  | xsg (r : Reg) (ea : Operand)
  | xsl (r : Reg) (ea : Operand)
  | xbs (r : Reg) (ea : Operand)
  | xbc (r : Reg) (ea : Operand)
  | jmr (ea : Operand)
  | jma (ea : Operand)
  /-- The target, then the in-line parameters (R108, R292). -/
  | jfr (ea : Operand) (params : List Operand)
  | jfa (ea : Operand) (params : List Operand)
  | rfn
  /-- The operation selector (parameter 1), then parameters 2 to n+1 (R108, R311). -/
  | jsv (ea : Operand) (params : List Operand)
  | movSpEa (ea : Operand)
  | movEaSp (ea : Operand)
  | movXmEa (ea : Operand)
  | movEaXm (ea : Operand)
  | movXbEa (ea : Operand)
  | movEaXb (ea : Operand)
  | movEaBp (ea : Operand)
  /-- The reserved class 0x3B (R111, R312). -/
  | reserved3B
  /-- The reserved classes 0x3C to 0x3F: the class's low 2 bits. -/
  | reserved3C (low : BitVec 2)
  /-- The reserved classes 0x40 to 0x7F: the class's low 6 bits. -/
  | reserved40 (low : BitVec 6)
  deriving DecidableEq, Repr, Inhabited

end Sys2Proof
end

