-- ==== Sys2Proof/WellFormed.lean ====
section
/-! DEFINITION. Which instructions an encoding can carry. -/
namespace Sys2Proof

/-- A call has 0 to 7 in-line parameter groups, the range of the 3-bit count field (R108). -/
def paramsOk (params : List Operand) : Bool := params.length ≤ 7

/-- The only field of an instruction that its type does not bound is the parameter list of the call
classes JFR, JFA and JSV (R108). -/
def Instr.wellFormed : Instr → Bool
  | .jfr _ ps | .jfa _ ps | .jsv _ ps => paramsOk ps
  | _ => true

end Sys2Proof
end

