-- ==== Sys2Proof/Decode.lean ====
section
/-! DEFINITION. Decoding code words into instructions, the lengths the spec counts, and the encoder, from the
tables of 30_encoding.md (R100 to R115). -/
namespace Sys2Proof

/-! ### Fields -/

/-- `class`, bits 15:9 of the instruction word (R101). -/
def fieldClass (w : Word) : BitVec 7 := w.extractLsb' 9 7

/-- `r`, bits 8:6 (R101); the parameter count of a call class (R108). -/
def fieldR (w : Word) : BitVec 3 := w.extractLsb' 6 3

/-- `m`, bits 5:0 of an instruction or parameter word (R101, R108). -/
def fieldM (w : Word) : BitVec 6 := w.extractLsb' 0 6

/-- The register with index `i` (R21). -/
def Reg.ofCode (i : BitVec 3) : Reg :=
  match i.toNat with
  | 0 => .a | 1 => .b | 2 => .c | 3 => .d | 4 => .x0 | 5 => .x1 | 6 => .x2 | _ => .x3

/-- The index of a register (R21). -/
def Reg.code : Reg → BitVec 3
  | .a => 0 | .b => 1 | .c => 2 | .d => 3 | .x0 => 4 | .x1 => 5 | .x2 => 6 | .x3 => 7

/-- The pointer base `n` (R24). -/
def Ptr.ofCode (n : BitVec 2) : Ptr :=
  match n.toNat with
  | 0 => .x0 | 1 => .x1 | 2 => .x2 | _ => .x3

/-- The number of a pointer base (R24). -/
def Ptr.code : Ptr → BitVec 2
  | .x0 => 0 | .x1 => 1 | .x2 => 2 | .x3 => 3

/-- General register `4 + n`, pointer base `n` (R24). -/
def Ptr.toReg : Ptr → Reg
  | .x0 => .x0 | .x1 => .x1 | .x2 => .x2 | .x3 => .x3

/-! ### Lengths -/

/-- Extension words of a mode encoding (`Words(m)` of R109; the "extra words" column of R104). -/
def modeWords (m : BitVec 6) : Nat :=
  if m < 0x34 then 0 else if m ≤ 0x3D then 1 else 2

/-- The number of extension words of an operand (R104). -/
def Operand.words : Operand → Nat
  | .imm4 _ | .stack4 _ | .reg _ | .ptr .. | .stackIdx _ => 0
  | .imm16 _ | .stack16 _ | .abs _ => 1
  | .absBit .. => 2

/-- The length of a parameter list: one word and the extension words of each group (R108). -/
def paramsWords : List Operand → Nat
  | [] => 0
  | p :: ps => 1 + p.words + paramsWords ps

/-- The length in words of an instruction (R100, R109). -/
def Instr.size : Instr → Nat
  | .nop | .rfn | .reserved3B | .reserved3C _ | .reserved40 _ => 1
  | .movEaR ea _ | .addEaR ea _ | .adcEaR ea _ | .subEaR ea _ | .sbcEaR ea _ | .andEaR ea _
  | .orEaR ea _ | .xorEaR ea _ | .shlEaR ea _ | .shrEaR ea _ | .asrEaR ea _ | .mulEaR ea _
  | .mlsEaR ea _ | .divEaR ea _ | .dvsEaR ea _ | .modEaR ea _ | .mdsEaR ea _ => 1 + ea.words
  | .movREa _ ea | .xch _ ea | .addREa _ ea | .adcREa _ ea | .subREa _ ea | .sbcREa _ ea | .andREa _ ea
  | .orREa _ ea | .xorREa _ ea | .shlREa _ ea | .shrREa _ ea | .asrREa _ ea | .mulREa _ ea
  | .mlsREa _ ea | .divREa _ ea | .dvsREa _ ea | .modREa _ ea | .mdsREa _ ea | .xeq _ ea | .xne _ ea
  | .xug _ ea | .xul _ ea | .xsg _ ea | .xsl _ ea | .xbs _ ea | .xbc _ ea => 1 + ea.words
  | .not ea | .neg ea | .jmr ea | .jma ea | .movSpEa ea | .movEaSp ea | .movXmEa ea | .movEaXm ea
  | .movXbEa ea | .movEaXb ea | .movEaBp ea => 1 + ea.words
  | .jfr ea ps | .jfa ea ps | .jsv ea ps => 1 + ea.words + paramsWords ps

/-- The opcode class of an instruction (R110, R111). -/
def Instr.cls : Instr → BitVec 7
  | .nop => 0x00#7
  | .movEaR .. => 0x01#7
  | .movREa .. => 0x02#7
  | .xch .. => 0x03#7
  | .addEaR .. => 0x04#7
  | .addREa .. => 0x05#7
  | .adcEaR .. => 0x06#7
  | .adcREa .. => 0x07#7
  | .subEaR .. => 0x08#7
  | .subREa .. => 0x09#7
  | .sbcEaR .. => 0x0A#7
  | .sbcREa .. => 0x0B#7
  | .andEaR .. => 0x0C#7
  | .andREa .. => 0x0D#7
  | .orEaR .. => 0x0E#7
  | .orREa .. => 0x0F#7
  | .xorEaR .. => 0x10#7
  | .xorREa .. => 0x11#7
  | .shlEaR .. => 0x12#7
  | .shlREa .. => 0x13#7
  | .shrEaR .. => 0x14#7
  | .shrREa .. => 0x15#7
  | .asrEaR .. => 0x16#7
  | .asrREa .. => 0x17#7
  | .mulEaR .. => 0x18#7
  | .mulREa .. => 0x19#7
  | .mlsEaR .. => 0x1A#7
  | .mlsREa .. => 0x1B#7
  | .divEaR .. => 0x1C#7
  | .divREa .. => 0x1D#7
  | .dvsEaR .. => 0x1E#7
  | .dvsREa .. => 0x1F#7
  | .modEaR .. => 0x20#7
  | .modREa .. => 0x21#7
  | .mdsEaR .. => 0x22#7
  | .mdsREa .. => 0x23#7
  | .not _ => 0x24#7
  | .neg _ => 0x25#7
  | .xeq .. => 0x26#7
  | .xne .. => 0x27#7
  | .xug .. => 0x28#7
  | .xul .. => 0x29#7
  | .xsg .. => 0x2A#7
  | .xsl .. => 0x2B#7
  | .xbs .. => 0x2C#7
  | .xbc .. => 0x2D#7
  | .jmr _ => 0x2E#7
  | .jma _ => 0x2F#7
  | .jfr .. => 0x30#7
  | .jfa .. => 0x31#7
  | .rfn => 0x32#7
  | .jsv .. => 0x33#7
  | .movSpEa _ => 0x34#7
  | .movEaSp _ => 0x35#7
  | .movXmEa _ => 0x36#7
  | .movEaXm _ => 0x37#7
  | .movXbEa _ => 0x38#7
  | .movEaXb _ => 0x39#7
  | .movEaBp _ => 0x3A#7
  | .reserved3B => 0x3B#7
  | .reserved3C low => 0xF#5 ++ low
  | .reserved40 low => 1#1 ++ low

/-! ### Decoding -/

/-- Why words do not decode. Every 16-bit word decodes (R115); only a list that ends inside an
instruction is rejected. -/
inductive DecodeError where
  /-- The words end before the instruction does. -/
  | truncated
  deriving DecidableEq, Repr

/-- An operand from its mode encoding and the words after the one that holds it; the rest of the words
is returned (R102, R103, R106, R107). The alias encodings 0x35 to 0x37, 0x39 to 0x3B and 0x3D give the
operand they alias (R113). -/
def decodeOperand (m : BitVec 6) (ws : List Word) : Except DecodeError (Operand × List Word) :=
  match (m.extractLsb' 2 4).toNat with
  | 0 | 1 | 2 | 3 => .ok (.imm4 (m.extractLsb' 0 4), ws)
  | 4 | 5 | 6 | 7 => .ok (.stack4 (m.extractLsb' 0 4), ws)
  | 8 | 9 => .ok (.reg (Reg.ofCode (m.extractLsb' 0 3)), ws)
  | 10 => .ok (.ptr .msbFirst (Ptr.ofCode (m.extractLsb' 0 2)), ws)
  | 11 => .ok (.ptr .lsbFirst (Ptr.ofCode (m.extractLsb' 0 2)), ws)
  | 12 => .ok (.stackIdx (Ptr.ofCode (m.extractLsb' 0 2)), ws)
  | 13 => match ws with
    | v :: rest => .ok (.imm16 v, rest)
    | [] => .error .truncated
  | 14 => match ws with
    | off :: rest => .ok (.stack16 off, rest)
    | [] => .error .truncated
  | _ => match (m.extractLsb' 0 2).toNat, ws with
    | 0, adr :: rest | 1, adr :: rest => .ok (.abs adr, rest)
    | 2, adr :: spec :: rest =>
      .ok (.absBit .msbFirst adr (spec.extractLsb' 4 4) (spec.extractLsb' 0 4), rest)
    | 3, adr :: spec :: rest =>
      .ok (.absBit .lsbFirst adr (spec.extractLsb' 4 4) (spec.extractLsb' 0 4), rest)
    | _, _ => .error .truncated

/-- `n` in-line parameter groups: a parameter word, of which only bits 5:0 count, and its mode's
extension words (R108). -/
def decodeParams : Nat → List Word → Except DecodeError (List Operand × List Word)
  | 0, ws => .ok ([], ws)
  | _ + 1, [] => .error .truncated
  | n + 1, p :: ws =>
    match decodeOperand (fieldM p) ws with
    | .error e => .error e
    | .ok (o, ws') =>
      match decodeParams n ws' with
      | .error e => .error e
      | .ok (os, rest) => .ok (o :: os, rest)

/-- An instruction with one operand `ea` in mode `m`. -/
def withEa (m : BitVec 6) (ws : List Word) (f : Operand → Instr) :
    Except DecodeError (Instr × List Word) :=
  match decodeOperand m ws with
  | .error e => .error e
  | .ok (ea, rest) => .ok (f ea, rest)

/-- A call-class instruction: `ea`, then as many parameter groups as the field `r` says (R108). -/
def withParams (m : BitVec 6) (r : BitVec 3) (ws : List Word) (f : Operand → List Operand → Instr) :
    Except DecodeError (Instr × List Word) :=
  match decodeOperand m ws with
  | .error e => .error e
  | .ok (ea, ws') =>
    match decodeParams r.toNat ws' with
    | .error e => .error e
    | .ok (ps, rest) => .ok (f ea ps, rest)

/-- The instruction of class `cls` with fields `r` and `m`, followed by the words `ws` (R110). The ignored
fields of R112 are not kept. -/
def decodeClass (cls : BitVec 7) (r : BitVec 3) (m : BitVec 6) (ws : List Word) :
    Except DecodeError (Instr × List Word) :=
  match cls.toNat with
  | 0x00 => .ok (.nop, ws)
  | 0x01 => withEa m ws fun ea => .movEaR ea (Reg.ofCode r)
  | 0x02 => withEa m ws fun ea => .movREa (Reg.ofCode r) ea
  | 0x03 => withEa m ws fun ea => .xch (Reg.ofCode r) ea
  | 0x04 => withEa m ws fun ea => .addEaR ea (Reg.ofCode r)
  | 0x05 => withEa m ws fun ea => .addREa (Reg.ofCode r) ea
  | 0x06 => withEa m ws fun ea => .adcEaR ea (Reg.ofCode r)
  | 0x07 => withEa m ws fun ea => .adcREa (Reg.ofCode r) ea
  | 0x08 => withEa m ws fun ea => .subEaR ea (Reg.ofCode r)
  | 0x09 => withEa m ws fun ea => .subREa (Reg.ofCode r) ea
  | 0x0A => withEa m ws fun ea => .sbcEaR ea (Reg.ofCode r)
  | 0x0B => withEa m ws fun ea => .sbcREa (Reg.ofCode r) ea
  | 0x0C => withEa m ws fun ea => .andEaR ea (Reg.ofCode r)
  | 0x0D => withEa m ws fun ea => .andREa (Reg.ofCode r) ea
  | 0x0E => withEa m ws fun ea => .orEaR ea (Reg.ofCode r)
  | 0x0F => withEa m ws fun ea => .orREa (Reg.ofCode r) ea
  | 0x10 => withEa m ws fun ea => .xorEaR ea (Reg.ofCode r)
  | 0x11 => withEa m ws fun ea => .xorREa (Reg.ofCode r) ea
  | 0x12 => withEa m ws fun ea => .shlEaR ea (Reg.ofCode r)
  | 0x13 => withEa m ws fun ea => .shlREa (Reg.ofCode r) ea
  | 0x14 => withEa m ws fun ea => .shrEaR ea (Reg.ofCode r)
  | 0x15 => withEa m ws fun ea => .shrREa (Reg.ofCode r) ea
  | 0x16 => withEa m ws fun ea => .asrEaR ea (Reg.ofCode r)
  | 0x17 => withEa m ws fun ea => .asrREa (Reg.ofCode r) ea
  | 0x18 => withEa m ws fun ea => .mulEaR ea (Reg.ofCode r)
  | 0x19 => withEa m ws fun ea => .mulREa (Reg.ofCode r) ea
  | 0x1A => withEa m ws fun ea => .mlsEaR ea (Reg.ofCode r)
  | 0x1B => withEa m ws fun ea => .mlsREa (Reg.ofCode r) ea
  | 0x1C => withEa m ws fun ea => .divEaR ea (Reg.ofCode r)
  | 0x1D => withEa m ws fun ea => .divREa (Reg.ofCode r) ea
  | 0x1E => withEa m ws fun ea => .dvsEaR ea (Reg.ofCode r)
  | 0x1F => withEa m ws fun ea => .dvsREa (Reg.ofCode r) ea
  | 0x20 => withEa m ws fun ea => .modEaR ea (Reg.ofCode r)
  | 0x21 => withEa m ws fun ea => .modREa (Reg.ofCode r) ea
  | 0x22 => withEa m ws fun ea => .mdsEaR ea (Reg.ofCode r)
  | 0x23 => withEa m ws fun ea => .mdsREa (Reg.ofCode r) ea
  | 0x24 => withEa m ws fun ea => .not ea
  | 0x25 => withEa m ws fun ea => .neg ea
  | 0x26 => withEa m ws fun ea => .xeq (Reg.ofCode r) ea
  | 0x27 => withEa m ws fun ea => .xne (Reg.ofCode r) ea
  | 0x28 => withEa m ws fun ea => .xug (Reg.ofCode r) ea
  | 0x29 => withEa m ws fun ea => .xul (Reg.ofCode r) ea
  | 0x2A => withEa m ws fun ea => .xsg (Reg.ofCode r) ea
  | 0x2B => withEa m ws fun ea => .xsl (Reg.ofCode r) ea
  | 0x2C => withEa m ws fun ea => .xbs (Reg.ofCode r) ea
  | 0x2D => withEa m ws fun ea => .xbc (Reg.ofCode r) ea
  | 0x2E => withEa m ws fun ea => .jmr ea
  | 0x2F => withEa m ws fun ea => .jma ea
  | 0x30 => withParams m r ws fun ea ps => .jfr ea ps
  | 0x31 => withParams m r ws fun ea ps => .jfa ea ps
  | 0x32 => .ok (.rfn, ws)
  | 0x33 => withParams m r ws fun ea ps => .jsv ea ps
  | 0x34 => withEa m ws fun ea => .movSpEa ea
  | 0x35 => withEa m ws fun ea => .movEaSp ea
  | 0x36 => withEa m ws fun ea => .movXmEa ea
  | 0x37 => withEa m ws fun ea => .movEaXm ea
  | 0x38 => withEa m ws fun ea => .movXbEa ea
  | 0x39 => withEa m ws fun ea => .movEaXb ea
  | 0x3A => withEa m ws fun ea => .movEaBp ea
  | 0x3B => .ok (.reserved3B, ws)
  | 0x3C | 0x3D | 0x3E | 0x3F => .ok (.reserved3C (cls.extractLsb' 0 2), ws)
  | _ => .ok (.reserved40 (cls.extractLsb' 0 6), ws)

/-- The first instruction of a list of code words, and the words after it (R100). -/
def decode : List Word → Except DecodeError (Instr × List Word)
  | [] => .error .truncated
  | w :: ws => decodeClass (fieldClass w) (fieldR w) (fieldM w) ws

/-- The words of an instruction numbered as spec/opcode_table.json numbers its bits: word `i` is bits
`16*i+15 : 16*i` of `w`. Bits from `nbits` up are 0, and 24 words, the longest instruction (R109), are laid out. -/
def tableWords (nbits w : Nat) : List Word :=
  (List.range 24).map fun i => BitVec.ofNat 16 ((w % 2 ^ nbits) / 2 ^ (16 * i))

/-- The instruction the decoder reads from a table row's bits. -/
def decodeTableWord (nbits w : Nat) : Option Instr :=
  match decode (tableWords nbits w) with
  | .ok (i, _) => some i
  | .error _ => none

/-! ### Encoding -/

/-- The instruction word of R101: class in bits 15:9, `r` in bits 8:6, `m` in bits 5:0. -/
def instrWord (cls : BitVec 7) (r : BitVec 3) (m : BitVec 6) : Word := cls ++ r ++ m

/-- The canonical mode encoding of an operand (R103, R113). -/
def Operand.mode : Operand → BitVec 6
  | .imm4 k => 0#2 ++ k
  | .stack4 k => 1#2 ++ k
  | .reg r => 4#3 ++ r.code
  | .ptr .msbFirst n => 10#4 ++ n.code
  | .ptr .lsbFirst n => 11#4 ++ n.code
  | .stackIdx n => 12#4 ++ n.code
  | .imm16 _ => 0x34#6
  | .stack16 _ => 0x38#6
  | .abs _ => 0x3C#6
  | .absBit .msbFirst .. => 0x3E#6
  | .absBit .lsbFirst .. => 0x3F#6

/-- The extension words of an operand; the spec word holds `s` in bits 7:4 and `f` in bits 3:0 (R106, R107). -/
def Operand.ext : Operand → List Word
  | .imm4 _ | .stack4 _ | .reg _ | .ptr .. | .stackIdx _ => []
  | .imm16 v => [v]
  | .stack16 off => [off]
  | .abs adr => [adr]
  | .absBit _ adr sub frac => [adr, 0#8 ++ sub ++ frac]

/-- The parameter groups of a call, the ignored bits 15:6 written as 0 (R108, R112). -/
def encodeParams : List Operand → List Word
  | [] => []
  | p :: ps => (0#10 ++ p.mode) :: (p.ext ++ encodeParams ps)

/-- The words of an instruction with one operand. -/
def eaWords (cls : BitVec 7) (r : BitVec 3) (ea : Operand) : List Word :=
  instrWord cls r ea.mode :: ea.ext

/-- The words of a call-class instruction; `r` is the parameter count (R108). -/
def callWords (cls : BitVec 7) (ea : Operand) (ps : List Operand) : List Word :=
  instrWord cls (BitVec.ofNat 3 ps.length) ea.mode :: (ea.ext ++ encodeParams ps)

/-- The words of a well-formed instruction, ignored fields written as 0 (R110, R112). -/
def encode : Instr → List Word
  | .nop => [instrWord 0x00#7 0#3 0#6]
  | .movEaR ea r => eaWords 0x01#7 r.code ea
  | .movREa r ea => eaWords 0x02#7 r.code ea
  | .xch r ea => eaWords 0x03#7 r.code ea
  | .addEaR ea r => eaWords 0x04#7 r.code ea
  | .addREa r ea => eaWords 0x05#7 r.code ea
  | .adcEaR ea r => eaWords 0x06#7 r.code ea
  | .adcREa r ea => eaWords 0x07#7 r.code ea
  | .subEaR ea r => eaWords 0x08#7 r.code ea
  | .subREa r ea => eaWords 0x09#7 r.code ea
  | .sbcEaR ea r => eaWords 0x0A#7 r.code ea
  | .sbcREa r ea => eaWords 0x0B#7 r.code ea
  | .andEaR ea r => eaWords 0x0C#7 r.code ea
  | .andREa r ea => eaWords 0x0D#7 r.code ea
  | .orEaR ea r => eaWords 0x0E#7 r.code ea
  | .orREa r ea => eaWords 0x0F#7 r.code ea
  | .xorEaR ea r => eaWords 0x10#7 r.code ea
  | .xorREa r ea => eaWords 0x11#7 r.code ea
  | .shlEaR ea r => eaWords 0x12#7 r.code ea
  | .shlREa r ea => eaWords 0x13#7 r.code ea
  | .shrEaR ea r => eaWords 0x14#7 r.code ea
  | .shrREa r ea => eaWords 0x15#7 r.code ea
  | .asrEaR ea r => eaWords 0x16#7 r.code ea
  | .asrREa r ea => eaWords 0x17#7 r.code ea
  | .mulEaR ea r => eaWords 0x18#7 r.code ea
  | .mulREa r ea => eaWords 0x19#7 r.code ea
  | .mlsEaR ea r => eaWords 0x1A#7 r.code ea
  | .mlsREa r ea => eaWords 0x1B#7 r.code ea
  | .divEaR ea r => eaWords 0x1C#7 r.code ea
  | .divREa r ea => eaWords 0x1D#7 r.code ea
  | .dvsEaR ea r => eaWords 0x1E#7 r.code ea
  | .dvsREa r ea => eaWords 0x1F#7 r.code ea
  | .modEaR ea r => eaWords 0x20#7 r.code ea
  | .modREa r ea => eaWords 0x21#7 r.code ea
  | .mdsEaR ea r => eaWords 0x22#7 r.code ea
  | .mdsREa r ea => eaWords 0x23#7 r.code ea
  | .not ea => eaWords 0x24#7 0#3 ea
  | .neg ea => eaWords 0x25#7 0#3 ea
  | .xeq r ea => eaWords 0x26#7 r.code ea
  | .xne r ea => eaWords 0x27#7 r.code ea
  | .xug r ea => eaWords 0x28#7 r.code ea
  | .xul r ea => eaWords 0x29#7 r.code ea
  | .xsg r ea => eaWords 0x2A#7 r.code ea
  | .xsl r ea => eaWords 0x2B#7 r.code ea
  | .xbs r ea => eaWords 0x2C#7 r.code ea
  | .xbc r ea => eaWords 0x2D#7 r.code ea
  | .jmr ea => eaWords 0x2E#7 0#3 ea
  | .jma ea => eaWords 0x2F#7 0#3 ea
  | .jfr ea ps => callWords 0x30#7 ea ps
  | .jfa ea ps => callWords 0x31#7 ea ps
  | .rfn => [instrWord 0x32#7 0#3 0#6]
  | .jsv ea ps => callWords 0x33#7 ea ps
  | .movSpEa ea => eaWords 0x34#7 0#3 ea
  | .movEaSp ea => eaWords 0x35#7 0#3 ea
  | .movXmEa ea => eaWords 0x36#7 0#3 ea
  | .movEaXm ea => eaWords 0x37#7 0#3 ea
  | .movXbEa ea => eaWords 0x38#7 0#3 ea
  | .movEaXb ea => eaWords 0x39#7 0#3 ea
  | .movEaBp ea => eaWords 0x3A#7 0#3 ea
  | .reserved3B => [instrWord 0x3B#7 0#3 0#6]
  | .reserved3C low => [instrWord (0xF#5 ++ low) 0#3 0#6]
  | .reserved40 low => [instrWord (1#1 ++ low) 0#3 0#6]

end Sys2Proof
end

