-- ==== Sys2Proof/Config.lean ====
section
/-! DEFINITION. What an implementation or an outside agent fixes: the parameters of R7, the types of the bus handler
table, and the outside agents of R5 as opaque functions with no body (their free values). -/
namespace Sys2Proof.Config

/-- The parameters of R7 that the spec leaves OPEN or calls configurable. `State` carries them and no step
changes them, so a statement over all states quantifies over them (log 2). The three timer constants are
positive by type and COP_REGS is a power of two by construction, as R332, R46, R47 and R7 require. -/
structure Params where
  /-- CYCLES_PER_SAMPLE (R342). -/
  cyclesPerSample : ℕ+
  /-- CYCLES_PER_LINE (R332, R343). -/
  cyclesPerLine : ℕ+
  /-- LINES_PER_FRAME (R343). -/
  linesPerFrame : ℕ+
  /-- HK_MAX (R340). -/
  hkMax : Nat
  /-- FIFO_DEPTH (R83). -/
  fifoDepth : Nat
  /-- FIFO_STALL (R85). -/
  fifoStall : Nat
  /-- The base-2 logarithm of COP_REGS (R87). -/
  copRegsLog : Nat
  /-- COP_TRIGGER (R87). -/
  copTrigger : Nat
  /-- CYC_BASE, one entry per opcode class (R384). -/
  cycBase : Vector Nat 128
  /-- CYC_MODE, one entry per mode encoding (R104). -/
  cycMode : Vector Nat 64
  /-- CYC_PARAM (R290). -/
  cycParam : Nat
  /-- CYC_SKIP (R270). -/
  cycSkip : Nat
  deriving DecidableEq, Repr

/-! ### The bus handler table (R70, R75, R81) -/

/-- The two FIFO lanes: A in front of the mixer, B in front of the accelerator (R81). -/
inductive LaneId where
  | laneA | laneB
  deriving DecidableEq, Repr

/-- The handler kind of a bus cell (R75). -/
inductive CellKind where
  | null
  | store
  | fifoAdr (l : LaneId)
  | fifoDat (l : LaneId)
  | ext (group : Nat)
  deriving DecidableEq, Repr

/-- One `register_handlers(base, length, kind)` (R70). -/
structure Registration where
  base : Nat
  length : Nat
  kind : CellKind
  deriving DecidableEq, Repr

/-! ### Coprocessors (R347) -/

/-- What a coprocessor's execute function returns: cycles, its register file, peripheral memory (R347). -/
structure CopResult where
  cycles : Nat
  regs : List (Nat × Word)
  pmem : List Word
  deriving DecidableEq, Repr, Inhabited

/-- Exec_A, the mixer: a function of its register file and peripheral memory only (R347; OPEN, log 6). -/
opaque execA (regs : List (Nat × Word)) (pmem : List Word) : CopResult

/-- Exec_B, the accelerator (R347; OPEN, log 6). -/
opaque execB (regs : List (Nat × Word)) (pmem : List Word) : CopResult

/-! ### EXT bus groups (R76) -/

/-- ExtRead_k: the word read and the group's next state (R76; OPEN, log 9). -/
opaque extRead (group cell : Nat) (rmw : Bool) (st : List Word) (tick : Nat) : Word × List Word

/-- ExtWrite_k: the group's next state (R76; OPEN, log 9). -/
opaque extWrite (group cell : Nat) (v : Word) (st : List Word) (tick : Nat) : List Word

/-- ExtGet_k: a debug read, no side effect (R73, R76; OPEN, log 9). -/
opaque extGet (group cell : Nat) (st : List Word) : Word

/-- ExtSet_k: a debug write of the group's own state (R74; OPEN, log 9). -/
opaque extSet (group cell : Nat) (v : Word) (st : List Word) : List Word

/-- A group's state after an in-place reset, which the spec does not give (free value, log 12). -/
opaque extAtReset (group : Nat) (st : List Word) (tick : Nat) : List Word

/-! ### Housekeeping and peripheral memory -/

/-- The housekeeping generator, before it is bounded by HK_MAX (R340; free value, log 10). -/
opaque hkDraw (tick : Nat) : Nat

/-- Peripheral memory after an in-place reset, which the spec does not give (free value, log 11). -/
opaque pmemAtReset (pmem : List Word) (tick : Nat) : List Word

/-! ### Kernel task slots, dispatcher and scheduler (R350 to R353) -/

/-- The states of a kernel task slot (R351). -/
inductive TaskStatus where
  | empty
  | queued
  | running
  /-- The host's result, with bit 15 set. -/
  | completed (result : Word)
  deriving DecidableEq, Repr, Inhabited

/-- A kernel task slot: its status, the mark "dispatched this run", its parameter record (R351, R352). The size and
layout of R351's "fixed-size parameter record" are not in the source (N19): that `params` is the call's parameter list,
whose length may differ from slot to slot, is the model's choice (log 25). -/
structure TaskSlot where
  status : TaskStatus
  dispatched : Bool
  params : List Word
  deriving DecidableEq, Repr, Inhabited

/-- What the dispatcher may look at: data RAM, all that `BusGet` depends on (R73: the handler table, the STORE cells,
the latches, the EXT states), its slots and its own state (R350). That it may look at these whole, where R350 grants the
bus through `BusGet` and the RAM inside the window only, is the model's choice (log 7). -/
structure KernelView where
  ram : List (Nat × Word)
  busMap : List Registration
  cells : List (Nat × Word)
  latchA : Word
  latchB : Word
  ext : List (Nat × List Word)
  slots : Vector TaskSlot 16
  kernel : List Word
  tick : Nat
  deriving DecidableEq, Repr

/-- The dispatcher's three returned values (R310). -/
structure KernelResult where
  cycles : Nat
  hi : Word
  lo : Word
  deriving DecidableEq, Repr, Inhabited

/-- The changes a valid call may make: data RAM inside the window, bus state through `BusSet`, slots it
discards, its own state (R350, R351). -/
structure KernelEffects where
  ram : List (Word × Word)
  bus : List (Nat × Word)
  discard : List (Fin 16)
  kernel : List Word
  deriving DecidableEq, Repr, Inhabited

/-- The shape of a supervisor operation (R350). -/
inductive KernelShape where
  /-- Shape (a), an immediate-result call: the operation's fixed cycle cost. -/
  | immediate (cycles : Nat)
  /-- Shape (b), a host subroutine. -/
  | callback
  /-- Shape (c), a task-class call. -/
  | task
  deriving DecidableEq, Repr, Inhabited

/-- One supervisor operation: its required exact parameter count, the selector counted, and its shape (R350). -/
structure KernelOp where
  count : Nat
  shape : KernelShape
  deriving DecidableEq, Repr, Inhabited

/-- What an immediate-result call answers; its cycles are the operation's (R350). -/
structure ImmediateAnswer where
  hi : Word
  lo : Word
  effects : KernelEffects
  deriving DecidableEq, Repr, Inhabited

/-- What a host subroutine call answers (R350). -/
structure CallbackAnswer where
  result : KernelResult
  effects : KernelEffects
  deriving DecidableEq, Repr, Inhabited

/-- What a valid task-class call answers: the results, the slot it takes, and the dispatcher's own state after it
(R350; log 7). -/
structure TaskAnswer where
  result : KernelResult
  slot : Fin 16
  kernel : List Word
  deriving DecidableEq, Repr, Inhabited

/-- KDispatch: the fixed set of operations by selector, and the answer of each shape to a parameter list and what the
dispatcher may see (R350). -/
structure Dispatcher where
  op : Word → Option KernelOp
  immediate : List Word → KernelView → ImmediateAnswer
  callback : List Word → KernelView → CallbackAnswer
  task : List Word → KernelView → TaskAnswer
  deriving Inhabited

/-- The platform's dispatcher; its operations, counts, shapes, costs and answers are not in the source (N19; OPEN,
log 7). -/
opaque kdispatch : Dispatcher

/-- The pointer parameters of a task-class call with their lengths, from the parameter list that the call is given and
its slot records (R350 shape (c), R352; OPEN, log 8). -/
opaque taskRanges (params : List Word) : List (Nat × Nat)

/-- The words a host task callback writes to data RAM (R353; OPEN, log 8). -/
opaque taskCallback (slot : TaskSlot) (ram : List (Nat × Word)) (tick : Nat) : List (Word × Word)

/-- Whether an earlier mark "dispatched this run" still stands: its lifetime is open (N25; free value, log 8). -/
opaque markStands (tick : Nat) : Bool

end Sys2Proof.Config
end

