-- ==== Sys2Proof/Machine/Defaults.lean ====
section
/-! DEFINITION. The default parameters: the tables of R384 and R104 and the decided and example values of R7. -/
namespace Sys2Proof.Machine
open Sys2Proof.Config

/-- ENTRY, the pc after reset (R7, R52). -/
def entry : Word := 0x0000

/-- The default CYC_BASE table, class 0x00 up (R384). JSV's entry (class 0x33) is never charged (R163). -/
def cycBaseList : List Nat :=
  -- 0x00 NOP, 0x01 and 0x02 MOV, 0x03 XCH
  [1, 1, 1, 2]
  -- 0x04 to 0x17 ADD to ASR
  ++ List.replicate 20 1
  -- 0x18 to 0x1B MUL, MLS; 0x1C to 0x23 DIV, DVS, MOD, MDS
  ++ [2, 2, 2, 2] ++ List.replicate 8 4
  -- 0x24 NOT, 0x25 NEG, 0x26 to 0x2D skips
  ++ List.replicate 10 1
  -- 0x2E JMR, 0x2F JMA, 0x30 JFR, 0x31 JFA, 0x32 RFN, 0x33 JSV
  ++ [2, 2, 4, 4, 3, 0]
  -- 0x34 to 0x3A special-register moves, 0x3B to 0x7F invalid
  ++ List.replicate 7 1 ++ List.replicate 69 1

/-- The default CYC_MODE table, mode 0x00 up (R104). -/
def cycModeList : List Nat :=
  -- 0x00 to 0x0F `#k`, 0x10 to 0x1F `[BP+k]`, 0x20 to 0x27 registers
  List.replicate 16 0 ++ List.replicate 16 1 ++ List.replicate 8 0
  -- 0x28 to 0x2F pointer modes, 0x30 to 0x33 `[BP+Xn]`
  ++ List.replicate 8 1 ++ List.replicate 4 1
  -- 0x34 to 0x37 `#imm16`, 0x38 to 0x3B `[BP+imm16]`, 0x3C to 0x3F absolute
  ++ [1, 1, 1, 1] ++ [2, 2, 2, 2] ++ [2, 2, 3, 3]

/-- The defaults and the example values of R7 (DESIGN CHOICE for the OPEN ones, log 2). -/
def defaultParams : Params where
  cyclesPerSample := 400
  cyclesPerLine := 400
  linesPerFrame := 400
  hkMax := 0
  fifoDepth := 16
  fifoStall := 4
  copRegsLog := 5
  copTrigger := 31
  cycBase := ⟨cycBaseList.toArray, by simp [cycBaseList]⟩
  cycMode := ⟨cycModeList.toArray, by simp [cycModeList]⟩
  cycParam := 1
  cycSkip := 1

end Sys2Proof.Machine
end

