-- ==== Sys2Proof/Machine/State.lean ====
section
/-! DEFINITION. The machine's state as plain data, its value at reset, and the reasons a step can stop.
INVENTORY.md lists every field with the rule that names it and its reset value. -/
namespace Sys2Proof.Machine
open Sys2Proof.Config

/-- A word memory: (address, word) pairs with rising addresses and no zero word; an unlisted address reads
as 0x0000 (R52). The machine's smallest addressable unit is the word (R77, R78; log 1). -/
abbrev Memory := List (Nat × Word)

/-- The eight general registers (R21). -/
structure RegFile where
  a : Word
  b : Word
  c : Word
  d : Word
  x0 : Word
  x1 : Word
  x2 : Word
  x3 : Word
  deriving DecidableEq, Repr

/-- The state of one FIFO lane and its coprocessor (R44). -/
structure Lane where
  /-- LATCH: the address component last written. -/
  latch : Word
  /-- RING: the queued 32-bit words, oldest first. -/
  ring : List (BitVec 32)
  /-- BUSY: the remaining coprocessor-busy cycles. -/
  busy : Nat
  /-- COPREG: the coprocessor's register file. -/
  regs : Memory
  deriving DecidableEq, Repr

/-- The audio tick timer and the video line timer (R46, R47). -/
structure Timers where
  acyc : Nat
  asmp : Nat
  lcyc : Nat
  line : Nat
  deriving DecidableEq, Repr

/-- The run modes (R336). -/
inductive RunMode where
  | single | breakChecked | free
  deriving DecidableEq, Repr

/-- A `run` call in progress: the local variables of `run` and `Burst` (R330, R336, R49). -/
structure RunCall where
  mode : RunMode
  /-- RUNFIRST: no instruction of the call has executed yet. -/
  first : Bool
  budget : Nat
  used : Nat
  total : Nat
  deriving DecidableEq, Repr

/-- An application image: code words, data RAM words, and the stack window of its descriptor (R381). -/
structure AppImage where
  code : Memory
  ram : Memory
  sbot : Word
  stop : Word
  deriving DecidableEq, Repr

/-- The contents of an exported state, without its byte layout, which is outside the block (R360, log 14). -/
structure Snapshot where
  gpr : RegFile
  xm : Word
  xb : Word
  pc : Word
  sp : Word
  bp : Word
  sbot : Word
  stop : Word
  hcr : Word
  laneA : Lane
  laneB : Lane
  timers : Timers
  cells : Memory
  ram : Memory
  pmem : List Word
  deriving DecidableEq, Repr

/-- What the loader's "load binary range" callback and validation came to (R381, R353). -/
inductive LoadResult where
  /-- The callback has not filled the buffer yet: initialisation is re-entered later. -/
  | pending
  /-- A header or descriptor fault, with its location-tagged code. -/
  | failed (code : Nat)
  | loaded (img : AppImage)
  deriving DecidableEq, Repr

/-- The calls the host may make between `run` calls (R355, R94). -/
inductive HostCall where
  | run (mode : RunMode)
  | getHaltCause
  | clearHaltCause (mask : Word)
  | setBreakpoint (a : Word)
  | clearBreakpoint (a : Word)
  | isBreakpoint (a : Word)
  | taskEnd (h : Fin 16) (res : Word)
  | busGet (c : Nat)
  | busSet (c : Nat) (v : Word)
  | exportState
  | importState (x : Snapshot)
  | reset
  | load (r : LoadResult)
  | registerHandlers (base length : Nat) (kind : CellKind)
  | readRam (a : Word)
  | readCode (a : Word)
  | writeRam (a v : Word)
  | writeCode (a v : Word)
  deriving DecidableEq, Repr

/-- Why a host call was turned away (R360, R381, R70). -/
inductive Rejection where
  | haltCauseBits
  | ringLength (l : LaneId)
  | audioCycles
  | audioSamples
  | lineCycles
  | lineIndex
  | image (code : Nat)
  | notInitialising
  | tableFixed
  deriving DecidableEq, Repr

/-- The answer to the last host call. -/
inductive HostReply where
  | none
  | done
  | cycles (n : Nat)
  | word (w : Word)
  | flag (b : Bool)
  | snapshot (x : Snapshot)
  | rejected (why : Rejection)
  deriving DecidableEq, Repr

/-- The whole machine. -/
structure State where
  /-- A, B, C, D, X0 to X3 (R21). -/
  gpr : RegFile
  /-- The pointer-mode register (R25). -/
  xm : Word
  /-- The fraction register (R26). -/
  xb : Word
  /-- The program counter (R27). -/
  pc : Word
  /-- The stack pointer (R28). -/
  sp : Word
  /-- The stack base pointer (R29). -/
  bp : Word
  /-- The stack window's bottom, inclusive (R30). -/
  sbot : Word
  /-- The stack window's top, exclusive (R30). -/
  stop : Word
  /-- The halt-cause register (R40). -/
  hcr : Word
  /-- The code store (R60). -/
  code : Memory
  /-- Data RAM (R61). -/
  ram : Memory
  /-- CELL, the backing words of STORE cells (R51). -/
  cells : Memory
  /-- The opaque state of each EXT group, the empty list where unlisted (R76). -/
  ext : List (Nat × List Word)
  /-- The bus handler table: the registrations made at start-up, in order (R70). -/
  busMap : List Registration
  laneA : Lane
  laneB : Lane
  /-- Peripheral memory, opaque (R44). -/
  pmem : List Word
  /-- The bus stall counter (R45). -/
  stall : Nat
  timers : Timers
  /-- The breakpoint bitmap: the addresses whose bit is set, rising (R48). -/
  bpmap : List (Nat × Bool)
  /-- The kernel task slots (R351). -/
  slots : Vector TaskSlot 16
  /-- The private state of the dispatcher and the host's callbacks, opaque (R350). -/
  kernel : List Word
  /-- The image last loaded (R380, R381). -/
  image : AppImage
  /-- The parameters of R7. -/
  params : Params
  /-- The `run` call in progress, if one is executing (R330). -/
  call : Option RunCall
  /-- Whether the first `run` call has begun (R70). -/
  started : Bool
  /-- MODEL'S OWN: the host's calls still to be served, oldest first (log 5). -/
  host : List HostCall
  /-- MODEL'S OWN: the answer to the last host call (log 20). -/
  reply : HostReply
  /-- MODEL'S OWN: the cycle count `Step()` returned for the last instruction (R140; log 20). -/
  cost : Nat
  /-- MODEL'S OWN: the counter that free values of outside agents are applied to (log 10, log 20). -/
  tick : Nat
  /-- MODEL'S OWN: how many `LineDone` calls were made (R354; log 20). -/
  lineCalls : Nat
  deriving DecidableEq, Repr

/-- The spec names no condition that stops the machine: every exceptional condition sets a bit of HCR and the
instruction completes (R320), so no step faults and there is no reason to name. -/
inductive Fault where
  deriving DecidableEq, Repr

/-- Why a step has no meaning. -/
inductive Refusal where
  /-- Raised by `exec` for an instruction without a meaning; safe (no claim about it can be proved). No arm
  of this model raises it. -/
  | notModelled (mnemonic : String)
  /-- Raised by `step` if the fetched words ended inside an instruction; safe. A fetch takes 24 words and no
  instruction is longer (R109), so it is never raised. -/
  | truncated
  deriving DecidableEq, Repr

/-- A lane after reset (R52). -/
def Lane.reset : Lane := { latch := 0, ring := [], busy := 0, regs := [] }

/-- The machine right after reset, before a program is loaded (R52, R380). SBOT and STOP hold the example
values of R7 (DESIGN CHOICE, log 3); only the four FIFO cells have a handler (log 2, log 15). -/
def State.reset : State where
  gpr := { a := 0, b := 0, c := 0, d := 0, x0 := 0, x1 := 0, x2 := 0, x3 := 0 }
  xm := 0
  xb := 0
  pc := entry
  sp := 0x0200
  bp := 0x0200
  sbot := 0x0200
  stop := 0x0300
  hcr := 0x0020
  code := []
  ram := []
  cells := []
  ext := []
  busMap := [⟨0x3F8, 1, .fifoAdr .laneA⟩, ⟨0x3F9, 1, .fifoDat .laneA⟩,
    ⟨0x3FA, 1, .fifoAdr .laneB⟩, ⟨0x3FB, 1, .fifoDat .laneB⟩]
  laneA := .reset
  laneB := .reset
  pmem := []
  stall := 0
  timers := { acyc := 0, asmp := 0, lcyc := 0, line := 0 }
  bpmap := []
  slots := Vector.replicate 16 { status := .empty, dispatched := false, params := [] }
  kernel := []
  image := { code := [], ram := [], sbot := 0x0200, stop := 0x0300 }
  params := defaultParams
  call := none
  started := false
  host := []
  reply := .none
  cost := 0
  tick := 0
  lineCalls := 0

end Sys2Proof.Machine
end

