-- ==== Sys2Proof/Machine/Memory.lean ====
section
/-! DEFINITION. Sparse tables by address in one canonical form: word memories, EXT group states, the breakpoint
bitmap. `d` is what an unlisted address reads as. -/
namespace Sys2Proof.Machine

/-- What address `a` reads as: its entry, or `d`. -/
def sparseGet {α : Type} (d : α) : List (Nat × α) → Nat → α
  | [], _ => d
  | (k, v) :: rest, a => if k = a then v else sparseGet d rest a

/-- The table with `v` at `a`, in its place in the order. -/
def sparsePut {α : Type} (a : Nat) (v : α) : List (Nat × α) → List (Nat × α)
  | [] => [(a, v)]
  | (k, w) :: rest =>
    if a < k then (a, v) :: (k, w) :: rest
    else if a = k then (a, v) :: rest
    else (k, w) :: sparsePut a v rest

/-- A write: writing what an unlisted address reads as removes the entry. -/
def sparseSet {α : Type} [DecidableEq α] (d : α) (m : List (Nat × α)) (a : Nat) (v : α) : List (Nat × α) :=
  if v = d then m.filter (fun e => e.1 ≠ a) else sparsePut a v m

/-- The canonical form: addresses strictly rising and below `bound`, no entry equal to `d`. -/
abbrev sparseWf {α : Type} (d : α) (bound : Nat) (m : List (Nat × α)) : Prop :=
  m.Pairwise (fun e f => e.1 < f.1) ∧ ∀ e ∈ m, e.1 < bound ∧ e.2 ≠ d

/-- The canonical table that a list of writes leaves, those at or above `bound` ignored. -/
def sparseOfList {α : Type} [DecidableEq α] (d : α) (bound : Nat) (l : List (Nat × α)) : List (Nat × α) :=
  l.foldl (fun m e => if e.1 < bound then sparseSet d m e.1 e.2 else m) []

/-! ### Word memories -/

/-- The word at an address (R60, R61); 0x0000 where nothing is listed (R52). -/
def Memory.read (m : Memory) (a : Nat) : Word := sparseGet 0 m a

/-- The memory after a write of one word. -/
def Memory.write (m : Memory) (a : Nat) (v : Word) : Memory := sparseSet 0 m a v

/-- The canonical form of a memory with addresses below `bound`. -/
abbrev Memory.wf (bound : Nat) (m : Memory) : Prop := sparseWf (0 : Word) bound m

/-- A memory from outside (an image, an import, a coprocessor's answer) in canonical form. -/
def Memory.canonical (bound : Nat) (m : Memory) : Memory := sparseOfList (0 : Word) bound m

/-- CODE_WORDS and DATA_WORDS (R7, R60, R61). -/
def memoryWords : Nat := 65536

/-- BUS_CELLS (R7, R69). -/
def busCells : Nat := 1024

end Sys2Proof.Machine
end

