-- ==== Sys2Proof/Machine/Ops.lean ====
section
/-! DEFINITION. The named operations over registers, halt causes, memory, the stack window, the register bus and
the FIFO lanes (R21 to R30, R40 to R45, R60 to R87). -/
namespace Sys2Proof.Machine
open Sys2Proof.Config

/-! ### Registers -/

def RegFile.get (g : RegFile) : Reg → Word
  | .a => g.a | .b => g.b | .c => g.c | .d => g.d | .x0 => g.x0 | .x1 => g.x1 | .x2 => g.x2 | .x3 => g.x3

def RegFile.set (g : RegFile) (r : Reg) (v : Word) : RegFile :=
  match r with
  | .a => { g with a := v } | .b => { g with b := v } | .c => { g with c := v } | .d => { g with d := v }
  | .x0 => { g with x0 := v } | .x1 => { g with x1 := v } | .x2 => { g with x2 := v } | .x3 => { g with x3 := v }

/-- `x[r]` (R10, R21). -/
def State.reg (s : State) (r : Reg) : Word := s.gpr.get r

/-- `x[r] <- v` (R10, R21). -/
def State.setReg (s : State) (r : Reg) (v : Word) : State := { s with gpr := s.gpr.set r v }

/-- Nibble `n` of XM or XB, bits `4n+3 : 4n` (R25, R26). -/
def nibble (w : Word) (n : Ptr) : BitVec 4 := w.extractLsb' (4 * n.code.toNat) 4

/-- The word with nibble `n` replaced (R26). -/
def setNibble (w : Word) (n : Ptr) (v : BitVec 4) : Word :=
  (w &&& ~~~(0x000F#16 <<< (4 * n.code.toNat))) ||| (v.zeroExtend 16 <<< (4 * n.code.toNat))

/-! ### Halt causes: taking an exception, and the return from one -/

/-- The halt causes, by name (R40, R321). -/
inductive HaltCause where
  | exit | invop | invkc | stack | fault | init | audio | brk | frame | callback
  deriving DecidableEq, Repr

/-- The bit position of a cause in HCR (R40). -/
def HaltCause.bit : HaltCause → Nat
  | .exit => 0 | .invop => 1 | .invkc => 2 | .stack => 3 | .fault => 4
  | .init => 5 | .audio => 6 | .brk => 7 | .frame => 8 | .callback => 9

/-- The cause's mask (R321). -/
def HaltCause.mask (k : HaltCause) : Word := 1#16 <<< k.bit

/-- The blocking causes EXIT, INVOP, INVKC, STACK, FAULT, INIT and AUDIO (R41). -/
def blockingMask : Word := 0x007F

/-- `raise Halt(K)`: the machine's one way to take an exception. It sets the cause's bit and changes nothing
else: no register is saved, no mode switched, pc goes nowhere (R10, R42, R320, R324). -/
def State.raise (s : State) (k : HaltCause) : State := { s with hcr := s.hcr ||| k.mask }

/-- `clear_halt_cause(mask)`: the host's half of the return from an exception (R42, R325). -/
def State.clearHalt (s : State) (mask : Word) : State := { s with hcr := s.hcr &&& ~~~mask }

/-- A blocking cause is set, so `run` returns 0 and changes nothing (R331). -/
def State.blocked (s : State) : Bool := s.hcr &&& blockingMask ≠ 0

/-! ### Code store, data RAM and the stack window -/

/-- `Code(a)` (R60). -/
def State.codeAt (s : State) (a : Word) : Word := s.code.read a.toNat

/-- `RAM[a]` (R61). -/
def State.ramAt (s : State) (a : Word) : Word := s.ram.read a.toNat

/-- `RAM[a] <- v` (R61). -/
def State.setRam (s : State) (a v : Word) : State := { s with ram := s.ram.write a.toNat v }

/-- The stack address is inside `[SBOT, STOP)`, compared unsigned (R65). -/
def State.inWindow (s : State) (a : Word) : Bool := s.sbot.toNat ≤ a.toNat && a.toNat < s.stop.toNat

/-- `SRead(a)`: the word read and the state after it (R66). -/
def State.sRead (s : State) (a : Word) : Word × State :=
  if s.inWindow a then (s.ramAt a, s) else (0, s.raise .stack)

/-- `SWrite(a, v)` (R67). -/
def State.sWrite (s : State) (a v : Word) : State :=
  if s.inWindow a then s.setRam a v else s.raise .stack

/-- `Push(v)`: SP advances whether or not the write faulted (R68). -/
def State.push (s : State) (v : Word) : State := { s.sWrite s.sp v with sp := s.sp + 1 }

/-! ### FIFO lanes -/

def State.lane (s : State) : LaneId → Lane
  | .laneA => s.laneA | .laneB => s.laneB

def State.setLane (s : State) (l : LaneId) (x : Lane) : State :=
  match l with
  | .laneA => { s with laneA := x } | .laneB => { s with laneB := x }

/-- COP_REGS, a power of two (R7, R87). -/
def copRegs (p : Params) : Nat := 2 ^ p.copRegsLog

/-- `Exec_L` (R347). -/
def execCop : LaneId → Memory → List Word → CopResult
  | .laneA => execA | .laneB => execB

/-- The coprocessor register a FIFO word selects: `w[31:16] and (COP_REGS - 1)` (R87). -/
def copIndex (p : Params) (w : BitVec 32) : Nat := (w.extractLsb' 16 16).toNat % copRegs p

/-- `CopWrite(L, w)`: a write to the trigger register runs `Exec_L`, which changes only its own register file
and peripheral memory (R87, R347). -/
def State.copWrite (s : State) (l : LaneId) (w : BitVec 32) : State :=
  let x := s.lane l
  let regs := x.regs.write (copIndex s.params w) (w.extractLsb' 0 16)
  if copIndex s.params w = s.params.copTrigger then
    let r := execCop l regs s.pmem
    { s.setLane l { x with regs := Memory.canonical (copRegs s.params) r.regs, busy := r.cycles }
      with pmem := r.pmem }
  else s.setLane l { x with regs := regs }

/-- Adds FIFO_STALL to the stall counter (R85). -/
def State.chargeStall (s : State) : State := { s with stall := s.stall + s.params.fifoStall }

/-- `FifoData(L, v)`: bypass an idle lane, else queue, else drop the word and raise FAULT (R83, R84). -/
def State.fifoData (s : State) (l : LaneId) (v : Word) : State :=
  let x := s.lane l
  let w : BitVec 32 := x.latch ++ v
  if x.ring = [] ∧ x.busy = 0 then s.copWrite l w
  else if x.ring.length < s.params.fifoDepth then
    (s.setLane l { x with ring := x.ring ++ [w] }).chargeStall
  else (s.raise .fault).chargeStall

/-! ### The register bus -/

/-- The registration covers cell `c`; cells outside the bus are clipped away (R70). -/
def covers (g : Registration) (c : Nat) : Bool :=
  g.base ≤ c && c < g.base + g.length && c < busCells

/-- The kind of a cell: the last registration that covers it, else NULL (R70, R75). -/
def cellKind (table : List Registration) (c : Nat) : CellKind :=
  match table.reverse.find? (fun g => covers g c) with
  | some g => g.kind
  | none => .null

/-- The words of a cell table that have a cell to stand in: only a cell of kind STORE has a backing word (R51). -/
def storeCells (table : List Registration) (m : Memory) : Memory :=
  m.filter fun e => cellKind table e.1 = .store

/-- The opaque state of an EXT group. -/
def State.extState (s : State) (k : Nat) : List Word := sparseGet [] s.ext k

/-- Replaces the opaque state of one EXT group (R76). -/
def State.setExt (s : State) (k : Nat) (st : List Word) : State := { s with ext := sparseSet [] s.ext k st }

/-- Advances the counter that free values are applied to. -/
def State.nextTick (s : State) : State := { s with tick := s.tick + 1 }

/-- `BusRead(c, rmw)`: the word read and the state after it (R71, R80). -/
def State.busRead (s : State) (c : Nat) (rmw : Bool) : Word × State :=
  match cellKind s.busMap c with
  | .null | .fifoAdr _ | .fifoDat _ => (0, s)
  | .store => (s.cells.read c, s)
  | .ext k =>
    let r := extRead k c rmw (s.extState k) s.tick
    (r.1, (s.setExt k r.2).nextTick)

/-- `BusWrite(c, v)` (R72). -/
def State.busWrite (s : State) (c : Nat) (v : Word) : State :=
  match cellKind s.busMap c with
  | .null => s
  | .store => { s with cells := s.cells.write c v }
  | .fifoAdr l => s.setLane l { s.lane l with latch := v }
  | .fifoDat l => s.fifoData l v
  | .ext k => (s.setExt k (extWrite k c v (s.extState k) s.tick)).nextTick

/-- `BusGet(c)`, the host's debug read (R73). -/
def State.busGet (s : State) (c : Nat) : Word :=
  match cellKind s.busMap c with
  | .null | .fifoDat _ => 0
  | .store => s.cells.read c
  | .fifoAdr l => (s.lane l).latch
  | .ext k => extGet k c (s.extState k)

/-- `BusSet(c, v)`, the host's debug write (R74). -/
def State.busSet (s : State) (c : Nat) (v : Word) : State :=
  match cellKind s.busMap c with
  | .null | .fifoDat _ => s
  | .store => { s with cells := s.cells.write c v }
  | .fifoAdr l => s.setLane l { s.lane l with latch := v }
  | .ext k => s.setExt k (extSet k c v (s.extState k))

/-! ### The data-space router -/

/-- PERIPH_BASE, the first data address routed to the bus (R62). -/
def periphBase : Nat := 0xFC00

/-- `DRead(a, rmw)` (R63). -/
def State.dRead (s : State) (a : Word) (rmw : Bool) : Word × State :=
  if a.toNat < periphBase then (s.ramAt a, s) else s.busRead (a.toNat - periphBase) rmw

/-- `DWrite(a, v)` (R64). -/
def State.dWrite (s : State) (a v : Word) : State :=
  if a.toNat < periphBase then s.setRam a v else s.busWrite (a.toNat - periphBase) v

/-! ### The end of an instruction -/

/-- CYC_BASE of an opcode class (R384). -/
def State.baseCycles (s : State) (cls : BitVec 7) : Nat := s.params.cycBase[cls.toNat]'cls.isLt

/-- The end of `Step()`: STALL joins the cost and is cleared, and pc changes, once (R27, R140, R163). -/
def State.retire (s : State) (next : Word) (cycles : Nat) : State :=
  { s with pc := next, cost := cycles + s.stall, stall := 0 }

end Sys2Proof.Machine
end

