-- ==== Sys2Proof/Machine/Operands.lean ====
section
/-! DEFINITION. The addressing unit: resolving an operand in any mode, and writing it back (R104, R105,
R141 to R151, R160, R161). -/
namespace Sys2Proof.Machine
open Sys2Proof.Config

/-! ### Pointer sub-modes -/

/-- One row of the sub-mode table (R105). -/
structure SubMode where
  /-- Element width in bits. -/
  width : Nat
  /-- DMASK. -/
  dmask : Word
  /-- FMASK. -/
  fmask : BitVec 4
  /-- ISH. -/
  ish : Nat
  /-- The post-increment is enabled. -/
  inc : Bool
  deriving DecidableEq, Repr

/-- The 16-row table of R105. -/
def subMode (s : BitVec 4) : SubMode :=
  match s.toNat with
  | 0x0 => ⟨16, 0xFFFF, 0x0, 4, false⟩
  | 0x1 => ⟨16, 0xFFFF, 0x0, 4, true⟩
  | 0x2 => ⟨8, 0x00FF, 0x8, 3, false⟩
  | 0x3 => ⟨8, 0x00FF, 0x8, 3, true⟩
  | 0x4 => ⟨4, 0x000F, 0xC, 2, false⟩
  | 0x5 => ⟨4, 0x000F, 0xC, 2, true⟩
  | 0x6 => ⟨2, 0x0003, 0xE, 1, false⟩
  | 0x7 => ⟨2, 0x0003, 0xE, 1, true⟩
  | 0x8 => ⟨1, 0x0001, 0xF, 0, false⟩
  | 0x9 => ⟨1, 0x0001, 0xF, 0, true⟩
  | 0xA => ⟨16, 0xFFFF, 0x0, 4, false⟩
  | 0xB => ⟨16, 0xFFFF, 0x0, 4, true⟩
  | 0xC => ⟨16, 0xFFFF, 0x0, 4, false⟩
  | 0xD => ⟨16, 0xFFFF, 0x0, 4, true⟩
  | 0xE => ⟨16, 0xFFFF, 0x0, 4, false⟩
  | _ => ⟨16, 0xFFFF, 0x0, 4, true⟩

/-- `Shift(w, f, order)` (R145). -/
def elemShift (width : Nat) (f : BitVec 4) : ElemOrder → Nat
  | .msbFirst => 16 - width - f.toNat
  | .lsbFirst => f.toNat

/-- `Extract(W, sh, DM)` (R145). -/
def extractElem (w : Word) (sh : Nat) (dm : Word) : Word := (w >>> sh) &&& dm

/-- `Merge(W, sh, DM, v)` (R145). -/
def mergeElem (w : Word) (sh : Nat) (dm v : Word) : Word :=
  (w &&& ~~~(dm <<< sh)) ||| ((v &&& dm) <<< sh)

/-- The 20-bit bit address `B` after a post-increment of `2^ISH` bits (R146). -/
def nextBitAddress (a : Word) (f : BitVec 4) (ish : Nat) : BitVec 20 :=
  (a ++ f) + BitVec.ofNat 20 (2 ^ ish)

/-- The post-increment of pointer base `n`: Xn and its nibble of XB (R146). -/
def State.postIncrement (s : State) (n : Ptr) (a : Word) (f : BitVec 4) (sm : SubMode) : State :=
  if sm.inc then
    let b := nextBitAddress a f sm.ish
    { s.setReg n.toReg (b.extractLsb' 4 16) with xb := setNibble s.xb n (b.extractLsb' 0 4) }
  else s

/-! ### Resolving -/

/-- A write-back descriptor (R141). -/
inductive WriteBack where
  | none
  | reg (r : Reg)
  | stack (a : Word)
  | data (a : Word)
  | sub (a w : Word) (sh : Nat) (dm : Word)
  deriving DecidableEq, Repr

/-- What `Resolve` returns (R141), with the state after its side effects. The extension-word count is
`Operand.words`. -/
structure Resolved where
  value : Word
  cycles : Nat
  wb : WriteBack
  after : State
  deriving DecidableEq, Repr

/-- CYC_MODE of an operand (R104). -/
def State.modeCycles (s : State) (ea : Operand) : Nat := s.params.cycMode[ea.mode.toNat]'ea.mode.isLt

/-- A stack operand at address `a`: modes 4 to 7, 12 and 14 (R143, R147, R149). -/
def State.stackOperand (s : State) (a : Word) (cycles : Nat) : Resolved :=
  let r := s.sRead a
  { value := r.1, cycles := cycles, wb := .stack a, after := r.2 }

/-- A sub-word element of the data word at `a`: modes 10, 11 and 15 (R146, R151), before any increment. -/
def State.elementOperand (s : State) (a : Word) (f : BitVec 4) (sm : SubMode) (order : ElemOrder)
    (rmw : Bool) (cycles : Nat) : Resolved :=
  let r := s.dRead a rmw
  let sh := elemShift sm.width f order
  { value := extractElem r.1 sh sm.dmask, cycles := cycles, wb := .sub a r.1 sh sm.dmask, after := r.2 }

/-- `Resolve(m, kind, base)`, `rmw` standing for the kind RMW (R141 to R151, R161). -/
def resolve (ea : Operand) (rmw : Bool) (s : State) : Resolved :=
  let cycles := s.modeCycles ea
  match ea with
  | .imm4 k => { value := k.zeroExtend 16, cycles := cycles, wb := .none, after := s }
  | .imm16 v => { value := v, cycles := cycles, wb := .none, after := s }
  | .reg r => { value := s.reg r, cycles := cycles, wb := .reg r, after := s }
  | .stack4 k => s.stackOperand (s.bp + k.zeroExtend 16) cycles
  | .stackIdx n => s.stackOperand (s.bp + s.reg n.toReg) cycles
  | .stack16 off => s.stackOperand (s.bp + off) cycles
  | .abs adr =>
    let r := s.dRead adr rmw
    { value := r.1, cycles := cycles, wb := .data adr, after := r.2 }
  | .absBit order adr sub frac =>
    let sm := subMode sub
    s.elementOperand adr (frac &&& sm.fmask) sm order rmw cycles
  | .ptr order n =>
    let sm := subMode (nibble s.xm n)
    let f := nibble s.xb n &&& sm.fmask
    let a := s.reg n.toReg
    let e := s.elementOperand a f sm order rmw cycles
    { e with after := e.after.postIncrement n a f sm }

/-- `WriteBack(wb, v)` (R160, R167). -/
def State.writeBack (s : State) (wb : WriteBack) (v : Word) : State :=
  match wb with
  | .none => s
  | .reg r => s.setReg r v
  | .stack a => s.sWrite a v
  | .data a => s.dWrite a v
  | .sub a w sh dm => s.dWrite a (mergeElem w sh dm v)

/-- The data RAM address a write-back stores to in state `s`, if it stores to RAM at all: a stack slot inside
the window, or a data address below PERIPH_BASE (R62, R67, R160). -/
def State.storeAddress (s : State) : WriteBack → Option Word
  | .none | .reg _ => Option.none
  | .stack a => if s.inWindow a then some a else Option.none
  | .data a | .sub a _ _ _ => if a.toNat < periphBase then some a else Option.none

end Sys2Proof.Machine
end

