-- ==== Sys2Proof/Machine/Flags.lean ====
section
/-! DEFINITION. What the operations compute: the 16-bit result and the extended result for register C (the machine
has no flags, R23, R31), and the skip conditions (R221 to R242, R251 to R263, R271 to R279). -/
namespace Sys2Proof.Machine

/-- A result, and the extended result for C if the operation writes C (R220). -/
structure AluResult where
  res : Word
  ext : Option Word
  deriving DecidableEq, Repr

/-- The word 1 or 0: a carry or a borrow. -/
def bitWord (p : Bool) : Word := if p then 1 else 0

/-- An operation on `a` (the destination's old value), `b` and the C read with them. -/
abbrev AluOp := Word → Word → Word → AluResult

/-- ADD (R221): the 17-bit sum. -/
def aluAdd : AluOp := fun a b _ =>
  let t := a.toNat + b.toNat
  ⟨BitVec.ofNat 16 t, some (bitWord (2 ^ 16 ≤ t))⟩

/-- ADC (R223): the carry-in is `C[0]`. -/
def aluAdc : AluOp := fun a b c =>
  let t := a.toNat + b.toNat + c.toNat % 2
  ⟨BitVec.ofNat 16 t, some (bitWord (2 ^ 16 ≤ t))⟩

/-- SUB (R225): C receives the borrow. -/
def aluSub : AluOp := fun a b _ =>
  ⟨BitVec.ofInt 16 (a.toNat - b.toNat), some (bitWord (a.toNat < b.toNat))⟩

/-- SBC (R227): the borrow-in is `C[0]`. -/
def aluSbc : AluOp := fun a b c =>
  let cin := c.toNat % 2
  ⟨BitVec.ofInt 16 (a.toNat - b.toNat - cin), some (bitWord (a.toNat < b.toNat + cin))⟩

/-- MUL (R230): C receives the high word of the unsigned product. -/
def aluMul : AluOp := fun a b _ =>
  let p := a.toNat * b.toNat
  ⟨BitVec.ofNat 16 p, some (BitVec.ofNat 16 (p / 2 ^ 16))⟩

/-- MLS (R232): C receives the high word of the signed product. -/
def aluMls : AluOp := fun a b _ =>
  let p : BitVec 32 := BitVec.ofInt 32 (a.toInt * b.toInt)
  ⟨p.extractLsb' 0 16, some (p.extractLsb' 16 16)⟩

/-- DIV (R234, R235): unsigned; a zero divisor gives 0; C is not written. -/
def aluDiv : AluOp := fun a b _ =>
  ⟨if b = 0 then 0 else BitVec.ofNat 16 (a.toNat / b.toNat), none⟩

/-- MOD (R234, R239). -/
def aluMod : AluOp := fun a b _ =>
  ⟨if b = 0 then 0 else BitVec.ofNat 16 (a.toNat % b.toNat), none⟩

/-- DVS (R234, R237): truncated toward zero. -/
def aluDvs : AluOp := fun a b _ =>
  ⟨if b = 0 then 0 else BitVec.ofInt 16 (a.toInt.tdiv b.toInt), none⟩

/-- MDS (R234, R241): the remainder has the sign of the dividend. -/
def aluMds : AluOp := fun a b _ =>
  ⟨if b = 0 then 0 else BitVec.ofInt 16 (a.toInt - b.toInt * a.toInt.tdiv b.toInt), none⟩

/-- AND (R251). -/
def aluAnd : AluOp := fun a b _ => ⟨a &&& b, none⟩

/-- OR (R253). -/
def aluOr : AluOp := fun a b _ => ⟨a ||| b, none⟩

/-- XOR (R255). -/
def aluXor : AluOp := fun a b _ => ⟨a ^^^ b, none⟩

/-- SHL (R258): the count is the full 16-bit value; C receives the bits shifted out of the top. -/
def aluShl : AluOp := fun a n _ =>
  let w := a.toNat * 2 ^ n.toNat
  ⟨BitVec.ofNat 16 w, some (BitVec.ofNat 16 (w / 2 ^ 16))⟩

/-- SHR (R260): C receives the bits shifted out of the bottom, left-aligned. -/
def aluShr : AluOp := fun a n _ =>
  let w := a.toNat * 2 ^ 16 / 2 ^ n.toNat
  ⟨BitVec.ofNat 16 (w / 2 ^ 16), some (BitVec.ofNat 16 w)⟩

/-- ASR (R262): division by a power of two, floored toward minus infinity. -/
def aluAsr : AluOp := fun a n _ =>
  let w : Int := a.toInt * 2 ^ 16 / ((2 ^ n.toNat : Nat) : Int)
  ⟨BitVec.ofInt 16 (w / 2 ^ 16), some (BitVec.ofInt 16 w)⟩

/-- NEG (R229): C receives the borrow of `0 - a`. -/
def aluNeg (a : Word) : AluResult := ⟨BitVec.ofInt 16 (0 - a.toNat), some (bitWord (a ≠ 0))⟩

/-- NOT (R257): C is not written. -/
def aluNot (a : Word) : AluResult := ⟨a ^^^ 0xFFFF, none⟩

/-! ### Skip conditions: `a` is `x[r]`, `b` is `ea` (R271) -/

def condEq (a b : Word) : Bool := a = b
def condNe (a b : Word) : Bool := a ≠ b
def condUg (a b : Word) : Bool := b.toNat < a.toNat
def condUl (a b : Word) : Bool := a.toNat < b.toNat
def condSg (a b : Word) : Bool := b.toInt < a.toInt
def condSl (a b : Word) : Bool := a.toInt < b.toInt
def condBs (a b : Word) : Bool := a &&& b ≠ 0
def condBc (a b : Word) : Bool := a &&& b = 0

end Sys2Proof.Machine
end

