-- ==== Sys2Proof/Machine/Forms.lean ====
section
/-! DEFINITION. The shared shapes of the instructions: the two ALU forms, moves, skips, jumps and calls, in the
commit order of R162. -/
namespace Sys2Proof.Machine

/-- A class that falls through (R164). -/
def State.fallThrough (s : State) (cls : BitVec 7) (words cycles : Nat) : State :=
  s.retire (s.pc + 1 + BitVec.ofNat 16 words) (s.baseCycles cls + cycles)

/-- `C <- ext` for the operations that produce an extended result (R162 step 4). -/
def State.writeExt (s : State) : Option Word → State
  | none => s
  | some e => s.setReg .c e

/-- `ea <- ea OP r` (R220, R250). -/
def aluEaR (cls : BitVec 7) (op : AluOp) (ea : Operand) (r : Reg) (s : State) : State :=
  let v := resolve ea true s
  let x := op v.value (v.after.reg r) (v.after.reg .c)
  ((v.after.writeExt x.ext).writeBack v.wb x.res).fallThrough cls ea.words v.cycles

/-- `r <- r OP ea` (R220, R250). -/
def aluREa (cls : BitVec 7) (op : AluOp) (r : Reg) (ea : Operand) (s : State) : State :=
  let v := resolve ea false s
  let x := op (v.after.reg r) v.value (v.after.reg .c)
  ((v.after.writeExt x.ext).setReg r x.res).fallThrough cls ea.words v.cycles

/-- The one-operand operations NOT and NEG (R229, R257). -/
def aluEa (cls : BitVec 7) (op : Word → AluResult) (ea : Operand) (s : State) : State :=
  let v := resolve ea true s
  let x := op v.value
  ((v.after.writeExt x.ext).writeBack v.wb x.res).fallThrough cls ea.words v.cycles

/-- A store of the value that `src` gives after `ea` is resolved (R202, R206, R208, R210, R211). -/
def storeEa (cls : BitVec 7) (src : State → Word) (ea : Operand) (s : State) : State :=
  let v := resolve ea true s
  (v.after.writeBack v.wb (src v.after)).fallThrough cls ea.words v.cycles

/-- A load of `ea` by `put` (R203, R205, R207, R209). -/
def loadEa (cls : BitVec 7) (put : State → Word → State) (ea : Operand) (s : State) : State :=
  let v := resolve ea false s
  (put v.after v.value).fallThrough cls ea.words v.cycles

/-! ### Lengths in the code store -/

/-- The offset after `n` parameter groups, the first at offset `k` of the instruction at `a` (R109). -/
def paramsEnd (s : State) (a : Word) : Nat → Nat → Nat
  | 0, k => k
  | n + 1, k => paramsEnd s a n (k + 1 + modeWords (fieldM (s.codeAt (a + BitVec.ofNat 16 k))))

/-- `Len(a)`, the length in words of the instruction at code address `a` (R109). -/
def instrLen (s : State) (a : Word) : Nat :=
  let ir := s.codeAt a
  let c := (fieldClass ir).toNat
  if c = 0x00 ∨ c = 0x32 ∨ 0x3B ≤ c then 1
  else
    let k := 1 + modeWords (fieldM ir)
    if c = 0x30 ∨ c = 0x31 ∨ c = 0x33 then paramsEnd s a (fieldR ir).toNat k else k

/-! ### Control flow -/

/-- The skip mechanism (R270). -/
def skipWhen (cls : BitVec 7) (cond : Word → Word → Bool) (r : Reg) (ea : Operand) (s : State) : State :=
  let v := resolve ea false s
  let n1 := s.pc + 1 + BitVec.ofNat 16 ea.words
  if cond (v.after.reg r) v.value then
    v.after.retire (n1 + BitVec.ofNat 16 (instrLen v.after n1))
      (s.baseCycles cls + v.cycles + s.params.cycSkip)
  else v.after.retire n1 (s.baseCycles cls + v.cycles)

/-- Step 2 of a call: each parameter is resolved in the caller's frame, left to right, and written at
`slot`, `slot + 1`, …; the cycles are returned (R290). -/
def pushParams : List Operand → Word → State → Nat × State
  | [], _, s => (0, s)
  | p :: ps, slot, s =>
    let v := resolve p false s
    let rest := pushParams ps (slot + 1) (v.after.sWrite slot v.value)
    (s.params.cycParam + v.cycles + rest.1, rest.2)

/-- `Call(pc0, n, m, rel)` (R290): the target, the old BP, the parameters, the return address, then the new
frame. `size` is the length of the whole instruction. -/
def callProc (cls : BitVec 7) (rel : Bool) (size : Nat) (ea : Operand) (ps : List Operand) (s : State) : State :=
  let v := resolve ea false s
  let target := if rel then s.pc + v.value else v.value
  let bot := v.after.sp
  let p := pushParams ps (bot + 2) (v.after.sWrite bot v.after.bp)
  let s3 := p.2.sWrite (bot + 1) (s.pc + BitVec.ofNat 16 size)
  ({ s3 with bp := bot + 2, sp := bot + 2 + BitVec.ofNat 16 ps.length }).retire target
    (s.baseCycles cls + v.cycles + p.1)

/-- The values of a list of operands resolved left to right, and the state after (R311). -/
def resolveAll : List Operand → State → List Word × State
  | [], s => ([], s)
  | p :: ps, s =>
    let v := resolve p false s
    let rest := resolveAll ps v.after
    (v.value :: rest.1, rest.2)

end Sys2Proof.Machine
end

