-- ==== Sys2Proof/Machine/Arith.lean ====
section
/-! DEFINITION. Arithmetic: addition, subtraction, multiplication, division (R220 to R242). -/
namespace Sys2Proof.Machine

/-- `ADD ea, r` (R221). -/
def execAddEaR (ea : Operand) (r : Reg) (s : State) : Host.Outcome State Fault Refusal :=
  .next (aluEaR 0x04#7 aluAdd ea r s)

/-- `ADD r, ea` (R222). -/
def execAddREa (r : Reg) (ea : Operand) (s : State) : Host.Outcome State Fault Refusal :=
  .next (aluREa 0x05#7 aluAdd r ea s)

/-- `ADC ea, r` (R223). -/
def execAdcEaR (ea : Operand) (r : Reg) (s : State) : Host.Outcome State Fault Refusal :=
  .next (aluEaR 0x06#7 aluAdc ea r s)

/-- `ADC r, ea` (R224). -/
def execAdcREa (r : Reg) (ea : Operand) (s : State) : Host.Outcome State Fault Refusal :=
  .next (aluREa 0x07#7 aluAdc r ea s)

/-- `SUB ea, r` (R225). -/
def execSubEaR (ea : Operand) (r : Reg) (s : State) : Host.Outcome State Fault Refusal :=
  .next (aluEaR 0x08#7 aluSub ea r s)

/-- `SUB r, ea` (R226). -/
def execSubREa (r : Reg) (ea : Operand) (s : State) : Host.Outcome State Fault Refusal :=
  .next (aluREa 0x09#7 aluSub r ea s)

/-- `SBC ea, r` (R227). -/
def execSbcEaR (ea : Operand) (r : Reg) (s : State) : Host.Outcome State Fault Refusal :=
  .next (aluEaR 0x0A#7 aluSbc ea r s)

/-- `SBC r, ea` (R228). -/
def execSbcREa (r : Reg) (ea : Operand) (s : State) : Host.Outcome State Fault Refusal :=
  .next (aluREa 0x0B#7 aluSbc r ea s)

/-- `MUL ea, r` (R230). -/
def execMulEaR (ea : Operand) (r : Reg) (s : State) : Host.Outcome State Fault Refusal :=
  .next (aluEaR 0x18#7 aluMul ea r s)

/-- `MUL r, ea` (R231). -/
def execMulREa (r : Reg) (ea : Operand) (s : State) : Host.Outcome State Fault Refusal :=
  .next (aluREa 0x19#7 aluMul r ea s)

/-- `MLS ea, r` (R232). -/
def execMlsEaR (ea : Operand) (r : Reg) (s : State) : Host.Outcome State Fault Refusal :=
  .next (aluEaR 0x1A#7 aluMls ea r s)

/-- `MLS r, ea` (R233). -/
def execMlsREa (r : Reg) (ea : Operand) (s : State) : Host.Outcome State Fault Refusal :=
  .next (aluREa 0x1B#7 aluMls r ea s)

/-- `DIV ea, r` (R235). -/
def execDivEaR (ea : Operand) (r : Reg) (s : State) : Host.Outcome State Fault Refusal :=
  .next (aluEaR 0x1C#7 aluDiv ea r s)

/-- `DIV r, ea` (R236). -/
def execDivREa (r : Reg) (ea : Operand) (s : State) : Host.Outcome State Fault Refusal :=
  .next (aluREa 0x1D#7 aluDiv r ea s)

/-- `DVS ea, r` (R237). -/
def execDvsEaR (ea : Operand) (r : Reg) (s : State) : Host.Outcome State Fault Refusal :=
  .next (aluEaR 0x1E#7 aluDvs ea r s)

/-- `DVS r, ea` (R238). -/
def execDvsREa (r : Reg) (ea : Operand) (s : State) : Host.Outcome State Fault Refusal :=
  .next (aluREa 0x1F#7 aluDvs r ea s)

/-- `MOD ea, r` (R239). -/
def execModEaR (ea : Operand) (r : Reg) (s : State) : Host.Outcome State Fault Refusal :=
  .next (aluEaR 0x20#7 aluMod ea r s)

/-- `MOD r, ea` (R240). -/
def execModREa (r : Reg) (ea : Operand) (s : State) : Host.Outcome State Fault Refusal :=
  .next (aluREa 0x21#7 aluMod r ea s)

/-- `MDS ea, r` (R241). -/
def execMdsEaR (ea : Operand) (r : Reg) (s : State) : Host.Outcome State Fault Refusal :=
  .next (aluEaR 0x22#7 aluMds ea r s)

/-- `MDS r, ea` (R242). -/
def execMdsREa (r : Reg) (ea : Operand) (s : State) : Host.Outcome State Fault Refusal :=
  .next (aluREa 0x23#7 aluMds r ea s)

/-- `NEG ea` (R229). -/
def execNeg (ea : Operand) (s : State) : Host.Outcome State Fault Refusal :=
  .next (aluEa 0x25#7 aluNeg ea s)

end Sys2Proof.Machine
end

