-- ==== Sys2Proof/Machine/Control.lean ====
section
/-! DEFINITION. Jumps, calls and the return (R290 to R296). -/
namespace Sys2Proof.Machine

/-- `JMR ea` (R295): relative to the instruction word. -/
def execJmr (ea : Operand) (s : State) : Host.Outcome State Fault Refusal :=
  let v := resolve ea false s
  .next (v.after.retire (s.pc + v.value) (s.baseCycles 0x2E#7 + v.cycles))

/-- `JMA ea` (R296). -/
def execJma (ea : Operand) (s : State) : Host.Outcome State Fault Refusal :=
  let v := resolve ea false s
  .next (v.after.retire v.value (s.baseCycles 0x2F#7 + v.cycles))

/-- `JFR ea, p1..pn` (R292). -/
def execJfr (ea : Operand) (ps : List Operand) (s : State) : Host.Outcome State Fault Refusal :=
  .next (callProc 0x30#7 true (1 + ea.words + paramsWords ps) ea ps s)

/-- `JFA ea, p1..pn` (R293). -/
def execJfa (ea : Operand) (ps : List Operand) (s : State) : Host.Outcome State Fault Refusal :=
  .next (callProc 0x31#7 false (1 + ea.words + paramsWords ps) ea ps s)

/-- `RFN` (R294): EXIT from the outermost frame, with nothing else changed, else the return. -/
def execRfn (s : State) : Host.Outcome State Fault Refusal :=
  if s.bp.toNat ≤ s.sbot.toNat then
    .next ((s.raise .exit).retire s.pc (s.baseCycles 0x32#7))
  else
    let ra := s.sRead (s.bp - 1)
    let ob := ra.2.sRead (s.bp - 2)
    .next (({ ob.2 with sp := s.bp - 2, bp := ob.1 }).retire ra.1 (s.baseCycles 0x32#7))

end Sys2Proof.Machine
end

