-- ==== Sys2Proof/Machine/Logic.lean ====
section
/-! DEFINITION. Bitwise logic and shifts (R250 to R263). -/
namespace Sys2Proof.Machine

/-- `AND ea, r` (R251). -/
def execAndEaR (ea : Operand) (r : Reg) (s : State) : Host.Outcome State Fault Refusal :=
  .next (aluEaR 0x0C#7 aluAnd ea r s)

/-- `AND r, ea` (R252). -/
def execAndREa (r : Reg) (ea : Operand) (s : State) : Host.Outcome State Fault Refusal :=
  .next (aluREa 0x0D#7 aluAnd r ea s)

/-- `OR ea, r` (R253). -/
def execOrEaR (ea : Operand) (r : Reg) (s : State) : Host.Outcome State Fault Refusal :=
  .next (aluEaR 0x0E#7 aluOr ea r s)

/-- `OR r, ea` (R254). -/
def execOrREa (r : Reg) (ea : Operand) (s : State) : Host.Outcome State Fault Refusal :=
  .next (aluREa 0x0F#7 aluOr r ea s)

/-- `XOR ea, r` (R255). -/
def execXorEaR (ea : Operand) (r : Reg) (s : State) : Host.Outcome State Fault Refusal :=
  .next (aluEaR 0x10#7 aluXor ea r s)

/-- `XOR r, ea` (R256). -/
def execXorREa (r : Reg) (ea : Operand) (s : State) : Host.Outcome State Fault Refusal :=
  .next (aluREa 0x11#7 aluXor r ea s)

/-- `SHL ea, r` (R258). -/
def execShlEaR (ea : Operand) (r : Reg) (s : State) : Host.Outcome State Fault Refusal :=
  .next (aluEaR 0x12#7 aluShl ea r s)

/-- `SHL r, ea` (R259). -/
def execShlREa (r : Reg) (ea : Operand) (s : State) : Host.Outcome State Fault Refusal :=
  .next (aluREa 0x13#7 aluShl r ea s)

/-- `SHR ea, r` (R260). -/
def execShrEaR (ea : Operand) (r : Reg) (s : State) : Host.Outcome State Fault Refusal :=
  .next (aluEaR 0x14#7 aluShr ea r s)

/-- `SHR r, ea` (R261). -/
def execShrREa (r : Reg) (ea : Operand) (s : State) : Host.Outcome State Fault Refusal :=
  .next (aluREa 0x15#7 aluShr r ea s)

/-- `ASR ea, r` (R262). -/
def execAsrEaR (ea : Operand) (r : Reg) (s : State) : Host.Outcome State Fault Refusal :=
  .next (aluEaR 0x16#7 aluAsr ea r s)

/-- `ASR r, ea` (R263). -/
def execAsrREa (r : Reg) (ea : Operand) (s : State) : Host.Outcome State Fault Refusal :=
  .next (aluREa 0x17#7 aluAsr r ea s)

/-- `NOT ea` (R257). -/
def execNot (ea : Operand) (s : State) : Host.Outcome State Fault Refusal :=
  .next (aluEa 0x24#7 aluNot ea s)

end Sys2Proof.Machine
end

