-- ==== Sys2Proof/Machine/Move.lean ====
section
/-! DEFINITION. Data movement: NOP, MOV, XCH and the special-register moves (R200 to R211). -/
namespace Sys2Proof.Machine

/-- `NOP` (R201). -/
def execNop (s : State) : Host.Outcome State Fault Refusal :=
  .next (s.fallThrough 0x00#7 0 0)

/-- `MOV ea, r` (R202). -/
def execMovEaR (ea : Operand) (r : Reg) (s : State) : Host.Outcome State Fault Refusal :=
  .next (storeEa 0x01#7 (fun t => t.reg r) ea s)

/-- `MOV r, ea` (R203). -/
def execMovREa (r : Reg) (ea : Operand) (s : State) : Host.Outcome State Fault Refusal :=
  .next (loadEa 0x02#7 (fun t v => t.setReg r v) ea s)

/-- `XCH r, ea` (R204): `ea` is written, then the register (R162 steps 5 and 6). -/
def execXch (r : Reg) (ea : Operand) (s : State) : Host.Outcome State Fault Refusal :=
  let v := resolve ea true s
  .next (((v.after.writeBack v.wb (v.after.reg r)).setReg r v.value).fallThrough 0x03#7 ea.words v.cycles)

/-- `MOV SP, ea` (R205). -/
def execMovSpEa (ea : Operand) (s : State) : Host.Outcome State Fault Refusal :=
  .next (loadEa 0x34#7 (fun t v => { t with sp := v }) ea s)

/-- `MOV ea, SP` (R206). -/
def execMovEaSp (ea : Operand) (s : State) : Host.Outcome State Fault Refusal :=
  .next (storeEa 0x35#7 (fun t => t.sp) ea s)

/-- `MOV XM, ea` (R207). -/
def execMovXmEa (ea : Operand) (s : State) : Host.Outcome State Fault Refusal :=
  .next (loadEa 0x36#7 (fun t v => { t with xm := v }) ea s)

/-- `MOV ea, XM` (R208). -/
def execMovEaXm (ea : Operand) (s : State) : Host.Outcome State Fault Refusal :=
  .next (storeEa 0x37#7 (fun t => t.xm) ea s)

/-- `MOV XB, ea` (R209). -/
def execMovXbEa (ea : Operand) (s : State) : Host.Outcome State Fault Refusal :=
  .next (loadEa 0x38#7 (fun t v => { t with xb := v }) ea s)

/-- `MOV ea, XB` (R210). -/
def execMovEaXb (ea : Operand) (s : State) : Host.Outcome State Fault Refusal :=
  .next (storeEa 0x39#7 (fun t => t.xb) ea s)

/-- `MOV ea, BP` (R211). -/
def execMovEaBp (ea : Operand) (s : State) : Host.Outcome State Fault Refusal :=
  .next (storeEa 0x3A#7 (fun t => t.bp) ea s)

end Sys2Proof.Machine
end

