-- ==== Sys2Proof/Machine/Skip.lean ====
section
/-! DEFINITION. Conditional skips (R270 to R279). -/
namespace Sys2Proof.Machine

/-- `XEQ r, ea` (R272). -/
def execXeq (r : Reg) (ea : Operand) (s : State) : Host.Outcome State Fault Refusal :=
  .next (skipWhen 0x26#7 condEq r ea s)

/-- `XNE r, ea` (R273). -/
def execXne (r : Reg) (ea : Operand) (s : State) : Host.Outcome State Fault Refusal :=
  .next (skipWhen 0x27#7 condNe r ea s)

/-- `XUG r, ea` (R274). -/
def execXug (r : Reg) (ea : Operand) (s : State) : Host.Outcome State Fault Refusal :=
  .next (skipWhen 0x28#7 condUg r ea s)

/-- `XUL r, ea` (R275). -/
def execXul (r : Reg) (ea : Operand) (s : State) : Host.Outcome State Fault Refusal :=
  .next (skipWhen 0x29#7 condUl r ea s)

/-- `XSG r, ea` (R276). -/
def execXsg (r : Reg) (ea : Operand) (s : State) : Host.Outcome State Fault Refusal :=
  .next (skipWhen 0x2A#7 condSg r ea s)

/-- `XSL r, ea` (R277). -/
def execXsl (r : Reg) (ea : Operand) (s : State) : Host.Outcome State Fault Refusal :=
  .next (skipWhen 0x2B#7 condSl r ea s)

/-- `XBS r, ea` (R278). -/
def execXbs (r : Reg) (ea : Operand) (s : State) : Host.Outcome State Fault Refusal :=
  .next (skipWhen 0x2C#7 condBs r ea s)

/-- `XBC r, ea` (R279). -/
def execXbc (r : Reg) (ea : Operand) (s : State) : Host.Outcome State Fault Refusal :=
  .next (skipWhen 0x2D#7 condBc r ea s)

end Sys2Proof.Machine
end

