-- ==== Sys2Proof/Machine/Agents.lean ====
section
/-! DEFINITION. The kernel call dispatcher and the task scheduler: opaque agents whose contract (R350 to R353) holds
by construction, since only what the contract lets them touch is applied to the state. -/
namespace Sys2Proof.Machine
open Sys2Proof.Config

/-! ### Kernel task slots -/

/-- Replaces one kernel task slot (R351). -/
def State.setSlot (s : State) (i : Fin 16) (x : TaskSlot) : State := { s with slots := s.slots.set i x }

/-- An empty slot (R351). That its record is the empty list is the model's choice (log 25). -/
def emptySlot : TaskSlot := { status := .empty, dispatched := false, params := [] }

/-- A slot discarded by its dedicated call (R351). -/
def State.discardSlot (s : State) (i : Fin 16) : State := s.setSlot i emptySlot

/-- `task_end(h, res)`: a running slot completes with bit 15 of the result set; a slot that is not running is
left alone (R351; the latter is the model's choice, log 13). -/
def State.taskEnd (s : State) (h : Fin 16) (res : Word) : State :=
  if s.slots[h].status = .running then
    s.setSlot h { s.slots[h] with status := .completed (res ||| 0x8000) }
  else s

/-- A pointer parameter `p` with length `len` lies inside the data-memory window `[0, PERIPH_BASE)`, the sum taken
unbounded (R350, D56). -/
def pointerValid (r : Nat × Nat) : Bool := r.1 < periphBase && r.1 + r.2 ≤ periphBase

/-- Every pointer parameter of a task's record is valid (R350, R352). -/
def taskValid (params : List Word) : Bool := (taskRanges params).all pointerValid

/-! ### The dispatcher -/

/-- What the dispatcher may look at (R350; how much of it is the model's choice, log 7). -/
def State.kernelView (s : State) : KernelView :=
  { ram := s.ram, busMap := s.busMap, cells := s.cells, latchA := s.laneA.latch, latchB := s.laneB.latch, ext := s.ext,
    slots := s.slots, kernel := s.kernel, tick := s.tick }

/-- The words an agent writes to data RAM, those that `ok` does not allow dropped. -/
def State.agentWrites (s : State) (ok : Word → Bool) (l : List (Word × Word)) : State :=
  l.foldl (fun s e => if ok e.1 then s.setRam e.1 e.2 else s) s

/-- The changes of a valid call: data RAM inside the window, bus state through `BusSet`, discarded slots, its own
state (R350). A `BusSet` on a FIFO address cell sets the lane's latch, as for any caller (R74); ring, busy counter and
coprocessor stay (the model's choice, log 7). -/
def State.kernelEffects (s : State) (e : KernelEffects) : State :=
  let s1 := s.agentWrites (fun a => a.toNat < periphBase) e.ram
  let s2 := e.bus.foldl (fun s x => s.busSet x.1 x.2) s1
  let s3 := e.discard.foldl (fun s i => s.discardSlot i) s2
  { s3 with kernel := e.kernel }

/-- A task-class call's slot, queued with its parameters, and the dispatcher's own state after the call, which R350
leaves open (the model's choice, log 7). The record is the call's parameter list, of whatever length, since the source
does not give the size or layout of R351's "fixed-size" record (N19; the model's choice, log 25). -/
def State.allocate (s : State) (slot : Fin 16) (ps kernel : List Word) : State :=
  { s.setSlot slot { status := .queued, dispatched := false, params := ps } with kernel := kernel }

/-- What a kernel call comes to: its cycles, its result words (hi, lo) unless INVKC was raised, the state after. -/
structure KernelOutcome where
  cycles : Nat
  result : Option (Word × Word)
  after : State
  deriving DecidableEq, Repr

/-- An invalid kernel call: INVKC, 0 cycles, no slot or memory changed (R350). The dispatcher's own state stays too
(read from "side-effect-free" in R350, log 7). -/
def State.invalidCall (s : State) : KernelOutcome :=
  { cycles := 0, result := none, after := s.raise .invkc }

/-- The shape of the operation that a call selects: none for an unknown selector, and none for a parameter count that is
not exactly the operation's (R350). -/
def callShape (k : Dispatcher) (params : List Word) : Option KernelShape :=
  match params with
  | [] => none
  | selector :: _ =>
    match k.op selector with
    | none => none
    | some op => if params.length = op.count then some op.shape else none

/-- A task-class call of the right count (R350). One with an invalid pointer, or that asks for a slot that is not empty
(the model's choice, log 7), allocates nothing. -/
def State.taskCall (s : State) (params : List Word) (a : TaskAnswer) : KernelOutcome :=
  if s.slots[a.slot].status = .empty ∧ taskValid params then
    { cycles := a.result.cycles, result := some (a.result.hi, a.result.lo),
      after := (s.allocate a.slot params a.kernel).raise .callback }
  else s.invalidCall

/-- `KDispatch(P, count)` by the dispatcher `k` (R310, R350). An unknown selector or a wrong count is an invalid call. An
immediate-result or a callback call of the right count is answered, since R350 names no validation for it (DEDUCED,
log 7). Every valid call may change the dispatcher's own state (the model's choice, log 7). -/
def State.kernelCall (s : State) (k : Dispatcher) (params : List Word) : KernelOutcome :=
  match callShape k params with
  | none => s.invalidCall
  | some (.immediate cycles) =>
    let a := k.immediate params s.kernelView
    { cycles := cycles, result := some (a.hi, a.lo), after := s.nextTick.kernelEffects a.effects }
  | some .callback =>
    let a := k.callback params s.kernelView
    { cycles := a.result.cycles, result := some (a.result.hi, a.result.lo),
      after := (s.nextTick.kernelEffects a.effects).raise .callback }
  | some .task => s.nextTick.taskCall params (k.task params s.kernelView)

/-! ### The task scheduler -/

/-- The addresses a task's callback may write: its validated windows (R353). -/
def taskMayWrite (params : List Word) (a : Word) : Bool :=
  (taskRanges params).any fun r => pointerValid r && r.1 ≤ a.toNat && a.toNat < r.1 + r.2

/-- The scheduler at one slot: a queued slot whose mark does not stand is marked, re-validated, and either raises
FAULT or is handed to the host's callback (R352, R353; the mark's lifetime is a free value, log 8). -/
def State.schedSlot (s : State) (i : Fin 16) : State :=
  let x := s.slots[i]
  if x.status = .queued && !(x.dispatched && markStands s.tick) then
    let s1 := s.setSlot i { x with dispatched := true }
    if taskValid x.params then
      let s2 := s1.setSlot i { status := .running, dispatched := true, params := x.params }
      (s2.agentWrites (taskMayWrite x.params) (taskCallback x s.ram s.tick)).nextTick
    else (s1.raise .fault).nextTick
  else s

/-- `TaskSched()`: the 16 slots in order (R352). -/
def State.taskSched (s : State) : State :=
  ([0, 1, 2, 3, 4, 5, 6, 7, 8, 9, 10, 11, 12, 13, 14, 15] : List (Fin 16)).foldl State.schedSlot s

end Sys2Proof.Machine
end

