-- ==== Sys2Proof/Machine/Supervisor.lean ====
section
/-! DEFINITION. The supervisor call and the invalid opcodes (R310 to R312). -/
namespace Sys2Proof.Machine
open Sys2Proof.Config

/-- The end of a supervisor call: A and C receive the results unless INVKC was raised, and the cost is the
dispatcher's count (R311). -/
def kernelReturn (pc0 : Word) (size : Nat) (k : KernelOutcome) : State :=
  match k.result with
  | none => k.after.retire (pc0 + BitVec.ofNat 16 size) k.cycles
  | some (hi, lo) =>
    ((k.after.setReg .a lo).setReg .c hi).retire (pc0 + BitVec.ofNat 16 size) k.cycles

/-- A supervisor call to the dispatcher `k` (R311). -/
def supervisorCall (k : Dispatcher) (ea : Operand) (ps : List Operand) (s : State) : State :=
  let p := resolveAll (ea :: ps) s
  kernelReturn s.pc (1 + ea.words + paramsWords ps) (p.2.kernelCall k p.1)

/-- `JSV ea, p2..p(n+1)` (R311). -/
def execJsv (ea : Operand) (ps : List Operand) (s : State) : Host.Outcome State Fault Refusal :=
  .next (supervisorCall kdispatch ea ps s)

/-- The invalid-opcode function: INVOP, pc stays, no operand is resolved (R312). -/
def invalidOpcode (cls : BitVec 7) (s : State) : State :=
  (s.raise .invop).retire s.pc (s.baseCycles cls)

/-- Class 0x3B (R312). -/
def execReserved3B (s : State) : Host.Outcome State Fault Refusal :=
  .next (invalidOpcode 0x3B#7 s)

/-- Classes 0x3C to 0x3F (R312). -/
def execReserved3C (low : BitVec 2) (s : State) : Host.Outcome State Fault Refusal :=
  .next (invalidOpcode (0xF#5 ++ low) s)

/-- Classes 0x40 to 0x7F (R312). -/
def execReserved40 (low : BitVec 6) (s : State) : Host.Outcome State Fault Refusal :=
  .next (invalidOpcode (1#1 ++ low) s)

end Sys2Proof.Machine
end

