-- ==== Sys2Proof/Machine/Dispatch.lean ====
section
/-! DEFINITION. The dispatch table: one arm per instruction (R165). -/
namespace Sys2Proof.Machine
open Sys2Proof

/-- The opcode class's function applied to the state: one `Step()` after fetch and decode (R140, R165). -/
def exec (i : Instr) (s : State) : Host.Outcome State Fault Refusal :=
  match i with
  | .nop => Sys2Proof.Machine.execNop s
  | .movEaR ea r => Sys2Proof.Machine.execMovEaR ea r s
  | .movREa r ea => Sys2Proof.Machine.execMovREa r ea s
  | .xch r ea => Sys2Proof.Machine.execXch r ea s
  | .addEaR ea r => Sys2Proof.Machine.execAddEaR ea r s
  | .addREa r ea => Sys2Proof.Machine.execAddREa r ea s
  | .adcEaR ea r => Sys2Proof.Machine.execAdcEaR ea r s
  | .adcREa r ea => Sys2Proof.Machine.execAdcREa r ea s
  | .subEaR ea r => Sys2Proof.Machine.execSubEaR ea r s
  | .subREa r ea => Sys2Proof.Machine.execSubREa r ea s
  | .sbcEaR ea r => Sys2Proof.Machine.execSbcEaR ea r s
  | .sbcREa r ea => Sys2Proof.Machine.execSbcREa r ea s
  | .andEaR ea r => Sys2Proof.Machine.execAndEaR ea r s
  | .andREa r ea => Sys2Proof.Machine.execAndREa r ea s
  | .orEaR ea r => Sys2Proof.Machine.execOrEaR ea r s
  | .orREa r ea => Sys2Proof.Machine.execOrREa r ea s
  | .xorEaR ea r => Sys2Proof.Machine.execXorEaR ea r s
  | .xorREa r ea => Sys2Proof.Machine.execXorREa r ea s
  | .shlEaR ea r => Sys2Proof.Machine.execShlEaR ea r s
  | .shlREa r ea => Sys2Proof.Machine.execShlREa r ea s
  | .shrEaR ea r => Sys2Proof.Machine.execShrEaR ea r s
  | .shrREa r ea => Sys2Proof.Machine.execShrREa r ea s
  | .asrEaR ea r => Sys2Proof.Machine.execAsrEaR ea r s
  | .asrREa r ea => Sys2Proof.Machine.execAsrREa r ea s
  | .mulEaR ea r => Sys2Proof.Machine.execMulEaR ea r s
  | .mulREa r ea => Sys2Proof.Machine.execMulREa r ea s
  | .mlsEaR ea r => Sys2Proof.Machine.execMlsEaR ea r s
  | .mlsREa r ea => Sys2Proof.Machine.execMlsREa r ea s
  | .divEaR ea r => Sys2Proof.Machine.execDivEaR ea r s
  | .divREa r ea => Sys2Proof.Machine.execDivREa r ea s
  | .dvsEaR ea r => Sys2Proof.Machine.execDvsEaR ea r s
  | .dvsREa r ea => Sys2Proof.Machine.execDvsREa r ea s
  | .modEaR ea r => Sys2Proof.Machine.execModEaR ea r s
  | .modREa r ea => Sys2Proof.Machine.execModREa r ea s
  | .mdsEaR ea r => Sys2Proof.Machine.execMdsEaR ea r s
  | .mdsREa r ea => Sys2Proof.Machine.execMdsREa r ea s
  | .not ea => Sys2Proof.Machine.execNot ea s
  | .neg ea => Sys2Proof.Machine.execNeg ea s
  | .xeq r ea => Sys2Proof.Machine.execXeq r ea s
  | .xne r ea => Sys2Proof.Machine.execXne r ea s
  | .xug r ea => Sys2Proof.Machine.execXug r ea s
  | .xul r ea => Sys2Proof.Machine.execXul r ea s
  | .xsg r ea => Sys2Proof.Machine.execXsg r ea s
  | .xsl r ea => Sys2Proof.Machine.execXsl r ea s
  | .xbs r ea => Sys2Proof.Machine.execXbs r ea s
  | .xbc r ea => Sys2Proof.Machine.execXbc r ea s
  | .jmr ea => Sys2Proof.Machine.execJmr ea s
  | .jma ea => Sys2Proof.Machine.execJma ea s
  | .jfr ea ps => Sys2Proof.Machine.execJfr ea ps s
  | .jfa ea ps => Sys2Proof.Machine.execJfa ea ps s
  | .rfn => Sys2Proof.Machine.execRfn s
  | .jsv ea ps => Sys2Proof.Machine.execJsv ea ps s
  | .movSpEa ea => Sys2Proof.Machine.execMovSpEa ea s
  | .movEaSp ea => Sys2Proof.Machine.execMovEaSp ea s
  | .movXmEa ea => Sys2Proof.Machine.execMovXmEa ea s
  | .movEaXm ea => Sys2Proof.Machine.execMovEaXm ea s
  | .movXbEa ea => Sys2Proof.Machine.execMovXbEa ea s
  | .movEaXb ea => Sys2Proof.Machine.execMovEaXb ea s
  | .movEaBp ea => Sys2Proof.Machine.execMovEaBp ea s
  | .reserved3B => Sys2Proof.Machine.execReserved3B s
  | .reserved3C low => Sys2Proof.Machine.execReserved3C low s
  | .reserved40 low => Sys2Proof.Machine.execReserved40 low s

end Sys2Proof.Machine
end

