-- ==== Sys2Proof/Machine/RunLoop.lean ====
section
/-! DEFINITION. The run loop: step 0, bursts, the breakpoint check, and the end of a pass with the housekeeping
draw, the FIFO drains, the timers and the scheduler (R330 to R346). -/
namespace Sys2Proof.Machine
open Sys2Proof.Config

/-! ### FIFO drain -/

/-- The loop of `Drain(L, avail)`: the list is the lane's ring, `avail` the cycles left (R346). -/
def State.drainLoop (l : LaneId) : List (BitVec 32) → Nat → State → State
  | [], avail, s =>
    let x := s.lane l
    s.setLane l { x with busy := x.busy - avail }
  | w :: rest, avail, s =>
    let x := s.lane l
    if avail < x.busy then s.setLane l { x with busy := x.busy - avail }
    else
      State.drainLoop l rest (avail - x.busy)
        ((s.setLane l { x with busy := 0, ring := rest }).copWrite l w)

/-- `Drain(L, avail)` (R346). -/
def State.drain (s : State) (l : LaneId) (avail : Nat) : State := s.drainLoop l (s.lane l).ring avail

/-! ### Timers -/

/-- One audio sample: AUDIO is raised every 512 (R342). -/
def State.audioSample (s : State) : State :=
  let t := s.timers
  let s1 := { s with timers := { t with acyc := t.acyc - s.params.cyclesPerSample, asmp := t.asmp + 1 } }
  if t.asmp + 1 = 512 then { s1 with timers := { s1.timers with asmp := 0 } }.raise .audio else s1

/-- The loop of `AudioTick`; the first argument bounds the number of samples. -/
def State.audioLoop : Nat → State → State
  | 0, s => s
  | n + 1, s =>
    if (s.params.cyclesPerSample : Nat) ≤ s.timers.acyc then State.audioLoop n s.audioSample else s

/-- `AudioTick(u)` (R342). Each sample takes at least one cycle, so ACYC bounds the loop. -/
def State.audioTick (s : State) (u : Nat) : State :=
  let s1 := { s with timers := { s.timers with acyc := s.timers.acyc + u } }
  s1.audioLoop s1.timers.acyc

/-- One display line: the line callback, which changes nothing of the block, and FRAME at rollover (R343, R354). -/
def State.videoLine (s : State) : State :=
  let t := s.timers
  let s1 := { s with timers := { t with lcyc := t.lcyc - s.params.cyclesPerLine, line := t.line + 1 },
                     lineCalls := s.lineCalls + 1 }
  if t.line + 1 = s.params.linesPerFrame then
    { s1 with timers := { s1.timers with line := 0 } }.raise .frame
  else s1

/-- The loop of `VideoTick`; the first argument bounds the number of lines. -/
def State.videoLoop : Nat → State → State
  | 0, s => s
  | n + 1, s =>
    if (s.params.cyclesPerLine : Nat) ≤ s.timers.lcyc then State.videoLoop n s.videoLine else s

/-- `VideoTick(u)` (R343). -/
def State.videoTick (s : State) (u : Nat) : State :=
  let s1 := { s with timers := { s.timers with lcyc := s.timers.lcyc + u } }
  s1.videoLoop s1.timers.lcyc

/-! ### Passes -/

/-- `HKDraw()`: between 0 and HK_MAX, a free value (R340; log 10). -/
def State.hkSurcharge (s : State) : Nat × State :=
  match s.params.hkMax with
  | 0 => (0, s)
  | m + 1 => (hkDraw s.tick % (m + 2), s.nextTick)

/-- The budget of a pass: the cycles left in the display line (R332). -/
def State.passBudget (s : State) : Nat := s.params.cyclesPerLine - s.timers.lcyc

/-- A pass of `run` begins (R330 step 1). -/
def State.startPass (s : State) (c : RunCall) : State :=
  { s with call := some { c with budget := s.passBudget, used := 0 } }

/-- `run` returns its total to the host (R330). -/
def State.finishCall (s : State) (total : Nat) : State := { s with call := none, reply := .cycles total }

/-- Steps 2 to 4 of a pass for a burst that used `c.used` cycles: the state, and `used` with the surcharge
(R330, R345, R341). -/
def State.passTail (s : State) (c : RunCall) : State × Nat :=
  let h := s.hkSurcharge
  let used := c.used + h.1
  ((((h.2.drain .laneA used).drain .laneB used).audioTick used).videoTick used, used)

/-- Step 5 of a pass (R330, R352). -/
def State.passEnd (s : State) (c : RunCall) : State :=
  if s.hcr ≠ 0 then s.finishCall c.total
  else
    let s1 := s.taskSched
    if c.mode = .single ∨ s1.hcr ≠ 0 then s1.finishCall c.total else s1.startPass c

/-- The end of a burst and of its pass (R330 steps 2 to 5). -/
def State.endOfBurst (s : State) (c : RunCall) : State :=
  let t := s.passTail c
  t.1.passEnd { c with total := c.total + t.2 }

/-- After an instruction of a burst: its cycles are added, and the burst ends on a halt cause, in single-step
mode, or when the budget is used up (R336). -/
def State.afterInstr (s : State) (c : RunCall) : State :=
  let c1 := { c with used := c.used + s.cost, first := false }
  if s.hcr ≠ 0 ∨ c.mode = .single ∨ c.budget ≤ c1.used then s.endOfBurst c1
  else { s with call := some c1 }

/-- The breakpoint check before an instruction starts (R337). -/
def State.breakHit (s : State) (c : RunCall) : Bool :=
  c.mode = .breakChecked && !c.first && sparseGet false s.bpmap s.pc.toNat

/-- `run(mode)` is called: step 0, then the first pass begins (R330, R331). A call turned away at step 0 changes nothing
at all, so it does not count as the first run call having begun (R70; the model's choice, log 15). -/
def State.beginRun (s : State) (mode : RunMode) : State :=
  if s.blocked then { s with reply := .cycles 0 }
  else
    { s with hcr := 0, started := true }.startPass
      { mode := mode, first := true, budget := 0, used := 0, total := 0 }

end Sys2Proof.Machine
end

