-- ==== Sys2Proof/Machine/Boundary.lean ====
section
/-! DEFINITION. The host's calls between `run` calls: halt causes, breakpoints, debug bus access, access to
memory, export and import, reset and the loader path (R42, R48, R70, R73, R74, R94, R351, R355, R360, R380 to R382). -/
namespace Sys2Proof.Machine
open Sys2Proof.Config

/-! ### Reset and loading -/

/-- The EXT groups' states after an in-place reset: a free value for every group the handler table names
(log 12). -/
def resetExt (tick : Nat) : List Registration → List (Nat × List Word) → List (Nat × List Word)
  | [], ext => ext
  | g :: gs, ext =>
    match g.kind with
    | .ext k => resetExt tick gs (sparseSet [] ext k (extAtReset k (sparseGet [] ext k) tick))
    | _ => resetExt tick gs ext

/-- `reset()` in place: every piece of state of R52 at its reset value, RAM and the code store holding the image
last loaded; the handler table, BPMAP and the parameters stay (R380, R382). Peripheral memory and the EXT groups
become free values (log 11, log 12). -/
def State.resetInPlace (s : State) : State :=
  { s with
    gpr := State.reset.gpr, xm := 0, xb := 0, pc := entry
    sp := s.image.sbot, bp := s.image.sbot, sbot := s.image.sbot, stop := s.image.stop
    hcr := HaltCause.init.mask
    code := s.image.code, ram := s.image.ram, cells := []
    ext := resetExt s.tick s.busMap s.ext
    laneA := .reset, laneB := .reset
    pmem := pmemAtReset s.pmem s.tick
    stall := 0
    timers := State.reset.timers
    slots := State.reset.slots
    tick := s.tick + 1 }

/-- An image from outside in canonical form. -/
def AppImage.canonical (img : AppImage) : AppImage :=
  { img with code := Memory.canonical memoryWords img.code, ram := Memory.canonical memoryWords img.ram }

/-- The loader's success: the code store and data RAM are filled, the window and SP and BP set, INIT cleared
(R381 step 3). -/
def State.launch (s : State) (img : AppImage) : State :=
  { s with
    image := img.canonical, code := img.canonical.code, ram := img.canonical.ram
    sbot := img.sbot, stop := img.stop, sp := img.sbot, bp := img.sbot }.clearHalt HaltCause.init.mask

/-- The loader path (R381): it runs while INIT is set; a pending or failed load leaves INIT set. -/
def State.load (s : State) (r : LoadResult) : State :=
  if s.hcr &&& HaltCause.init.mask = 0 then { s with reply := .rejected .notInitialising }
  else
    match r with
    | .pending => { s with reply := .done }
    | .failed code => { s with reply := .rejected (.image code) }
    | .loaded img => { s.launch img with reply := .done }

/-! ### Export and import -/

/-- `export()`: what the block exports (R360). -/
def State.exported (s : State) : Snapshot :=
  { gpr := s.gpr, xm := s.xm, xb := s.xb, pc := s.pc, sp := s.sp, bp := s.bp, sbot := s.sbot, stop := s.stop,
    hcr := s.hcr, laneA := s.laneA, laneB := s.laneB, timers := s.timers, cells := s.cells, ram := s.ram,
    pmem := s.pmem }

/-- The first invariant of R360 that a snapshot breaks, if any. -/
def importFault (p : Params) (x : Snapshot) : Option Rejection :=
  if x.hcr.extractLsb' 10 6 ≠ 0 then some .haltCauseBits
  else if p.fifoDepth < x.laneA.ring.length then some (.ringLength .laneA)
  else if p.fifoDepth < x.laneB.ring.length then some (.ringLength .laneB)
  else if (p.cyclesPerSample : Nat) ≤ x.timers.acyc then some .audioCycles
  else if 512 ≤ x.timers.asmp then some .audioSamples
  else if (p.cyclesPerLine : Nat) ≤ x.timers.lcyc then some .lineCycles
  else if (p.linesPerFrame : Nat) ≤ x.timers.line then some .lineIndex
  else none

/-- A lane from outside, its register file in canonical form. -/
def Lane.canonical (p : Params) (x : Lane) : Lane := { x with regs := Memory.canonical (copRegs p) x.regs }

/-- The state with a snapshot's contents (R360). A word the snapshot gives for a cell that is not of kind STORE is
dropped, since that cell has no backing word (R51; log 24). -/
def State.imported (s : State) (x : Snapshot) : State :=
  { s with
    gpr := x.gpr, xm := x.xm, xb := x.xb, pc := x.pc, sp := x.sp, bp := x.bp, sbot := x.sbot, stop := x.stop,
    hcr := x.hcr, laneA := x.laneA.canonical s.params, laneB := x.laneB.canonical s.params, timers := x.timers,
    cells := storeCells s.busMap (Memory.canonical busCells x.cells), ram := Memory.canonical memoryWords x.ram,
    pmem := x.pmem }

/-- `import(buffer)`: all or nothing (R360). -/
def State.importState (s : State) (x : Snapshot) : State :=
  match importFault s.params x with
  | some why => { s with reply := .rejected why }
  | none => { s.imported x with reply := .done }

/-! ### The calls -/

/-- `register_handlers` at start-up; once the first `run` call has begun the table is fixed (R70; log 15). A cell that
stops being of kind STORE has no backing word any more (R51; log 24). -/
def State.registerHandlers (s : State) (g : Registration) : State :=
  if s.started then { s with reply := .rejected .tableFixed }
  else
    let table := s.busMap ++ [g]
    { s with busMap := table, cells := storeCells table s.cells, reply := .done }

/-- One bit of the breakpoint bitmap (R48). -/
def State.setBreakBit (s : State) (a : Word) (b : Bool) : State :=
  { s with bpmap := sparseSet false s.bpmap a.toNat b }

/-- The host writes one word of the code store, which changes only during initialisation, so while INIT is set
(R91, R94; log 22). -/
def State.writeCode (s : State) (a v : Word) : State :=
  if s.hcr &&& HaltCause.init.mask = 0 then { s with reply := .rejected .notInitialising }
  else { s with code := s.code.write a.toNat v, reply := .done }

/-- One call of the host (R355, R94). -/
def State.hostCall (s : State) : HostCall → State
  | .run mode => s.beginRun mode
  | .getHaltCause => { s with reply := .word s.hcr }
  | .clearHaltCause mask => { s.clearHalt mask with reply := .done }
  | .setBreakpoint a => { s.setBreakBit a true with reply := .done }
  | .clearBreakpoint a => { s.setBreakBit a false with reply := .done }
  | .isBreakpoint a => { s with reply := .flag (sparseGet false s.bpmap a.toNat) }
  | .taskEnd h res => { s.taskEnd h res with reply := .done }
  | .busGet c => { s with reply := .word (s.busGet c) }
  | .busSet c v => { s.busSet c v with reply := .done }
  | .exportState => { s with reply := .snapshot s.exported }
  | .importState x => s.importState x
  | .reset => { s.resetInPlace with reply := .done }
  | .load r => s.load r
  | .registerHandlers base length kind => s.registerHandlers ⟨base, length, kind⟩
  | .readRam a => { s with reply := .word (s.ramAt a) }
  | .readCode a => { s with reply := .word (s.codeAt a) }
  | .writeRam a v => { s.setRam a v with reply := .done }
  | .writeCode a v => s.writeCode a v

/-- An idle machine serves the host's next call; with none to serve, nothing happens (R356; log 5). -/
def State.hostTurn (s : State) : State :=
  match s.host with
  | [] => s
  | h :: rest => { s with host := rest }.hostCall h

end Sys2Proof.Machine
end

