-- ==== Sys2Proof/Machine/Fetch.lean ====
section
/-! DEFINITION. Fetching an instruction from the code store, and placing words there (R60, R100, R107, R109). -/
namespace Sys2Proof.Machine

/-- The longest instruction, in words (R109). -/
def maxInstrWords : Nat := 24

/-- The code words from pc on, wrapping modulo 2^16 (R27, R60). -/
def State.fetchWords (s : State) : List Word :=
  (List.range maxInstrWords).map fun i => s.codeAt (s.pc + BitVec.ofNat 16 i)

/-- The instruction at pc (R140). -/
def State.fetch (s : State) : Except DecodeError (Instr × List Word) := decode s.fetchWords

/-- Words placed in the code store from address `a` on, wrapping. -/
def State.placeWords (s : State) (a : Word) : List Word → State
  | [] => s
  | w :: ws => State.placeWords { s with code := s.code.write a.toNat w } (a + 1) ws

/-- The machine just after a free-running `run` call has begun, any blocking cause having been cleared by the
host (R330, R331, R381; log 4). -/
def State.beginProgram (s : State) : State :=
  { s with hcr := 0 }.beginRun .free

end Sys2Proof.Machine
end

