-- ==== Sys2Proof/Machine/Step.lean ====
section
/-! DEFINITION. The machine's step. -/
namespace Sys2Proof.Machine

/-- One step. While a `run` call executes: the breakpoint check, then one instruction, then the run loop's
bookkeeping and, when the burst ends, the rest of its pass (R330, R336, R337). While none executes: the host's
next call (R356). -/
def step (s : State) : Host.Outcome State Fault Refusal :=
  match s.call with
  | none => .next s.hostTurn
  | some c =>
    if s.breakHit c then .next ((s.raise .brk).endOfBurst c)
    else
      match s.fetch with
      | .error .truncated => .refused .truncated
      | .ok (i, _) =>
        match exec i s with
        | .next t => .next (t.afterInstr c)
        | .fault r => .fault r
        | .refused r => .refused r

/-- `s` with a table row's instruction stored at pc and a free-running `run` call just begun, so that the next
step fetches and runs it (log 4). -/
def State.withFetchWord (s : State) (nbits w : Nat) : State :=
  (s.placeWords s.pc (tableWords nbits w)).beginProgram

end Sys2Proof.Machine
end

