-- ==== Sys2Proof/Machine/Assembler.lean ====
section
/-! DEFINITION. The assembler's operand selection and pseudo-instructions (R117, R118). -/
namespace Sys2Proof.Machine

/-- The operand for `#k`: the 4-bit form when it fits, else `#imm16` of `u16(k)` (R117). -/
def asmImmediate (k : Int) : Operand :=
  if 0 ≤ k ∧ k ≤ 15 then .imm4 (BitVec.ofInt 4 k) else .imm16 (BitVec.ofInt 16 k)

/-- The operand for `[BP+k]` (R117). -/
def asmStack (k : Int) : Operand :=
  if 0 ≤ k ∧ k ≤ 15 then .stack4 (BitVec.ofInt 4 k) else .stack16 (BitVec.ofInt 16 k)

/-- `JMP t` (R118). -/
def asmJmp (t : Word) : Instr := .jma (asmImmediate t.toNat)

/-- `BRA t` at code address `here` (R118). -/
def asmBra (here t : Word) : Instr := .jmr (asmImmediate (t - here).toNat)

/-- `CALL t, p1..pn` (R118). -/
def asmCall (t : Word) (ps : List Operand) : Instr := .jfa (asmImmediate t.toNat) ps

/-- `RET` (R118). -/
def asmRet : Instr := .rfn

/-- `SKIP` (R118). -/
def asmSkip : Instr := .xeq .a (.reg .a)

/-- `INC x` for a register: writes C with the carry (R118). -/
def asmInc (x : Reg) : Instr := .addREa x (asmImmediate 1)

/-- `DEC x` for a register: writes C with the borrow (R118). -/
def asmDec (x : Reg) : Instr := .subREa x (asmImmediate 1)

/-- `CLR x` for a register (R118). -/
def asmClr (x : Reg) : Instr := .xorREa x (.reg x)

end Sys2Proof.Machine
end

