-- ==== Sys2Proof/Safety.lean ====
section
/-! DEFINITION. The invariant of the machine, what counts as a safe run, and the terms in which the statements
say what an instruction leaves unchanged. -/
namespace Sys2Proof.Machine
open Sys2Proof.Config

/-- A lane as R44 and R360 say: a ring of at most FIFO_DEPTH words, a register file of COP_REGS words. -/
structure Lane.Ok (p : Params) (x : Lane) : Prop where
  ring : x.ring.length ≤ p.fifoDepth
  regs : x.regs.wf (copRegs p)

/-- The timers within their periods (R46, R47, R360). -/
structure Timers.Ok (p : Params) (t : Timers) : Prop where
  acyc : t.acyc < p.cyclesPerSample
  asmp : t.asmp < 512
  lcyc : t.lcyc < p.cyclesPerLine
  line : t.line < p.linesPerFrame

/-- HCR holds only the ten causes of R40; bits 15:10 are 0. -/
abbrev causesOnly (hcr : Word) : Prop := hcr &&& 0xFC00 = 0

/-- A `run` call between two instructions: no cause is set, and the burst has cycles left in the line (R336, R332). -/
structure RunCall.Ok (s : State) (c : RunCall) : Prop where
  quiet : s.hcr = 0
  budget : c.budget = s.passBudget
  used : c.used < c.budget

/-- What holds of the machine between steps. -/
structure State.Inv (s : State) : Prop where
  code : s.code.wf memoryWords
  ram : s.ram.wf memoryWords
  cells : s.cells.wf busCells
  stored : ∀ e ∈ s.cells, cellKind s.busMap e.1 = .store
  imageCode : s.image.code.wf memoryWords
  imageRam : s.image.ram.wf memoryWords
  bpmap : sparseWf false memoryWords s.bpmap
  ext : ∃ bound, sparseWf [] bound s.ext
  laneA : s.laneA.Ok s.params
  laneB : s.laneB.Ok s.params
  stall : s.stall = 0
  timers : s.timers.Ok s.params
  hcr : causesOnly s.hcr
  call : ∀ c, s.call = some c → c.Ok s

/-- Two states agree on everything an instruction may not touch: the code store, the window, the handler table,
timers, breakpoints, parameters, the loaded image and the host's side (R30, R48, R50, R60). -/
structure SameFixed (s t : State) : Prop where
  code : t.code = s.code
  sbot : t.sbot = s.sbot
  stop : t.stop = s.stop
  busMap : t.busMap = s.busMap
  timers : t.timers = s.timers
  bpmap : t.bpmap = s.bpmap
  params : t.params = s.params
  image : t.image = s.image
  call : t.call = s.call
  started : t.started = s.started
  host : t.host = s.host
  reply : t.reply = s.reply
  lineCalls : t.lineCalls = s.lineCalls

/-- A run is safe while no step is refused and no blocking cause is set (R41). -/
def State.safe (s : State) : Prop :=
  s.blocked = false ∧ ∃ t, step s = .next t

/-- `u` is what steps 2 to 5 of R330 make of `t`, the state a burst of `c` left after using `n` cycles: the
surcharge, the drains of lane A and then B, the audio and then the video timer, all for the same cycles; with a cause
set the call returns its total; else the scheduler runs, and the call returns, or a new pass begins with the cycles
left in the display line. -/
def PassResult (c : RunCall) (n : Nat) (t u : State) : Prop :=
  let h := t.hkSurcharge
  let used := n + h.1
  let p := (((h.2.drain .laneA used).drain .laneB used).audioTick used).videoTick used
  let q := p.taskSched
  (p.hcr ≠ 0 → u = { p with call := none, reply := .cycles (c.total + used) }) ∧
  (p.hcr = 0 → c.mode = .single ∨ q.hcr ≠ 0 → u = { q with call := none, reply := .cycles (c.total + used) }) ∧
  (p.hcr = 0 → c.mode ≠ .single → q.hcr = 0 →
    u = { q with call := some { mode := c.mode, first := false, budget := q.params.cyclesPerLine - q.timers.lcyc,
                                used := 0, total := c.total + used } })

/-! ### What an operand names -/

/-- The stack address of a stack-addressed operand (R143, R147, R149). -/
def State.stackAddress (s : State) : Operand → Option Word
  | .stack4 k => some (s.bp + k.zeroExtend 16)
  | .stackIdx n => some (s.bp + s.reg n.toReg)
  | .stack16 off => some (s.bp + off)
  | .imm4 _ | .imm16 _ | .reg _ | .ptr .. | .abs _ | .absBit .. => none

/-- The data address of a data-memory operand (R146, R150, R151). -/
def State.dataAddress (s : State) : Operand → Option Word
  | .ptr _ n => some (s.reg n.toReg)
  | .abs adr | .absBit _ adr _ _ => some adr
  | .imm4 _ | .imm16 _ | .reg _ | .stack4 _ | .stackIdx _ | .stack16 _ => none

/-- The pointer base that resolving an operand may increment (R146). -/
def incBase : Operand → Option Reg
  | .ptr _ n => some n.toReg
  | .imm4 _ | .imm16 _ | .reg _ | .stack4 _ | .stackIdx _ | .stack16 _ | .abs _ | .absBit .. => none

/-- The EXT group that an access to an operand reaches (R62, R75). -/
def State.extGroup (s : State) (ea : Operand) : Option Nat :=
  match s.dataAddress ea with
  | none => none
  | some a =>
    if a.toNat < 0xFC00 then none
    else match cellKind s.busMap (a.toNat - 0xFC00) with
      | .ext k => some k
      | _ => none

/-- Resolving the operand in `s` reads a stack slot outside the window (R65). -/
def State.readFaults (s : State) (ea : Operand) : Prop :=
  ∃ a, s.stackAddress ea = some a ∧ ¬(s.sbot ≤ a ∧ a < s.stop)

/-- HCR after an operand is accessed as a stack slot: STACK (bit 3) joins it outside the window (R65, R66). -/
def State.hcrAfter (s : State) (ea : Operand) : Word :=
  match s.stackAddress ea with
  | none => s.hcr
  | some a => if s.sbot ≤ a ∧ a < s.stop then s.hcr else s.hcr ||| 0x0008

/-! ### Frames -/

/-- What an instruction that only reads `ea` leaves unchanged, the registers in `w` apart: registers (a pointer
base of `ea` holds what resolving it leaves), every word of data RAM, devices, slots, STALL, and SameFixed. HCR
gains STACK if `ea` is outside the window, and nothing else. -/
structure ReadFrame (s t : State) (ea : Operand) (w : List Reg) : Prop where
  regs : ∀ q, q ∉ w → t.reg q = if incBase ea = some q then (resolve ea false s).after.reg q else s.reg q
  ram : ∀ a, t.ramAt a = s.ramAt a
  cells : t.cells = s.cells
  laneA : t.laneA = s.laneA
  laneB : t.laneB = s.laneB
  pmem : t.pmem = s.pmem
  slots : t.slots = s.slots
  kernel : t.kernel = s.kernel
  ext : ∀ k, s.extGroup ea ≠ some k → t.extState k = s.extState k
  hcr : t.hcr = s.hcrAfter ea
  stall : t.stall = 0
  fixed : SameFixed s t

/-- XM, SP and BP are unchanged, and so is XB but for the nibble of a pointer base that `ea` increments. -/
structure SameSpecial (s t : State) (ea : Operand) (rmw : Bool) : Prop where
  xm : t.xm = s.xm
  sp : t.sp = s.sp
  bp : t.bp = s.bp
  xb : t.xb = (resolve ea rmw s).after.xb
  xbKept : ∀ n : Ptr, incBase ea ≠ some n.toReg → nibble t.xb n = nibble s.xb n

/-- The instruction falls through: pc goes past its words, and the cost is the class's and the mode's, with the
stall counter (R163, R164). -/
structure Falls (s t : State) (cls : BitVec 7) (ea : Operand) : Prop where
  pc : t.pc = s.pc + 1 + BitVec.ofNat 16 ea.words
  cost : t.cost = s.params.cycBase[cls.toNat]'cls.isLt + s.params.cycMode[ea.mode.toNat]'ea.mode.isLt + s.stall

/-- An instruction "r, ea" of class `cls` wrote `res` to `r` and, if `ext` is some, that to C unless `r` is C. -/
structure RegResult (s t : State) (cls : BitVec 7) (r : Reg) (ea : Operand) (res : Word) (ext : Option Word) :
    Prop where
  result : t.reg r = res
  carry : ∀ e, ext = some e → r ≠ .c → t.reg .c = e
  frame : ReadFrame s t ea (r :: if ext = none then [] else [.c])
  special : SameSpecial s t ea false
  falls : Falls s t cls ea

/-- The word a write-back stores for the value `x`: a sub-word operand merges it into the word captured (R160). -/
def WriteBack.word (wb : WriteBack) (x : Word) : Word :=
  match wb with
  | .sub _ w sh dm => (w &&& ~~~(dm <<< sh)) ||| ((x &&& dm) <<< sh)
  | .none | .reg _ | .stack _ | .data _ => x

/-- The bus cell a write-back goes to (R62, R64). -/
def WriteBack.cell : WriteBack → Option Nat
  | .data a | .sub a _ _ _ => if a.toNat < 0xFC00 then Option.none else some (a.toNat - 0xFC00)
  | .none | .reg _ | .stack _ => Option.none

/-- What is left unchanged by an instruction that writes `ea`, the registers in `w` and `ea` itself apart. Every
word of data RAM but the one at `storeAddress` is unchanged. Without a bus write, the devices are unchanged and HCR
gains at most STACK. -/
structure WriteFrame (s t : State) (ea : Operand) (w : List Reg) : Prop where
  regs : ∀ q, q ∉ w → ea ≠ .reg q →
    t.reg q = if incBase ea = some q then (resolve ea true s).after.reg q else s.reg q
  ram : ∀ a, (resolve ea true s).after.storeAddress (resolve ea true s).wb ≠ some a → t.ramAt a = s.ramAt a
  bus : (resolve ea true s).wb.cell = none →
    t.cells = s.cells ∧ t.laneA = s.laneA ∧ t.laneB = s.laneB ∧ t.pmem = s.pmem ∧ t.hcr = s.hcrAfter ea
  ext : ∀ k, s.extGroup ea ≠ some k → t.extState k = s.extState k
  slots : t.slots = s.slots
  kernel : t.kernel = s.kernel
  stall : t.stall = 0
  fixed : SameFixed s t

/-- The value `x` was written to `ea` by an instruction of class `cls`, pc and the cost moving as R163 and R164
say. In data RAM it is read back; on the bus, the devices and HCR are as `BusWrite` leaves them (R72). -/
structure Stored (s t : State) (cls : BitVec 7) (ea : Operand) (x : Word) : Prop where
  ram : ∀ a, (resolve ea true s).after.storeAddress (resolve ea true s).wb = some a →
    t.ramAt a = (resolve ea true s).wb.word x
  bus : ∀ c, (resolve ea true s).wb.cell = some c →
    ∀ u, u = (resolve ea true s).after.busWrite c ((resolve ea true s).wb.word x) →
      t.cells = u.cells ∧ t.laneA = u.laneA ∧ t.laneB = u.laneB ∧ t.pmem = u.pmem ∧ t.ext = u.ext ∧ t.hcr = u.hcr
  pc : t.pc = s.pc + 1 + BitVec.ofNat 16 ea.words
  cost : t.cost = s.params.cycBase[cls.toNat]'cls.isLt + s.params.cycMode[ea.mode.toNat]'ea.mode.isLt +
    match (resolve ea true s).wb.cell with
    | none => s.stall
    | some c => ((resolve ea true s).after.busWrite c ((resolve ea true s).wb.word x)).stall

/-- An instruction "ea, r" of class `cls` wrote `res` to `ea` and, if `ext` is some, that to C unless `ea` is C. -/
structure EaResult (s t : State) (cls : BitVec 7) (ea : Operand) (res : Word) (ext : Option Word) : Prop where
  result : ∀ q, ea = .reg q → t.reg q = res
  carry : ∀ e, ext = some e → ea ≠ .reg .c → t.reg .c = e
  stored : Stored s t cls ea res
  frame : WriteFrame s t ea (if ext = none then [] else [.c])
  special : SameSpecial s t ea true

end Sys2Proof.Machine
end

