-- ==== Sys2Proof/Certificates/Slice0/Obligations.lean ====
section
/-! DEFINITION. The statements for the provers. The terms they use are in Sys2Proof/Safety.lean. -/
open Sys2Proof Sys2Proof.Machine Sys2Proof.Config

/-! ### Encoding -/

/-- Decoding an encoded well-formed instruction gives it back, with the words after it, for every operand value
(R100, R101, R103, R106, R107, R108, R110). -/
def Obligations.DecodeOfEncode : Prop :=
  ∀ (i : Instr) (rest : List Word), i.wellFormed = true → decode (encode i ++ rest) = .ok (i, rest)

/-- The decoder is total on any first word, with the words after it long enough for the longest instruction: it
gives a well-formed instruction of the word's class, and the reserved classes are those whose execution raises
INVOP (R115, R111). -/
def Obligations.EveryWordDecodes : Prop :=
  ∀ (w : Word) (ws : List Word), 23 ≤ ws.length →
    ∃ i, decode (w :: ws) = .ok (i, (w :: ws).drop i.size) ∧ i.wellFormed = true ∧ i.cls = fieldClass w ∧
      (0x3B#7 ≤ fieldClass w → ∀ s, ∃ t, exec i s = .next t ∧ t.hcr = s.hcr ||| 0x0002 ∧ t.pc = s.pc)

/-- `Len` at pc is the length of the instruction decoded there, 1 to 24 words (R109). -/
def Obligations.LenIsDecodedLength : Prop :=
  ∀ (s : State) (i : Instr) (rest : List Word), s.fetch = .ok (i, rest) →
    instrLen s s.pc = i.size ∧ 1 ≤ i.size ∧ i.size ≤ 24

/-- Words written out from the encodings of the spec's examples decode to the instructions they stand for. -/
def Obligations.ExampleWordsDecode : Prop :=
  decodeTableWord 16 0x0A21 = some (.addREa .a (.reg .b)) ∧
  decodeTableWord 32 0x0040023C = some (.movEaR (.abs 0x0040) .a) ∧
  decodeTableWord 16 0x1A0F = some (.andREa .a (.imm4 0xF)) ∧
  decodeTableWord 16 0x2410 = some (.shlEaR (.stack4 0) .a) ∧
  decodeTableWord 16 0x3A21 = some (.divREa .a (.reg .b)) ∧
  decodeTableWord 16 0x0C28 = some (.adcEaR (.ptr .msbFirst .x0) .a) ∧
  decodeTableWord 16 0x4C05 = some (.xeq .a (.imm4 5)) ∧
  decodeTableWord 32 0xFFFE5C34 = some (.jmr (.imm16 0xFFFE)) ∧
  decodeTableWord 48 0x000700106274 = some (.jfa (.imm16 0x0010) [.imm4 7]) ∧
  decodeTableWord 16 0x6400 = some .rfn ∧
  decodeTableWord 16 0x6603 = some (.jsv (.imm4 3) []) ∧
  decodeTableWord 32 0x00036C34 = some (.movXmEa (.imm16 3)) ∧
  decodeTableWord 16 0xFFFF = some (.reserved40 0x3F)

/-- The alias modes decode as the mode they alias, in every class and for call parameters (R113), and the ignored
fields do not matter (R112). -/
def Obligations.AliasesAndIgnoredFields : Prop :=
  (∀ (ws : List Word) (m m' : BitVec 6),
    (m, m') ∈ [(0x35#6, 0x34#6), (0x36#6, 0x34#6), (0x37#6, 0x34#6), (0x39#6, 0x38#6), (0x3A#6, 0x38#6),
      (0x3B#6, 0x38#6), (0x3D#6, 0x3C#6)] →
    decodeOperand m ws = decodeOperand m' ws ∧
    ∀ (c : BitVec 7) (r : BitVec 3), decode (instrWord c r m :: ws) = decode (instrWord c r m' :: ws)) ∧
  (∀ (c : BitVec 7) (r r' : BitVec 3) (m : BitVec 6) (ws : List Word),
    c ∈ [0x24#7, 0x25#7, 0x2E#7, 0x2F#7, 0x34#7, 0x35#7, 0x36#7, 0x37#7, 0x38#7, 0x39#7, 0x3A#7] →
    decode (instrWord c r m :: ws) = decode (instrWord c r' m :: ws)) ∧
  (∀ (c : BitVec 7) (r r' : BitVec 3) (m m' : BitVec 6) (ws : List Word), c ∈ [0x00#7, 0x32#7] →
    decode (instrWord c r m :: ws) = decode (instrWord c r' m' :: ws)) ∧
  (∀ (n : Nat) (p p' : Word) (ws : List Word), p.extractLsb' 0 6 = p'.extractLsb' 0 6 →
    decodeParams (n + 1) (p :: ws) = decodeParams (n + 1) (p' :: ws)) ∧
  (∀ (m : BitVec 6) (adr spec spec' : Word) (ws : List Word), m ∈ [0x3E#6, 0x3F#6] →
    spec.extractLsb' 0 8 = spec'.extractLsb' 0 8 →
    decodeOperand m (adr :: spec :: ws) = decodeOperand m (adr :: spec' :: ws))

/-- With two register operands the "ea, r" and the "r, ea" form compute the same state, and under the default cycle
tables in the same cycles (R117). -/
def Obligations.RegisterFormsAgree : Prop :=
  ∀ (q r : Reg) (s : State) (p : Instr × Instr),
    p ∈ [(.movEaR (.reg q) r, .movREa q (.reg r)), (.addEaR (.reg q) r, .addREa q (.reg r)),
      (.adcEaR (.reg q) r, .adcREa q (.reg r)), (.subEaR (.reg q) r, .subREa q (.reg r)),
      (.sbcEaR (.reg q) r, .sbcREa q (.reg r)), (.andEaR (.reg q) r, .andREa q (.reg r)),
      (.orEaR (.reg q) r, .orREa q (.reg r)), (.xorEaR (.reg q) r, .xorREa q (.reg r)),
      (.shlEaR (.reg q) r, .shlREa q (.reg r)), (.shrEaR (.reg q) r, .shrREa q (.reg r)),
      (.asrEaR (.reg q) r, .asrREa q (.reg r)), (.mulEaR (.reg q) r, .mulREa q (.reg r)),
      (.mlsEaR (.reg q) r, .mlsREa q (.reg r)), (.divEaR (.reg q) r, .divREa q (.reg r)),
      (.dvsEaR (.reg q) r, .dvsREa q (.reg r)), (.modEaR (.reg q) r, .modREa q (.reg r)),
      (.mdsEaR (.reg q) r, .mdsREa q (.reg r))] →
    ∃ t u, exec p.1 s = .next t ∧ exec p.2 s = .next u ∧ u = { t with cost := u.cost } ∧
      (s.params.cycBase = defaultParams.cycBase → s.params.cycMode = defaultParams.cycMode → u = t)

/-- What the assembler's operand selection and pseudo-instructions come to when executed (R117, R118). -/
def Obligations.PseudoInstructions : Prop :=
  (∀ (k : Int) (rmw : Bool) (s : State), (resolve (asmImmediate k) rmw s).value = BitVec.ofInt 16 k ∧
    ((asmImmediate k).words = 0 ↔ 0 ≤ k ∧ k ≤ 15) ∧
    s.stackAddress (asmStack k) = some (s.bp + BitVec.ofInt 16 k) ∧
    ((asmStack k).words = 0 ↔ 0 ≤ k ∧ k ≤ 15)) ∧
  (∀ (s : State) (t : Word), ∃ u, exec (asmJmp t) s = .next u ∧ u.pc = t) ∧
  (∀ (s : State) (t : Word), ∃ u, exec (asmBra s.pc t) s = .next u ∧ u.pc = t) ∧
  (∀ (s : State) (t : Word) (ps : List Operand), ∃ u, exec (asmCall t ps) s = .next u ∧ u.pc = t) ∧
  asmRet = .rfn ∧
  (∀ s : State, ∃ u, exec asmSkip s = .next u ∧
    u.pc = s.pc + 1 + BitVec.ofNat 16 (instrLen s (s.pc + 1))) ∧
  (∀ (s : State) (x : Reg), ∃ u, exec (asmInc x) s = .next u ∧ u.reg x = s.reg x + 1 ∧
    (x ≠ .c → u.reg .c = if s.reg x = 0xFFFF then 1 else 0)) ∧
  (∀ (s : State) (x : Reg), ∃ u, exec (asmDec x) s = .next u ∧ u.reg x = s.reg x - 1 ∧
    (x ≠ .c → u.reg .c = if s.reg x = 0 then 1 else 0)) ∧
  (∀ (s : State) (x : Reg), ∃ u, exec (asmClr x) s = .next u ∧ u.reg x = 0 ∧ ∀ q, q ≠ x → u.reg q = s.reg q)

/-! ### Operands -/

/-- The pointer sub-mode table, from its formulas (R105). -/
def Obligations.SubModeTable : Prop :=
  ∀ x : BitVec 4,
    let w := match (x.extractLsb' 1 3).toNat with | 1 => 8 | 2 => 4 | 3 => 2 | 4 => 1 | _ => 16
    (subMode x).width = w ∧ (subMode x).dmask = BitVec.ofNat 16 (2 ^ w - 1) ∧
      (subMode x).fmask = BitVec.ofNat 4 (16 - w) ∧ 2 ^ (subMode x).ish = w ∧ (subMode x).inc = x.getLsbD 0

/-- Immediates and register-direct operands (R142, R144, R148). -/
def Obligations.ImmediateAndRegisterOperands : Prop :=
  ∀ (rmw : Bool) (s : State),
    (∀ k, (resolve (.imm4 k) rmw s).value = k.zeroExtend 16 ∧ (resolve (.imm4 k) rmw s).wb = .none ∧
      (resolve (.imm4 k) rmw s).after = s) ∧
    (∀ r, (resolve (.reg r) rmw s).value = s.reg r ∧ (resolve (.reg r) rmw s).wb = .reg r ∧
      (resolve (.reg r) rmw s).after = s) ∧
    (∀ v, (resolve (.imm16 v) rmw s).value = v ∧ (resolve (.imm16 v) rmw s).wb = .none ∧
      (resolve (.imm16 v) rmw s).after = s)

/-- The three stack-addressed modes: the address, the checked read, and STACK outside the window
(R143, R147, R149). -/
def Obligations.StackOperands : Prop :=
  ∀ (k : BitVec 4) (n : Ptr) (off : Word) (rmw : Bool) (s : State) (p : Operand × Word),
    p ∈ [(.stack4 k, s.bp + k.zeroExtend 16), (.stackIdx n, s.bp + s.reg n.toReg), (.stack16 off, s.bp + off)] →
    (resolve p.1 rmw s).wb = .stack p.2 ∧
    (s.sbot ≤ p.2 ∧ p.2 < s.stop →
      (resolve p.1 rmw s).value = s.ramAt p.2 ∧ (resolve p.1 rmw s).after = s) ∧
    (¬(s.sbot ≤ p.2 ∧ p.2 < s.stop) →
      (resolve p.1 rmw s).value = 0 ∧ (resolve p.1 rmw s).after = { s with hcr := s.hcr ||| 0x0008 })

/-- The absolute modes, whole-word and bit-addressed (R150, R151). -/
def Obligations.AbsoluteOperands : Prop :=
  ∀ (adr : Word) (x f : BitVec 4) (rmw : Bool) (s : State),
    let d := s.dRead adr rmw
    let w := (subMode x).width
    let dm := (subMode x).dmask
    let fr := (f &&& (subMode x).fmask).toNat
    ((resolve (.abs adr) rmw s).value = d.1 ∧ (resolve (.abs adr) rmw s).wb = .data adr ∧
      (resolve (.abs adr) rmw s).after = d.2) ∧
    ((resolve (.absBit .msbFirst adr x f) rmw s).value = (d.1 >>> (16 - w - fr)) &&& dm ∧
      (resolve (.absBit .msbFirst adr x f) rmw s).wb = .sub adr d.1 (16 - w - fr) dm ∧
      (resolve (.absBit .msbFirst adr x f) rmw s).after = d.2) ∧
    ((resolve (.absBit .lsbFirst adr x f) rmw s).value = (d.1 >>> fr) &&& dm ∧
      (resolve (.absBit .lsbFirst adr x f) rmw s).wb = .sub adr d.1 fr dm ∧
      (resolve (.absBit .lsbFirst adr x f) rmw s).after = d.2)

/-- The pointer modes: the element read, and the post-increment of the 20-bit bit address in Xn and its nibble of
XB (R146). -/
def Obligations.PointerOperands : Prop :=
  ∀ (order : ElemOrder) (n : Ptr) (rmw : Bool) (s : State),
    let v := resolve (.ptr order n) rmw s
    let sm := subMode (s.xm.extractLsb' (4 * n.code.toNat) 4)
    let f := (s.xb.extractLsb' (4 * n.code.toNat) 4 &&& sm.fmask).toNat
    let a := s.reg n.toReg
    let d := s.dRead a rmw
    let sh := if order = .msbFirst then 16 - sm.width - f else f
    let b := (a.toNat * 16 + f + 2 ^ sm.ish) % 2 ^ 20
    v.value = (d.1 >>> sh) &&& sm.dmask ∧ v.wb = .sub a d.1 sh sm.dmask ∧
    (sm.inc = false → v.after = d.2) ∧
    (sm.inc = true →
      (v.after.reg n.toReg).toNat = b / 16 ∧
      (v.after.xb.extractLsb' (4 * n.code.toNat) 4).toNat = b % 16 ∧
      (∀ q, q ≠ n.toReg → v.after.reg q = s.reg q) ∧
      (∀ k : Ptr, k ≠ n → nibble v.after.xb k = nibble s.xb k) ∧
      v.after = { d.2 with gpr := v.after.gpr, xb := v.after.xb })

/-- An element fits in its word; after a merge the element reads back the value, masked, and every bit outside the
element is kept; a 16-bit element is the whole word (R145). -/
def Obligations.ElementMerge : Prop :=
  ∀ (x f0 : BitVec 4) (order : ElemOrder) (W v : Word),
    let sm := subMode x
    let sh := elemShift sm.width (f0 &&& sm.fmask) order
    sh + sm.width ≤ 16 ∧ extractElem (mergeElem W sh sm.dmask v) sh sm.dmask = v &&& sm.dmask ∧
    (∀ i, i < sh ∨ sh + sm.width ≤ i → (mergeElem W sh sm.dmask v).getLsbD i = W.getLsbD i) ∧
    (sm.width = 16 → extractElem W sh sm.dmask = W ∧ mergeElem W sh sm.dmask v = v)

/-- What resolving an operand leaves unchanged: everything but a pointer base with its nibble of XB, STACK in HCR,
and the EXT group it reads. Outside EXT cells the rmw flag makes no difference (R80, R141, R161). -/
def Obligations.ResolvingFrame : Prop :=
  ∀ (ea : Operand) (rmw : Bool) (s : State),
    let t := (resolve ea rmw s).after
    (∀ q, incBase ea ≠ some q → t.reg q = s.reg q) ∧
    (∀ n : Ptr, incBase ea ≠ some n.toReg → nibble t.xb n = nibble s.xb n) ∧
    t.hcr = s.hcrAfter ea ∧ (∀ k, s.extGroup ea ≠ some k → t.extState k = s.extState k) ∧
    (∀ a, t.ramAt a = s.ramAt a) ∧ t.cells = s.cells ∧ t.laneA = s.laneA ∧ t.laneB = s.laneB ∧ t.pmem = s.pmem ∧
    t.stall = s.stall ∧ t.slots = s.slots ∧ t.kernel = s.kernel ∧ t.xm = s.xm ∧ t.pc = s.pc ∧ t.sp = s.sp ∧
    t.bp = s.bp ∧ SameFixed s t ∧
    (s.extGroup ea = none → resolve ea true s = resolve ea false s)

/-! ### Memory, the bus and the lanes -/

/-- Checked stack reads and writes, inside and outside the window, and `Push` (R66, R67, R68). -/
def Obligations.StackWindow : Prop :=
  ∀ (s : State) (a v : Word),
    (s.sbot ≤ a ∧ a < s.stop →
      s.sRead a = (s.ramAt a, s) ∧ s.sWrite a v = { s with ram := (s.sWrite a v).ram } ∧
      ∀ b, (s.sWrite a v).ramAt b = if b = a then v else s.ramAt b) ∧
    (¬(s.sbot ≤ a ∧ a < s.stop) →
      s.sRead a = (0, { s with hcr := s.hcr ||| 0x0008 }) ∧ s.sWrite a v = { s with hcr := s.hcr ||| 0x0008 }) ∧
    s.push v = { s.sWrite s.sp v with sp := s.sp + 1 }

/-- The data-space router (R63, R64). -/
def Obligations.DataRouter : Prop :=
  ∀ (s : State) (a v : Word) (rmw : Bool),
    (a < 0xFC00 → s.dRead a rmw = (s.ramAt a, s) ∧ s.dWrite a v = { s with ram := (s.dWrite a v).ram } ∧
      ∀ b, (s.dWrite a v).ramAt b = if b = a then v else s.ramAt b) ∧
    (0xFC00 ≤ a → s.dRead a rmw = s.busRead (a.toNat - 0xFC00) rmw ∧ s.dWrite a v = s.busWrite (a.toNat - 0xFC00) v)

/-- A registration takes the cells it covers from those made before it, and cells outside the bus or without a
registration are NULL. At start-up a registration joins the table, and the cells that are of kind STORE after it keep
their words while the others have none; after the first `run` call has begun it is turned away (R70, R51). Two
clauses are the model's choice: that a late registration is turned away and changes nothing (log 15), and which cells
keep their words at a registration (read from R51 by inference, log 24). -/
def Obligations.HandlerTable : Prop :=
  (∀ (table : List Registration) (g : Registration) (c : Nat),
    cellKind (table ++ [g]) c =
      if g.base ≤ c ∧ c < g.base + g.length ∧ c < 1024 then g.kind else cellKind table c) ∧
  (∀ c, cellKind [] c = .null) ∧ (∀ (table : List Registration) (c : Nat), 1024 ≤ c → cellKind table c = .null) ∧
  (∀ (s : State) (base length : Nat) (kind : CellKind),
    let t := s.hostCall (.registerHandlers base length kind)
    (s.started = false → t = { s with busMap := s.busMap ++ [⟨base, length, kind⟩], cells := t.cells, reply := .done } ∧
      ∀ c, t.cells.read c = if cellKind t.busMap c = .store then s.cells.read c else 0) ∧
    (s.started = true → t = { s with reply := .rejected .tableFixed }))

/-- Bus reads and writes by handler kind (R71, R72, R82). -/
def Obligations.BusAccess : Prop :=
  ∀ (s : State) (c : Nat) (v : Word) (rmw : Bool),
    (1024 ≤ c → s.busRead c rmw = (0, s) ∧ s.busWrite c v = s) ∧
    match cellKind s.busMap c with
    | .null => s.busRead c rmw = (0, s) ∧ s.busWrite c v = s
    | .store => s.busRead c rmw = (s.cells.read c, s) ∧
        s.busWrite c v = { s with cells := (s.busWrite c v).cells } ∧
        ∀ d, (s.busWrite c v).cells.read d = if d = c then v else s.cells.read d
    | .fifoAdr .laneA => s.busRead c rmw = (0, s) ∧ s.busWrite c v = { s with laneA := { s.laneA with latch := v } }
    | .fifoAdr .laneB => s.busRead c rmw = (0, s) ∧ s.busWrite c v = { s with laneB := { s.laneB with latch := v } }
    | .fifoDat l => s.busRead c rmw = (0, s) ∧ s.busWrite c v = s.fifoData l v
    | .ext k =>
        (s.busRead c rmw).1 = (extRead k c rmw (s.extState k) s.tick).1 ∧
        (s.busRead c rmw).2.extState k = (extRead k c rmw (s.extState k) s.tick).2 ∧
        (s.busRead c rmw).2 = { s with ext := (s.busRead c rmw).2.ext, tick := s.tick + 1 } ∧
        (s.busWrite c v).extState k = extWrite k c v (s.extState k) s.tick ∧
        s.busWrite c v = { s with ext := (s.busWrite c v).ext, tick := s.tick + 1 } ∧
        ∀ j, j ≠ k → (s.busRead c rmw).2.extState j = s.extState j ∧ (s.busWrite c v).extState j = s.extState j

/-- Debug access to the bus: a get answers and changes nothing, a set never queues and never triggers a coprocessor
(R73, R74). -/
def Obligations.BusDebugAccess : Prop :=
  ∀ (s : State) (c : Nat) (v : Word),
    s.hostCall (.busGet c) = { s with reply := .word (s.busGet c) } ∧
    s.hostCall (.busSet c v) = { s.busSet c v with reply := .done } ∧
    (1024 ≤ c → s.busGet c = 0 ∧ s.busSet c v = s) ∧
    match cellKind s.busMap c with
    | .null | .fifoDat _ => s.busGet c = 0 ∧ s.busSet c v = s
    | .store => s.busGet c = s.cells.read c ∧ s.busSet c v = { s with cells := (s.busSet c v).cells } ∧
        ∀ d, (s.busSet c v).cells.read d = if d = c then v else s.cells.read d
    | .fifoAdr .laneA => s.busGet c = s.laneA.latch ∧ s.busSet c v = { s with laneA := { s.laneA with latch := v } }
    | .fifoAdr .laneB => s.busGet c = s.laneB.latch ∧ s.busSet c v = { s with laneB := { s.laneB with latch := v } }
    | .ext k => s.busGet c = extGet k c (s.extState k) ∧
        (s.busSet c v).extState k = extSet k c v (s.extState k) ∧
        s.busSet c v = { s with ext := (s.busSet c v).ext } ∧
        ∀ j, j ≠ k → (s.busSet c v).extState j = s.extState j

/-- A FIFO data write bypasses an idle lane, joins the ring with a stall charge, or is dropped with FAULT and the
stall charge (R83, R84, R85). -/
def Obligations.FifoDataWrite : Prop :=
  ∀ (s : State) (l other : LaneId) (v : Word), other ≠ l →
    let x := s.lane l
    let t := s.fifoData l v
    let w : BitVec 32 := BitVec.ofNat 32 (x.latch.toNat * 2 ^ 16 + v.toNat)
    (x.ring = [] ∧ x.busy = 0 → t = s.copWrite l w ∧ t.stall = s.stall ∧ t.hcr = s.hcr) ∧
    (¬(x.ring = [] ∧ x.busy = 0) → x.ring.length < s.params.fifoDepth →
      t.lane l = { x with ring := x.ring ++ [w] } ∧ t.lane other = s.lane other ∧
      t = { s with laneA := t.laneA, laneB := t.laneB, stall := s.stall + s.params.fifoStall }) ∧
    (¬(x.ring = [] ∧ x.busy = 0) → s.params.fifoDepth ≤ x.ring.length →
      t = { s with hcr := s.hcr ||| 0x0010, stall := s.stall + s.params.fifoStall })

/-- A coprocessor write stores its low word in the register its high word selects; a write to the trigger register
runs the lane's execute function, which sets only the lane's busy counter, its register file and peripheral memory
(R87, R347; the answer's register file is taken in canonical form, log 6). -/
def Obligations.CoprocessorWrite : Prop :=
  ∀ (s : State) (l : LaneId) (w : BitVec 32),
    let x := s.lane l
    let t := s.copWrite l w
    let idx := (w.extractLsb' 16 16).toNat &&& (2 ^ s.params.copRegsLog - 1)
    let regs := x.regs.write idx (w.extractLsb' 0 16)
    let r := match l with | .laneA => execA regs s.pmem | .laneB => execB regs s.pmem
    (∀ j, regs.read j = if j = idx then w.extractLsb' 0 16 else x.regs.read j) ∧
    (idx ≠ s.params.copTrigger → t = s.setLane l { x with regs := regs }) ∧
    (idx = s.params.copTrigger →
      t.lane l = { x with busy := r.cycles, regs := Memory.canonical (2 ^ s.params.copRegsLog) r.regs } ∧
      t.pmem = r.pmem ∧ t = { s.setLane l (t.lane l) with pmem := t.pmem })

/-- A memory in canonical form keeps it at every write and reads back what was written, and two memories that read
alike are one (log 1). -/
def Obligations.MemoryLaws : Prop :=
  ∀ (bound : Nat) (m : Memory), m.wf bound →
    (∀ a v, a < bound → (m.write a v).wf bound ∧ ∀ b, (m.write a v).read b = if b = a then v else m.read b) ∧
    (∀ m' : Memory, m'.wf bound → (∀ a, m'.read a = m.read a) → m' = m)

/-! ### Data movement -/

/-- NOP moves pc past its word, whatever it holds, and changes nothing else (R201). -/
def Obligations.NopResult : Prop :=
  ∀ s : State, exec .nop s =
    .next { s with pc := s.pc + 1, cost := s.params.cycBase[0] + s.stall, stall := 0 }

/-- `MOV r, ea` (R203). -/
def Obligations.MoveIntoRegister : Prop :=
  ∀ (r : Reg) (ea : Operand) (s : State),
    ∃ t, exec (.movREa r ea) s = .next t ∧ RegResult s t 0x02#7 r ea (resolve ea false s).value none

/-- The stores `MOV ea, r`, `MOV ea, SP`, `MOV ea, XM`, `MOV ea, XB` and `MOV ea, BP`: the source is read after the
operand is resolved (R202, R206, R208, R210, R211). -/
def Obligations.MoveIntoOperand : Prop :=
  ∀ (r : Reg) (ea : Operand) (s : State),
    let u := (resolve ea true s).after
    (∃ t, exec (.movEaR ea r) s = .next t ∧ EaResult s t 0x01#7 ea (u.reg r) none) ∧
    (∃ t, exec (.movEaSp ea) s = .next t ∧ EaResult s t 0x35#7 ea s.sp none) ∧
    (∃ t, exec (.movEaXm ea) s = .next t ∧ EaResult s t 0x37#7 ea s.xm none) ∧
    (∃ t, exec (.movEaXb ea) s = .next t ∧ EaResult s t 0x39#7 ea u.xb none) ∧
    (∃ t, exec (.movEaBp ea) s = .next t ∧ EaResult s t 0x3A#7 ea s.bp none)

/-- The loads of SP, XM and XB: no general register changes but a pointer base of the operand, and no other special
register but the operand's own nibble of XB (R205, R207, R209). -/
def Obligations.SpecialRegisterLoads : Prop :=
  ∀ (ea : Operand) (s : State),
    let v := resolve ea false s
    (∃ t, exec (.movSpEa ea) s = .next t ∧ t.sp = v.value ∧ t.xm = s.xm ∧ t.bp = s.bp ∧ t.xb = v.after.xb ∧
      (∀ n : Ptr, incBase ea ≠ some n.toReg → nibble t.xb n = nibble s.xb n) ∧
      ReadFrame s t ea [] ∧ Falls s t 0x34#7 ea) ∧
    (∃ t, exec (.movXmEa ea) s = .next t ∧ t.xm = v.value ∧ t.sp = s.sp ∧ t.bp = s.bp ∧ t.xb = v.after.xb ∧
      (∀ n : Ptr, incBase ea ≠ some n.toReg → nibble t.xb n = nibble s.xb n) ∧
      ReadFrame s t ea [] ∧ Falls s t 0x36#7 ea) ∧
    (∃ t, exec (.movXbEa ea) s = .next t ∧ t.xb = v.value ∧ t.sp = s.sp ∧ t.bp = s.bp ∧ t.xm = s.xm ∧
      ReadFrame s t ea [] ∧ Falls s t 0x38#7 ea)

/-- `XCH r, ea`: the operand receives the register, and then the register the operand's old value (R204). -/
def Obligations.ExchangeResult : Prop :=
  ∀ (r : Reg) (ea : Operand) (s : State),
    let v := resolve ea true s
    ∃ t, exec (.xch r ea) s = .next t ∧ t.reg r = v.value ∧ (∀ q, ea = .reg q → q ≠ r → t.reg q = v.after.reg r) ∧
      Stored s t 0x03#7 ea (v.after.reg r) ∧ WriteFrame s t ea [r] ∧ SameSpecial s t ea true

/-! ### Arithmetic, logic and shifts -/

/-- ADD, ADC, SUB and SBC into a register: the sum or difference modulo 2^16, C the carry or borrow, the carry-in
bit 0 of C (R222, R224, R226, R228). -/
def Obligations.AddSubIntoRegister : Prop :=
  ∀ (r : Reg) (ea : Operand) (s : State),
    let v := resolve ea false s
    let a := v.after.reg r
    let b := v.value
    let cin := v.after.reg .c &&& 1
    (∃ t, exec (.addREa r ea) s = .next t ∧
      RegResult s t 0x05#7 r ea (a + b) (some (if 2 ^ 16 ≤ a.toNat + b.toNat then 1 else 0))) ∧
    (∃ t, exec (.adcREa r ea) s = .next t ∧
      RegResult s t 0x07#7 r ea (a + b + cin)
        (some (if 2 ^ 16 ≤ a.toNat + b.toNat + cin.toNat then 1 else 0))) ∧
    (∃ t, exec (.subREa r ea) s = .next t ∧
      RegResult s t 0x09#7 r ea (a - b) (some (if a < b then 1 else 0))) ∧
    (∃ t, exec (.sbcREa r ea) s = .next t ∧
      RegResult s t 0x0B#7 r ea (a - b - cin) (some (if a.toNat < b.toNat + cin.toNat then 1 else 0)))

/-- ADD, ADC, SUB, SBC and NEG into an operand (R221, R223, R225, R227, R229). -/
def Obligations.AddSubIntoOperand : Prop :=
  ∀ (r : Reg) (ea : Operand) (s : State),
    let v := resolve ea true s
    let a := v.value
    let b := v.after.reg r
    let cin := v.after.reg .c &&& 1
    (∃ t, exec (.addEaR ea r) s = .next t ∧
      EaResult s t 0x04#7 ea (a + b) (some (if 2 ^ 16 ≤ a.toNat + b.toNat then 1 else 0))) ∧
    (∃ t, exec (.adcEaR ea r) s = .next t ∧
      EaResult s t 0x06#7 ea (a + b + cin)
        (some (if 2 ^ 16 ≤ a.toNat + b.toNat + cin.toNat then 1 else 0))) ∧
    (∃ t, exec (.subEaR ea r) s = .next t ∧
      EaResult s t 0x08#7 ea (a - b) (some (if a < b then 1 else 0))) ∧
    (∃ t, exec (.sbcEaR ea r) s = .next t ∧
      EaResult s t 0x0A#7 ea (a - b - cin) (some (if a.toNat < b.toNat + cin.toNat then 1 else 0))) ∧
    (∃ t, exec (.neg ea) s = .next t ∧
      EaResult s t 0x25#7 ea (-a) (some (if a = 0 then 0 else 1)))

/-- MUL, MLS, DIV, DVS, MOD and MDS into a register: C receives the high word of a product and is otherwise not
written, and a zero divisor gives 0 (R231, R233, R234, R236, R238, R240, R242). -/
def Obligations.MulDivIntoRegister : Prop :=
  ∀ (r : Reg) (ea : Operand) (s : State),
    let v := resolve ea false s
    let a := v.after.reg r
    let b := v.value
    let p := a.zeroExtend 32 * b.zeroExtend 32
    let sp := a.signExtend 32 * b.signExtend 32
    (∃ t, exec (.mulREa r ea) s = .next t ∧
      RegResult s t 0x19#7 r ea (p.extractLsb' 0 16) (some (p.extractLsb' 16 16))) ∧
    (∃ t, exec (.mlsREa r ea) s = .next t ∧
      RegResult s t 0x1B#7 r ea (sp.extractLsb' 0 16) (some (sp.extractLsb' 16 16))) ∧
    (∃ t, exec (.divREa r ea) s = .next t ∧ RegResult s t 0x1D#7 r ea (if b = 0 then 0 else a / b) none) ∧
    (∃ t, exec (.dvsREa r ea) s = .next t ∧ RegResult s t 0x1F#7 r ea (if b = 0 then 0 else a.sdiv b) none) ∧
    (∃ t, exec (.modREa r ea) s = .next t ∧ RegResult s t 0x21#7 r ea (if b = 0 then 0 else a % b) none) ∧
    (∃ t, exec (.mdsREa r ea) s = .next t ∧ RegResult s t 0x23#7 r ea (if b = 0 then 0 else a.srem b) none)

/-- MUL, MLS, DIV, DVS, MOD and MDS into an operand (R230, R232, R234, R235, R237, R239, R241). -/
def Obligations.MulDivIntoOperand : Prop :=
  ∀ (r : Reg) (ea : Operand) (s : State),
    let v := resolve ea true s
    let a := v.value
    let b := v.after.reg r
    let p := a.zeroExtend 32 * b.zeroExtend 32
    let sp := a.signExtend 32 * b.signExtend 32
    (∃ t, exec (.mulEaR ea r) s = .next t ∧
      EaResult s t 0x18#7 ea (p.extractLsb' 0 16) (some (p.extractLsb' 16 16))) ∧
    (∃ t, exec (.mlsEaR ea r) s = .next t ∧
      EaResult s t 0x1A#7 ea (sp.extractLsb' 0 16) (some (sp.extractLsb' 16 16))) ∧
    (∃ t, exec (.divEaR ea r) s = .next t ∧ EaResult s t 0x1C#7 ea (if b = 0 then 0 else a / b) none) ∧
    (∃ t, exec (.dvsEaR ea r) s = .next t ∧ EaResult s t 0x1E#7 ea (if b = 0 then 0 else a.sdiv b) none) ∧
    (∃ t, exec (.modEaR ea r) s = .next t ∧ EaResult s t 0x20#7 ea (if b = 0 then 0 else a % b) none) ∧
    (∃ t, exec (.mdsEaR ea r) s = .next t ∧ EaResult s t 0x22#7 ea (if b = 0 then 0 else a.srem b) none)

/-- AND, OR and XOR into a register, bit by bit; C is not written (R252, R254, R256). -/
def Obligations.LogicIntoRegister : Prop :=
  ∀ (r : Reg) (ea : Operand) (s : State),
    let v := resolve ea false s
    let a := v.after.reg r
    let b := v.value
    (∃ t, exec (.andREa r ea) s = .next t ∧ RegResult s t 0x0D#7 r ea (a &&& b) none) ∧
    (∃ t, exec (.orREa r ea) s = .next t ∧ RegResult s t 0x0F#7 r ea (a ||| b) none) ∧
    (∃ t, exec (.xorREa r ea) s = .next t ∧ RegResult s t 0x11#7 r ea (a ^^^ b) none)

/-- AND, OR, XOR and NOT into an operand (R251, R253, R255, R257). -/
def Obligations.LogicIntoOperand : Prop :=
  ∀ (r : Reg) (ea : Operand) (s : State),
    let v := resolve ea true s
    let a := v.value
    let b := v.after.reg r
    (∃ t, exec (.andEaR ea r) s = .next t ∧ EaResult s t 0x0C#7 ea (a &&& b) none) ∧
    (∃ t, exec (.orEaR ea r) s = .next t ∧ EaResult s t 0x0E#7 ea (a ||| b) none) ∧
    (∃ t, exec (.xorEaR ea r) s = .next t ∧ EaResult s t 0x10#7 ea (a ^^^ b) none) ∧
    (∃ t, exec (.not ea) s = .next t ∧ EaResult s t 0x24#7 ea (~~~a) none)

/-- SHL, SHR and ASR into a register: a shift of a 32-bit double word by the full 16-bit count, C receiving the half
that is not the result (R259, R261, R263). -/
def Obligations.ShiftIntoRegister : Prop :=
  ∀ (r : Reg) (ea : Operand) (s : State),
    let v := resolve ea false s
    let a := v.after.reg r
    let n := v.value.toNat
    let l := a.zeroExtend 32 <<< n
    let h := (a ++ 0#16) >>> n
    let g := (a ++ 0#16).sshiftRight n
    (∃ t, exec (.shlREa r ea) s = .next t ∧
      RegResult s t 0x13#7 r ea (l.extractLsb' 0 16) (some (l.extractLsb' 16 16))) ∧
    (∃ t, exec (.shrREa r ea) s = .next t ∧
      RegResult s t 0x15#7 r ea (h.extractLsb' 16 16) (some (h.extractLsb' 0 16))) ∧
    (∃ t, exec (.asrREa r ea) s = .next t ∧
      RegResult s t 0x17#7 r ea (g.extractLsb' 16 16) (some (g.extractLsb' 0 16)))

/-- SHL, SHR and ASR into an operand (R258, R260, R262). -/
def Obligations.ShiftIntoOperand : Prop :=
  ∀ (r : Reg) (ea : Operand) (s : State),
    let v := resolve ea true s
    let a := v.value
    let n := (v.after.reg r).toNat
    let l := a.zeroExtend 32 <<< n
    let h := (a ++ 0#16) >>> n
    let g := (a ++ 0#16).sshiftRight n
    (∃ t, exec (.shlEaR ea r) s = .next t ∧
      EaResult s t 0x12#7 ea (l.extractLsb' 0 16) (some (l.extractLsb' 16 16))) ∧
    (∃ t, exec (.shrEaR ea r) s = .next t ∧
      EaResult s t 0x14#7 ea (h.extractLsb' 16 16) (some (h.extractLsb' 0 16))) ∧
    (∃ t, exec (.asrEaR ea r) s = .next t ∧
      EaResult s t 0x16#7 ea (g.extractLsb' 16 16) (some (g.extractLsb' 0 16)))

/-! ### Skips and control flow -/

/-- The eight skips: when the condition holds pc goes past the whole next instruction at the cost of CYC_SKIP, else
to it; nothing else changes but what resolving the operand does (R270 to R279). -/
def Obligations.SkipResult : Prop :=
  ∀ (r : Reg) (ea : Operand) (s : State) (p : Instr × BitVec 7 × Bool),
    let v := resolve ea false s
    let a := v.after.reg r
    let b := v.value
    p ∈ [(.xeq r ea, 0x26#7, decide (a = b)), (.xne r ea, 0x27#7, decide (a ≠ b)),
      (.xug r ea, 0x28#7, decide (b < a)), (.xul r ea, 0x29#7, decide (a < b)),
      (.xsg r ea, 0x2A#7, b.slt a), (.xsl r ea, 0x2B#7, a.slt b),
      (.xbs r ea, 0x2C#7, decide (a &&& b ≠ 0)), (.xbc r ea, 0x2D#7, decide (a &&& b = 0))] →
    let n1 := s.pc + 1 + BitVec.ofNat 16 ea.words
    let cost := s.params.cycBase[p.2.1.toNat]'p.2.1.isLt + s.params.cycMode[ea.mode.toNat]'ea.mode.isLt + s.stall
    ∃ t, exec p.1 s = .next t ∧ ReadFrame s t ea [] ∧ SameSpecial s t ea false ∧
      (p.2.2 = true → t.pc = n1 + BitVec.ofNat 16 (instrLen s n1) ∧ t.cost = cost + s.params.cycSkip) ∧
      (p.2.2 = false → t.pc = n1 ∧ t.cost = cost)

/-- The jumps: relative to the instruction word, and absolute (R295, R296). -/
def Obligations.JumpResult : Prop :=
  ∀ (ea : Operand) (s : State),
    let v := resolve ea false s
    let cyc := s.params.cycMode[ea.mode.toNat]'ea.mode.isLt
    (∃ t, exec (.jmr ea) s = .next t ∧ t.pc = s.pc + v.value ∧ t.cost = s.params.cycBase[0x2E] + cyc + s.stall ∧
      ReadFrame s t ea [] ∧ SameSpecial s t ea false) ∧
    (∃ t, exec (.jma ea) s = .next t ∧ t.pc = v.value ∧ t.cost = s.params.cycBase[0x2F] + cyc + s.stall ∧
      ReadFrame s t ea [] ∧ SameSpecial s t ea false)

/-- The calls JFR and JFA: the frame of R291 where the window admits each push and RAM as it was where it does not,
the parameters evaluated in order in the caller's frame, each in the registers the operands before it left, the new BP
and SP whether or not a push faulted, STACK exactly when a push or an operand's read is outside the window, the cost,
and the frame of everything else (R290 to R293). -/
def Obligations.CallFrame : Prop :=
  ∀ (ea : Operand) (ps : List Operand) (s : State), ps.length ≤ 7 →
    let v := resolve ea false s
    let s0 := v.after.sWrite s.sp s.bp
    let slot := fun k : Nat => s.sp + BitVec.ofNat 16 k
    let before := fun i : Nat => (pushParams (ps.take i) (s.sp + 2) s0).2
    let arg := fun (i : Nat) (h : i < ps.length) => resolve ps[i] false (before i)
    let stacked := (∃ k, k < 2 + ps.length ∧ s.inWindow (slot k) = false) ∨ s.readFaults ea ∨
      ∃ (i : Nat) (h : i < ps.length), (before i).readFaults ps[i]
    ∀ p ∈ [((.jfr ea ps : Instr), s.pc + v.value, s.params.cycBase[0x30]),
        (.jfa ea ps, v.value, s.params.cycBase[0x31])],
    ∃ t, exec p.1 s = .next t ∧ t.pc = p.2.1 ∧ t.bp = s.sp + 2 ∧ t.sp = slot (2 + ps.length) ∧
      (s.inWindow (slot 0) = true → t.ramAt (slot 0) = s.bp) ∧
      (s.inWindow (slot 1) = true → t.ramAt (slot 1) = s.pc + BitVec.ofNat 16 (1 + ea.words + paramsWords ps)) ∧
      (∀ i (h : i < ps.length), s.inWindow (slot (2 + i)) = true → t.ramAt (slot (2 + i)) = (arg i h).value) ∧
      (∀ k, k < 2 + ps.length → s.inWindow (slot k) = false → t.ramAt (slot k) = s.ramAt (slot k)) ∧
      (∀ a, (∀ k, k < 2 + ps.length → a ≠ slot k) → t.ramAt a = s.ramAt a) ∧
      (∀ i (_ : i < ps.length), (before i).bp = s.bp) ∧
      (before 0).gpr = v.after.gpr ∧ (before 0).xb = v.after.xb ∧
      (∀ i (h : i < ps.length), (before (i + 1)).gpr = (arg i h).after.gpr ∧ (before (i + 1)).xb = (arg i h).after.xb) ∧
      t.gpr = (before ps.length).gpr ∧ t.xb = (before ps.length).xb ∧ t.ext = (before ps.length).ext ∧
      (stacked → t.hcr = s.hcr ||| 0x0008) ∧ (¬stacked → t.hcr = s.hcr) ∧
      t.cost = p.2.2 + s.params.cycMode[ea.mode.toNat]'ea.mode.isLt +
        (ps.map fun o => s.params.cycParam + s.params.cycMode[o.mode.toNat]'o.mode.isLt).sum + s.stall ∧
      (∀ q, (∀ o ∈ ea :: ps, incBase o ≠ some q) → t.reg q = s.reg q) ∧
      (∀ n : Ptr, (∀ o ∈ ea :: ps, incBase o ≠ some n.toReg) → nibble t.xb n = nibble s.xb n) ∧
      t.xm = s.xm ∧ t.cells = s.cells ∧ t.laneA = s.laneA ∧ t.laneB = s.laneB ∧ t.pmem = s.pmem ∧
      t.slots = s.slots ∧ t.kernel = s.kernel ∧ t.stall = 0 ∧ SameFixed s t

/-- `RFN`: EXIT from the outermost frame with nothing else changed; else the return, with a slot outside the window
read as 0 and raising STACK (R294). -/
def Obligations.ReturnResult : Prop :=
  ∀ s : State,
    let cost := s.params.cycBase[0x32] + s.stall
    let ok := fun a : Word => s.sbot ≤ a ∧ a < s.stop
    (s.bp ≤ s.sbot → exec .rfn s = .next { s with hcr := s.hcr ||| 0x0001, cost := cost, stall := 0 }) ∧
    (s.sbot < s.bp → ∃ t, exec .rfn s = .next t ∧ t.sp = s.bp - 2 ∧
      (ok (s.bp - 1) → t.pc = s.ramAt (s.bp - 1)) ∧ (¬ok (s.bp - 1) → t.pc = 0) ∧
      (ok (s.bp - 2) → t.bp = s.ramAt (s.bp - 2)) ∧ (¬ok (s.bp - 2) → t.bp = 0) ∧
      (ok (s.bp - 1) ∧ ok (s.bp - 2) → t.hcr = s.hcr) ∧
      (¬(ok (s.bp - 1) ∧ ok (s.bp - 2)) → t.hcr = s.hcr ||| 0x0008) ∧
      t = { s with pc := t.pc, sp := t.sp, bp := t.bp, hcr := t.hcr, cost := cost, stall := 0 })

/-- A call whose first two pushes are inside the window, followed by RFN in any state that has kept the frame,
returns to the instruction after the call with the caller's SP and BP (R290, R291, R294). -/
def Obligations.CallThenReturn : Prop :=
  ∀ (ea : Operand) (ps : List Operand) (s : State) (i : Instr), ps.length ≤ 7 →
    s.inWindow s.sp = true → s.inWindow (s.sp + 1) = true → i ∈ [.jfr ea ps, .jfa ea ps] →
    ∃ t, exec i s = .next t ∧
      ∀ u : State, u.bp = t.bp → u.sbot = s.sbot → u.stop = s.stop → u.ramAt s.sp = t.ramAt s.sp →
        u.ramAt (s.sp + 1) = t.ramAt (s.sp + 1) →
        ∃ w, exec .rfn u = .next w ∧ w.sp = s.sp ∧ w.bp = s.bp ∧ w.pc = s.pc + BitVec.ofNat 16 i.size ∧
          w.hcr = u.hcr

/-! ### Supervisor calls and invalid opcodes -/

/-- JSV: what each call comes to, for every dispatcher. The first parameter selects the operation; an unknown selector, a
parameter count that is not exactly the operation's, and a task call with a pointer outside the data window raise INVKC
and cost nothing. Every other call writes A and C; an immediate-result call costs the operation's fixed cycles, the
others cost the dispatcher's count, and a callback or a task call raises CALLBACK; a task call queues an empty slot. The
parameters are the operands' values, left to right, each resolved in the state the operands before it left. pc passes
the whole instruction (R310, R311, R350). The model's choices are that a task answer for a slot in use is turned away,
that every valid call may change the dispatcher's own state and an invalid one does not, that an immediate-result or a
callback call of the right count is always answered (log 7), and that the slot records the parameter list (log 25). -/
def Obligations.SupervisorCall : Prop :=
  ∀ (ea : Operand) (ps : List Operand) (s : State),
    exec (.jsv ea ps) s = .next (supervisorCall kdispatch ea ps s) ∧
    (let ops := ea :: ps
     let before := fun i : Nat => (resolveAll (ops.take i) s).2
     before 0 = s ∧ ∀ (i : Nat) (h : i < ops.length),
       (resolveAll ops s).1[i]? = some (resolve ops[i] false (before i)).value ∧
       before (i + 1) = (resolve ops[i] false (before i)).after) ∧
    ∀ k : Dispatcher,
      let p := resolveAll (ea :: ps) s
      let u := p.2
      let t := supervisorCall k ea ps s
      let turnedAway := t.cost = s.stall ∧ t.hcr = u.hcr ||| 0x0004 ∧ t.gpr = u.gpr ∧ t.slots = s.slots ∧
        t.kernel = s.kernel ∧ (∀ a, t.ramAt a = s.ramAt a) ∧ t.cells = s.cells ∧ t.laneA = s.laneA ∧
        t.laneB = s.laneB ∧ t.ext = u.ext
      let answered := fun (cycles : Nat) (hi lo : Word) => t.cost = cycles + s.stall ∧ t.reg .a = lo ∧ t.reg .c = hi ∧
        ∀ q, q ≠ .a → q ≠ .c → t.reg q = u.reg q
      let valid := ∀ g ∈ taskRanges p.1, g.1 < 0xFC00 ∧ g.1 + g.2 ≤ 0xFC00
      p.1.length = ps.length + 1 ∧ t.pc = s.pc + BitVec.ofNat 16 (1 + ea.words + paramsWords ps) ∧ t.stall = 0 ∧
      t.sp = s.sp ∧ t.bp = s.bp ∧ t.xm = s.xm ∧ t.xb = u.xb ∧ t.pmem = s.pmem ∧ SameFixed s t ∧
      (∀ a, 0xFC00 ≤ a → t.ramAt a = s.ramAt a) ∧
      t.laneA = { s.laneA with latch := t.laneA.latch } ∧ t.laneB = { s.laneB with latch := t.laneB.latch } ∧
      match k.op (resolve ea false s).value with
      | none => turnedAway
      | some op =>
        (op.count ≠ ps.length + 1 → turnedAway) ∧
        (op.count = ps.length + 1 →
          match op.shape with
          | .immediate cycles =>
            let a := k.immediate p.1 u.kernelView
            answered cycles a.hi a.lo ∧ t.hcr = u.hcr ∧ t.kernel = a.effects.kernel
          | .callback =>
            let a := k.callback p.1 u.kernelView
            answered a.result.cycles a.result.hi a.result.lo ∧ t.hcr = u.hcr ||| 0x0200 ∧ t.kernel = a.effects.kernel
          | .task =>
            let a := k.task p.1 u.kernelView
            (s.slots[a.slot].status = .empty ∧ valid →
              answered a.result.cycles a.result.hi a.result.lo ∧ t.hcr = u.hcr ||| 0x0200 ∧ t.kernel = a.kernel ∧
              t.slots = s.slots.set a.slot { status := .queued, dispatched := false, params := p.1 } ∧
              (∀ a, t.ramAt a = s.ramAt a) ∧ t.cells = s.cells ∧ t.laneA = s.laneA ∧ t.laneB = s.laneB) ∧
            (¬(s.slots[a.slot].status = .empty ∧ valid) → turnedAway))

/-- Every reserved class: INVOP is raised, pc stays, and nothing else changes but the cost (R312). That the cost is
CYC_BASE at each class's own entry, where R312 writes one CYC_BASE[INVOP], is the model's choice (log 18). -/
def Obligations.InvalidOpcodeResult : Prop :=
  ∀ s : State,
    exec .reserved3B s =
      .next { s with hcr := s.hcr ||| 0x0002, cost := s.params.cycBase[0x3B] + s.stall, stall := 0 } ∧
    (∀ low : BitVec 2, exec (.reserved3C low) s =
      .next { s with hcr := s.hcr ||| 0x0002, stall := 0,
                     cost := s.params.cycBase[(0xF#5 ++ low).toNat]'(0xF#5 ++ low).isLt + s.stall }) ∧
    (∀ low : BitVec 6, exec (.reserved40 low) s =
      .next { s with hcr := s.hcr ||| 0x0002, stall := 0,
                     cost := s.params.cycBase[(1#1 ++ low).toNat]'(1#1 ++ low).isLt + s.stall })

/-! ### The whole instruction set -/

/-- No instruction changes the code store, the stack window, the handler table, timers, breakpoints or parameters;
each leaves STALL at 0 and clears no halt cause; only calls and RFN change BP, those and `MOV SP` change SP, only
`MOV XM` changes XM (R25, R28, R29, R30, R42, R45, R48, R60). -/
def Obligations.InstructionsKeep : Prop :=
  ∀ (i : Instr) (s : State), ∃ t, exec i s = .next t ∧ SameFixed s t ∧ t.stall = 0 ∧ s.hcr &&& t.hcr = s.hcr ∧
    (t.bp ≠ s.bp → (∃ ea ps, i = .jfr ea ps ∨ i = .jfa ea ps) ∨ i = .rfn) ∧
    (t.sp ≠ s.sp → (∃ ea ps, i = .jfr ea ps ∨ i = .jfa ea ps) ∨ i = .rfn ∨ ∃ ea, i = .movSpEa ea) ∧
    (t.xm ≠ s.xm → ∃ ea, i = .movXmEa ea)

/-! ### The run loop -/

/-- While a `run` call executes and no breakpoint stops it, a step runs the instruction decoded at pc and then does
the run loop's bookkeeping (R140, R330, R336). -/
def Obligations.StepRunsTheDecoded : Prop :=
  ∀ (s : State) (c : RunCall) (i : Instr) (rest : List Word),
    s.call = some c → s.breakHit c = false → s.fetch = .ok (i, rest) →
    ∃ t, exec i s = .next t ∧ step s = .next (t.afterInstr c)

/-- Every step answers a next state, whatever the state: no word at pc stops the machine (R115, R320). -/
def Obligations.EveryStepAnswers : Prop :=
  ∀ s : State, ∃ t, step s = .next t

/-- Within a `run` call HCR only gains bits: an instruction keeps the causes set before it, and the causes it leaves,
or BREAK with those set before, are kept through the drains, the timers and the scheduler to the end of the step (R43). -/
def Obligations.HaltCausesOnlyAdd : Prop :=
  ∀ (s : State) (c : RunCall), s.call = some c →
    (s.breakHit c = true → ∃ u, step s = .next u ∧ (s.hcr ||| 0x0080) &&& u.hcr = s.hcr ||| 0x0080) ∧
    (s.breakHit c = false → ∀ (i : Instr) (rest : List Word), s.fetch = .ok (i, rest) →
      ∃ t u, exec i s = .next t ∧ step s = .next u ∧ s.hcr &&& t.hcr = s.hcr ∧ t.hcr &&& u.hcr = t.hcr)

/-- `run` with a blocking cause set answers 0 cycles and changes nothing; else HCR is cleared and the first pass
begins with the cycles left in the display line as its budget (R331, R332). -/
def Obligations.RunEntry : Prop :=
  ∀ (s : State) (mode : RunMode) (rest : List HostCall), s.call = none → s.host = .run mode :: rest →
    (s.hcr &&& 0x007F ≠ 0 → step s = .next { s with host := rest, reply := .cycles 0 }) ∧
    (s.hcr &&& 0x007F = 0 → step s = .next { s with
      host := rest, hcr := 0, started := true,
      call := some { mode := mode, first := true, budget := s.params.cyclesPerLine - s.timers.lcyc,
                     used := 0, total := 0 } })

/-- After an instruction: the burst goes on while no cause is set, the mode is not SINGLE and the budget is not used
up. A cause, SINGLE or a budget used up ends the burst, and the rest of the pass follows with the cycles it used: the
call returns its total, or a new pass begins (R336, R330). The instruction's registers and pc are kept and its causes
stay; a cause or SINGLE always ends the call. The surcharge lies between 0 and HK_MAX and moves only the model's
counter of free values (R340, log 10). -/
def Obligations.BurstRules : Prop :=
  ∀ (s t : State) (c : RunCall) (i : Instr) (rest : List Word),
    s.call = some c → s.breakHit c = false → s.fetch = .ok (i, rest) → exec i s = .next t →
    (t.hcr = 0 ∧ c.mode ≠ .single ∧ c.used + t.cost < c.budget →
      step s = .next { t with call := some { c with used := c.used + t.cost, first := false } }) ∧
    (t.hcr ≠ 0 ∨ c.mode = .single ∨ c.budget ≤ c.used + t.cost →
      ∃ u, step s = .next u ∧ PassResult c (c.used + t.cost) t u ∧ u.pc = t.pc ∧ u.gpr = t.gpr ∧
        u.xm = t.xm ∧ u.xb = t.xb ∧ u.sp = t.sp ∧ u.bp = t.bp ∧ t.hcr &&& u.hcr = t.hcr ∧
        (t.hcr ≠ 0 ∨ c.mode = .single → u.call = none)) ∧
    t.hkSurcharge.1 ≤ t.params.hkMax ∧ t.hkSurcharge.2 = { t with tick := t.hkSurcharge.2.tick }

/-- A breakpoint at pc, in BREAK_CHECKED mode and after the call's first instruction, stops the call before the
instruction: BREAK is set, no register and no word of data RAM changes, and the rest of the pass follows with the
cycles the burst used so far; in the other modes, for the first instruction, or with the bit clear, it does not (R337,
R330; a step of its own, log 21). -/
def Obligations.BreakpointStops : Prop :=
  (∀ (s : State) (c : RunCall), s.call = some c → c.mode = .breakChecked → c.first = false →
    sparseGet false s.bpmap s.pc.toNat = true →
    ∃ t, step s = .next t ∧ PassResult c c.used { s with hcr := s.hcr ||| 0x0080 } t ∧ t.call = none ∧
      t.pc = s.pc ∧ t.gpr = s.gpr ∧ t.xm = s.xm ∧ t.xb = s.xb ∧ t.sp = s.sp ∧ t.bp = s.bp ∧
      (∀ a, t.ramAt a = s.ramAt a) ∧ t.hcr &&& 0x0080 = 0x0080) ∧
  (∀ (s : State) (c : RunCall),
    s.breakHit c = true ↔ c.mode = .breakChecked ∧ c.first = false ∧ sparseGet false s.bpmap s.pc.toNat = true) ∧
  (∀ (s : State) (a b : Word) (on : Bool),
    sparseGet false (s.setBreakBit a on).bpmap b.toNat = if b = a then on else sparseGet false s.bpmap b.toNat)

/-- The audio and video timers in closed form (R342, R343). -/
def Obligations.TimerTicks : Prop :=
  ∀ (s : State) (u : Nat), s.timers.asmp < 512 → s.timers.line < s.params.linesPerFrame →
    let x := s.timers.acyc + u
    let n := x / s.params.cyclesPerSample
    let y := s.timers.lcyc + u
    let m := y / s.params.cyclesPerLine
    s.audioTick u = { s with
      timers := { s.timers with acyc := x % s.params.cyclesPerSample, asmp := (s.timers.asmp + n) % 512 },
      hcr := if 512 ≤ s.timers.asmp + n then s.hcr ||| 0x0040 else s.hcr } ∧
    s.videoTick u = { s with
      timers := { s.timers with lcyc := y % s.params.cyclesPerLine,
                                line := (s.timers.line + m) % s.params.linesPerFrame },
      hcr := if (s.params.linesPerFrame : Nat) ≤ s.timers.line + m then s.hcr ||| 0x0100 else s.hcr,
      lineCalls := s.lineCalls + m }

/-- `Drain`: a busy counter above the available cycles is reduced; else it is consumed, and the oldest word, if any,
is written to the coprocessor and the drain goes on with the cycles left (R346). -/
def Obligations.DrainRule : Prop :=
  ∀ (s : State) (l : LaneId) (avail : Nat),
    let x := s.lane l
    (avail < x.busy → s.drain l avail = s.setLane l { x with busy := x.busy - avail }) ∧
    (x.busy ≤ avail → x.ring = [] → s.drain l avail = s.setLane l { x with busy := 0 }) ∧
    (∀ w rest, x.busy ≤ avail → x.ring = w :: rest →
      s.drain l avail =
        ((s.setLane l { x with busy := 0, ring := rest }).copWrite l w).drain l (avail - x.busy))

/-- The task scheduler touches no register, lane, cell or timer, raises FAULT at most, and only for a queued slot
with a pointer outside the data window; slots that are not queued stay, a queued one stays queued or is running. A
queued slot not yet marked is marked, and becomes running if its pointers are valid, or stays queued and raises FAULT if
one is not (R351, R352, R353). That a slot runs from its callback on, that one whose check failed stays queued, and
that the private state of the dispatcher and the host's callbacks stays (`t.kernel = s.kernel`), is the model's choice
(log 8). -/
def Obligations.SchedulerFrame : Prop :=
  ∀ s : State,
    let t := s.taskSched
    let valid := fun x : TaskSlot => ∀ g ∈ taskRanges x.params, g.1 < 0xFC00 ∧ g.1 + g.2 ≤ 0xFC00
    t.gpr = s.gpr ∧ t.xm = s.xm ∧ t.xb = s.xb ∧ t.pc = s.pc ∧ t.sp = s.sp ∧ t.bp = s.bp ∧ t.cells = s.cells ∧
    t.laneA = s.laneA ∧ t.laneB = s.laneB ∧ t.pmem = s.pmem ∧ t.ext = s.ext ∧ t.kernel = s.kernel ∧
    SameFixed s t ∧
    (t.hcr = s.hcr ∨ t.hcr = s.hcr ||| 0x0010) ∧
    ((∀ i : Fin 16, s.slots[i].status = .queued → valid s.slots[i]) → t.hcr = s.hcr) ∧
    (∀ i : Fin 16, s.slots[i].status ≠ .queued → t.slots[i] = s.slots[i]) ∧
    (∀ i : Fin 16, s.slots[i].status = .queued → t.slots[i].params = s.slots[i].params ∧
      (t.slots[i].status = .queued ∨ t.slots[i].status = .running ∧ valid s.slots[i])) ∧
    (∀ i : Fin 16, s.slots[i].status = .queued → s.slots[i].dispatched = false → t.slots[i].dispatched = true ∧
      (valid s.slots[i] → t.slots[i].status = .running) ∧
      (¬valid s.slots[i] → t.slots[i].status = .queued ∧ t.hcr = s.hcr ||| 0x0010)) ∧
    (∀ a, t.ramAt a ≠ s.ramAt a → ∃ i : Fin 16, s.slots[i].status = .queued ∧
      ∃ g ∈ taskRanges s.slots[i].params, g.1 ≤ a.toNat ∧ a.toNat < g.1 + g.2 ∧ g.1 + g.2 ≤ 0xFC00)

/-! ### Reset, loading, export and import -/

/-- `reset()` in place: every value of R380, RAM and the code store holding the image last loaded, while the handler
table, the breakpoint bitmap and the parameters stay (R380, R382). -/
def Obligations.ResetInPlace : Prop :=
  ∀ s : State,
    let t := s.hostCall .reset
    t.gpr = { a := 0, b := 0, c := 0, d := 0, x0 := 0, x1 := 0, x2 := 0, x3 := 0 } ∧ t.xm = 0 ∧ t.xb = 0 ∧
    t.pc = 0 ∧ t.sbot = s.image.sbot ∧ t.stop = s.image.stop ∧ t.sp = t.sbot ∧ t.bp = t.sbot ∧ t.hcr = 0x0020 ∧
    (∀ l, (t.lane l).latch = 0 ∧ (t.lane l).ring = [] ∧ (t.lane l).busy = 0 ∧ ∀ j, (t.lane l).regs.read j = 0) ∧
    t.stall = 0 ∧ t.timers = { acyc := 0, asmp := 0, lcyc := 0, line := 0 } ∧
    (∀ a, t.ramAt a = s.image.ram.read a.toNat ∧ t.codeAt a = s.image.code.read a.toNat) ∧
    (∀ c, t.cells.read c = 0) ∧ (∀ i : Fin 16, t.slots[i].status = .empty) ∧
    t.busMap = s.busMap ∧ t.bpmap = s.bpmap ∧ t.params = s.params

/-- The machine at reset: the values R52 gives. SBOT and STOP, which the spec leaves to the descriptor, are the
model's choice (log 3) and enter only through SP and BP being SBOT. -/
def Obligations.ResetValues : Prop :=
  let t := State.reset
  (∀ q, t.reg q = 0) ∧ t.xm = 0 ∧ t.xb = 0 ∧ t.pc = 0 ∧ t.sp = t.sbot ∧ t.bp = t.sbot ∧ t.hcr = 0x0020 ∧
  (∀ a, t.ramAt a = 0 ∧ t.codeAt a = 0) ∧ (∀ c, t.cells.read c = 0) ∧
  (∀ l, (t.lane l).latch = 0 ∧ (t.lane l).ring = [] ∧ (t.lane l).busy = 0 ∧ ∀ j, (t.lane l).regs.read j = 0) ∧
  t.stall = 0 ∧ t.timers = { acyc := 0, asmp := 0, lcyc := 0, line := 0 } ∧
  (∀ a : Nat, sparseGet false t.bpmap a = false) ∧ ∀ i : Fin 16, t.slots[i].status = .empty

/-- The loader path while INIT is set: success fills the code store and data RAM, sets the window, SP and BP, and
clears INIT; a failure or a pending load changes nothing. With INIT clear it changes nothing (R381; the last is the
model's choice, log 16). -/
def Obligations.LoaderPath : Prop :=
  ∀ (s : State) (img : AppImage) (code : Nat),
    (s.hcr &&& 0x0020 ≠ 0 →
      (img.code.wf 65536 → img.ram.wf 65536 →
        s.hostCall (.load (.loaded img)) = { s with
          image := img, code := img.code, ram := img.ram, sbot := img.sbot, stop := img.stop, sp := img.sbot,
          bp := img.sbot, hcr := s.hcr &&& ~~~0x0020, reply := .done }) ∧
      s.hostCall (.load (.failed code)) = { s with reply := .rejected (.image code) } ∧
      s.hostCall (.load .pending) = { s with reply := .done }) ∧
    (s.hcr &&& 0x0020 = 0 → ∀ r, s.hostCall (.load r) = { s with reply := .rejected .notInitialising })

/-- Import is all or nothing: it accepts exactly the contents that meet the invariants of R360, and then every field
R360 lists takes the contents' value and nothing else changes, which is the model's choice for what R360 does not list
(the code store, the breakpoint bitmap, the EXT states, the kernel's slots and private state, the handler table and the
rest of State; log 14); contents in canonical form are exported again as they were, and what a machine in a state of
the invariant exports, it or another of the same parameters takes back as it was.
Words for cells that are not of kind STORE, which have no backing word (R51), are dropped, so that these clauses hold of
the words of the STORE cells of the machine that imports; R360 is silent on such words, and this is the model's choice
(log 24). The contents are without a byte layout (R360, log 14). -/
def Obligations.ExportImport : Prop :=
  ∀ (s : State) (x : Snapshot),
    let good := x.hcr &&& 0xFC00 = 0 ∧ x.laneA.ring.length ≤ s.params.fifoDepth ∧
      x.laneB.ring.length ≤ s.params.fifoDepth ∧ x.timers.acyc < s.params.cyclesPerSample ∧ x.timers.asmp < 512 ∧
      x.timers.lcyc < s.params.cyclesPerLine ∧ x.timers.line < s.params.linesPerFrame
    let regs := Memory.canonical (2 ^ s.params.copRegsLog)
    let stored := fun (u : State) (m : Memory) => m.filter fun e => cellKind u.busMap e.1 = .store
    (good → s.hostCall (.importState x) = { s with
      gpr := x.gpr, xm := x.xm, xb := x.xb, pc := x.pc, sp := x.sp, bp := x.bp, sbot := x.sbot, stop := x.stop,
      hcr := x.hcr, laneA := { x.laneA with regs := regs x.laneA.regs },
      laneB := { x.laneB with regs := regs x.laneB.regs }, timers := x.timers,
      cells := stored s (Memory.canonical 1024 x.cells), ram := Memory.canonical 65536 x.ram, pmem := x.pmem, reply := .done }) ∧
    (good → x.ram.wf 65536 → x.cells.wf 1024 → x.laneA.regs.wf (2 ^ s.params.copRegsLog) →
      x.laneB.regs.wf (2 ^ s.params.copRegsLog) →
      (s.hostCall (.importState x)).exported = { x with cells := stored s x.cells } ∧
      ((∀ e ∈ x.cells, cellKind s.busMap e.1 = .store) → (s.hostCall (.importState x)).exported = x)) ∧
    (¬good → ∃ why, s.hostCall (.importState x) = { s with reply := .rejected why }) ∧
    s.hostCall .exportState = { s with reply := .snapshot s.exported } ∧
    (s.Inv → s.hostCall (.importState s.exported) = { s with reply := .done } ∧
      ∀ u : State, u.params = s.params →
        (u.hostCall (.importState s.exported)).exported = { s.exported with cells := stored u s.cells } ∧
        (u.busMap = s.busMap → (u.hostCall (.importState s.exported)).exported = s.exported))

/-- The code store changes only through the host, between `run` calls and during initialisation (R91, R94): by the
loader or a word the host writes while INIT is set (R381), or by the reset that sets INIT (R380). That the loader works
only while INIT is set is the model's choice (log 16), and so is that the host writes single words while INIT is set
and is turned away otherwise (log 22). -/
def Obligations.CodeStoreChanges : Prop :=
  (∀ s t : State, step s = .next t → t.code ≠ s.code →
    s.call = none ∧ t.call = none ∧ ∃ h rest, s.host = h :: rest ∧
      (s.hcr &&& 0x0020 ≠ 0 ∧ ((∃ img, h = .load (.loaded img)) ∨ ∃ a v, h = .writeCode a v) ∨
        h = .reset ∧ t.hcr &&& 0x0020 ≠ 0)) ∧
  (∀ (s : State) (a v : Word),
    (s.hcr &&& 0x0020 ≠ 0 →
      s.hostCall (.writeCode a v) = { s with code := (s.hostCall (.writeCode a v)).code, reply := .done } ∧
      ∀ b, (s.hostCall (.writeCode a v)).codeAt b = if b = a then v else s.codeAt b) ∧
    (s.hcr &&& 0x0020 = 0 → s.hostCall (.writeCode a v) = { s with reply := .rejected .notInitialising }))

/-! ### The invariant -/

/-- The machine at reset meets the invariant. -/
def Obligations.ResetMeetsInv : Prop := State.reset.Inv

/-- Every step keeps the invariant: memories in canonical form, words only in STORE cells, rings within FIFO_DEPTH,
timers within their periods, STALL 0, only the ten causes in HCR, and a `run` call's budget consistent with the display
line (R44, R45, R46, R47, R40, R51, R332). -/
def Obligations.StepKeepsInv : Prop :=
  ∀ s : State, s.Inv → ∃ t, step s = .next t ∧ t.Inv

/-! ### The host's access to memory -/

/-- The host reads and writes data RAM and the code store one word a call: a read answers the word and changes nothing
else, a write of data RAM changes that word alone, and the word written is read back. Its calls are served only while no
`run` call executes: an idle machine serves the next one, and a step of a `run` call serves none (R94, R356). That these
are calls of their own, though R355 lists none, and that the code store is written only while INIT is set, is the
model's choice (log 22). -/
def Obligations.HostMemoryAccess : Prop :=
  (∀ (s : State) (a v : Word),
    s.hostCall (.readRam a) = { s with reply := .word (s.ramAt a) } ∧
    s.hostCall (.readCode a) = { s with reply := .word (s.codeAt a) } ∧
    s.hostCall (.writeRam a v) = { s with ram := (s.hostCall (.writeRam a v)).ram, reply := .done } ∧
    ∀ b, ((s.hostCall (.writeRam a v)).hostCall (.readRam b)).reply = .word (if b = a then v else s.ramAt b) ∧
      (s.hcr &&& 0x0020 ≠ 0 →
        ((s.hostCall (.writeCode a v)).hostCall (.readCode b)).reply = .word (if b = a then v else s.codeAt b))) ∧
  (∀ (s : State) (h : HostCall) (rest : List HostCall), s.call = none → s.host = h :: rest →
    step s = .next ({ s with host := rest }.hostCall h)) ∧
  (∀ (s : State) (c : RunCall), s.call = some c → ∃ t, step s = .next t ∧ t.host = s.host)
end

