-- ==== Sys2Proof/Laws/Memory.lean ====
section
/-! SUPPORT. The laws of the sparse tables: a read after a write, and the canonical form. -/
namespace Sys2Proof.Machine

variable {α : Type}

theorem sparseGet_put (d : α) (m : List (Nat × α)) (a b : Nat) (v : α) :
    sparseGet d (sparsePut a v m) b = if a = b then v else sparseGet d m b := by
  induction m with
  | nil => rfl
  | cons e rest ih =>
    obtain ⟨k, w⟩ := e
    simp only [sparsePut]
    split
    · rfl
    · split
      · rename_i h; subst h
        simp only [sparseGet]
        split <;> rfl
      · rename_i _ hk
        simp only [sparseGet, ih]
        split
        · rename_i hb; subst hb
          rw [if_neg hk]
        · rfl

theorem sparseGet_filter (d : α) (m : List (Nat × α)) (a b : Nat) :
    sparseGet d (m.filter fun e => e.1 ≠ a) b = if a = b then d else sparseGet d m b := by
  induction m with
  | nil => simp [sparseGet]
  | cons e rest ih =>
    obtain ⟨k, w⟩ := e
    by_cases hk : k = a
    · subst hk
      simp only [ne_eq, not_true_eq_false, decide_false, Bool.false_eq_true, not_false_eq_true,
        List.filter_cons_of_neg, ih, sparseGet]
      split <;> rfl
    · rw [List.filter_cons_of_pos (by simpa using hk)]
      simp only [sparseGet, ih]
      split
      · rename_i hb; subst hb
        rw [if_neg (fun h => hk h.symm)]
      · rfl

/-- A read after a write: the value at the address written, every other address as before. -/
theorem sparseGet_set [DecidableEq α] (d : α) (m : List (Nat × α)) (a b : Nat) (v : α) :
    sparseGet d (sparseSet d m a v) b = if a = b then v else sparseGet d m b := by
  unfold sparseSet
  split
  · rename_i h; subst h; exact sparseGet_filter _ _ _ _
  · exact sparseGet_put _ _ _ _ _

@[simp] theorem sparseGet_set_same [DecidableEq α] (d : α) (m : List (Nat × α)) (a : Nat) (v : α) :
    sparseGet d (sparseSet d m a v) a = v := by simp [sparseGet_set]

theorem sparseGet_set_other [DecidableEq α] (d : α) (m : List (Nat × α)) (a b : Nat) (v : α) (h : b ≠ a) :
    sparseGet d (sparseSet d m a v) b = sparseGet d m b := by
  rw [sparseGet_set, if_neg (Ne.symm h)]

theorem mem_sparsePut (a : Nat) (v : α) (m : List (Nat × α)) (e : Nat × α) (h : e ∈ sparsePut a v m) :
    e = (a, v) ∨ e ∈ m := by
  induction m with
  | nil => simpa [sparsePut] using h
  | cons f rest ih =>
    simp only [sparsePut] at h
    split at h
    · simpa using h
    · split at h
      · rcases List.mem_cons.1 h with h | h
        · exact .inl h
        · exact .inr (List.mem_cons_of_mem _ h)
      · rcases List.mem_cons.1 h with h | h
        · exact .inr (h ▸ List.mem_cons_self)
        · exact (ih h).imp id (List.mem_cons_of_mem _)

/-- A write brings no entry but at its own address. -/
theorem mem_sparseSet [DecidableEq α] {d : α} {m : List (Nat × α)} {a : Nat} {v : α} {e : Nat × α}
    (h : e ∈ sparseSet d m a v) : e.1 = a ∨ e ∈ m := by
  unfold sparseSet at h
  split at h
  · exact .inr (List.mem_of_mem_filter h)
  · exact (mem_sparsePut a v m e h).imp (fun k => by rw [k]) id

/-- Reading a table of which only some addresses are kept. -/
theorem sparseGet_keep (d : α) (p : Nat → Bool) (m : List (Nat × α)) (b : Nat) :
    sparseGet d (m.filter fun e => p e.1) b = if p b = true then sparseGet d m b else d := by
  induction m with
  | nil => simp [sparseGet]
  | cons e rest ih =>
    obtain ⟨k, w⟩ := e
    by_cases hk : p k = true
    · rw [List.filter_cons_of_pos (p := fun e : Nat × α => p e.1) hk]
      simp only [sparseGet, ih]
      by_cases hb : k = b
      · subst hb; simp [hk]
      · simp [hb]
    · rw [List.filter_cons_of_neg (p := fun e : Nat × α => p e.1) hk, ih]
      simp only [sparseGet]
      by_cases hb : k = b
      · subst hb; simp [hk]
      · simp [hb]

theorem sparsePut_pairwise (a : Nat) (v : α) (m : List (Nat × α))
    (h : m.Pairwise fun e f => e.1 < f.1) : (sparsePut a v m).Pairwise fun e f => e.1 < f.1 := by
  induction m with
  | nil => simp [sparsePut]
  | cons f rest ih =>
    obtain ⟨hf, hr⟩ := List.pairwise_cons.1 h
    simp only [sparsePut]
    split
    · rename_i ha
      refine List.pairwise_cons.2 ⟨fun e he => ?_, h⟩
      rcases List.mem_cons.1 he with rfl | he
      · exact ha
      · exact Nat.lt_trans ha (hf e he)
    · split
      · rename_i _ ha
        exact List.pairwise_cons.2 ⟨fun e he => ha ▸ hf e he, hr⟩
      · rename_i h1 h2
        refine List.pairwise_cons.2 ⟨fun e he => ?_, ih hr⟩
        rcases mem_sparsePut a v rest e he with rfl | he
        · show f.1 < a; omega
        · exact hf e he

/-- Every write keeps the canonical form. -/
theorem sparseSet_wf [DecidableEq α] {d : α} {bound : Nat} {m : List (Nat × α)} (h : sparseWf d bound m)
    {a : Nat} (ha : a < bound) (v : α) : sparseWf d bound (sparseSet d m a v) := by
  unfold sparseSet
  split
  · exact ⟨h.1.filter _, fun e he => h.2 e (List.mem_of_mem_filter he)⟩
  · rename_i hv
    refine ⟨sparsePut_pairwise a v m h.1, fun e he => ?_⟩
    rcases mem_sparsePut a v m e he with rfl | he
    · exact ⟨ha, hv⟩
    · exact h.2 e he

theorem sparseWf_nil (d : α) (bound : Nat) : sparseWf d bound [] := ⟨List.Pairwise.nil, by simp⟩

theorem sparseWf_mono {d : α} {b c : Nat} {m : List (Nat × α)} (h : sparseWf d b m) (hbc : b ≤ c) :
    sparseWf d c m := ⟨h.1, fun e he => ⟨Nat.lt_of_lt_of_le (h.2 e he).1 hbc, (h.2 e he).2⟩⟩

theorem sparseFold_wf [DecidableEq α] {d : α} {bound : Nat} (l m : List (Nat × α)) (h : sparseWf d bound m) :
    sparseWf d bound (l.foldl (fun m e => if e.1 < bound then sparseSet d m e.1 e.2 else m) m) := by
  induction l generalizing m with
  | nil => exact h
  | cons e rest ih =>
    refine ih _ ?_
    dsimp only
    split
    · exact sparseSet_wf h ‹_› _
    · exact h

/-- A table from outside is canonical once taken in. -/
theorem sparseOfList_wf [DecidableEq α] (d : α) (bound : Nat) (l : List (Nat × α)) :
    sparseWf d bound (sparseOfList d bound l) := sparseFold_wf l [] (sparseWf_nil d bound)

theorem sparsePut_append (a : Nat) (v : α) (m : List (Nat × α)) (h : ∀ e ∈ m, e.1 < a) :
    sparsePut a v m = m ++ [(a, v)] := by
  induction m with
  | nil => rfl
  | cons f rest ih =>
    have hf : f.1 < a := h f List.mem_cons_self
    simp only [sparsePut, List.cons_append]
    rw [if_neg (by omega), if_neg (by omega), ih fun e he => h e (List.mem_cons_of_mem _ he)]

/-- A canonical table is taken in as it is. -/
theorem sparseOfList_of_wf [DecidableEq α] {d : α} {bound : Nat} {l : List (Nat × α)} (h : sparseWf d bound l) :
    sparseOfList d bound l = l := by
  suffices H : ∀ (l m : List (Nat × α)), sparseWf d bound (m ++ l) →
      l.foldl (fun m e => if e.1 < bound then sparseSet d m e.1 e.2 else m) m = m ++ l from H l [] h
  intro l
  induction l with
  | nil => intro m _; simp
  | cons e rest ih =>
    intro m hm
    have he := hm.2 e (by simp)
    have hlt : ∀ x ∈ m, x.1 < e.1 := fun x hx =>
      (List.pairwise_append.1 hm.1).2.2 x hx e List.mem_cons_self
    have step : (if e.1 < bound then sparseSet d m e.1 e.2 else m) = m ++ [e] := by
      rw [if_pos he.1, sparseSet, if_neg he.2, sparsePut_append _ _ _ hlt]
    rw [List.foldl_cons, step, ih (m ++ [e]) (by simpa using hm)]
    simp

/-! ### Word memories -/

@[simp] theorem Memory.read_write_same (m : Memory) (a : Nat) (v : Word) : (m.write a v).read a = v :=
  sparseGet_set_same _ _ _ _

theorem Memory.read_write_other (m : Memory) (a b : Nat) (v : Word) (h : b ≠ a) :
    (m.write a v).read b = m.read b := sparseGet_set_other _ _ _ _ _ h

theorem Memory.write_wf {bound : Nat} {m : Memory} (h : m.wf bound) {a : Nat} (ha : a < bound) (v : Word) :
    (m.write a v).wf bound := sparseSet_wf h ha v

theorem Memory.canonical_wf (bound : Nat) (m : Memory) : (Memory.canonical bound m).wf bound :=
  sparseOfList_wf _ _ _

theorem Memory.canonical_of_wf {bound : Nat} {m : Memory} (h : m.wf bound) : Memory.canonical bound m = m :=
  sparseOfList_of_wf h

end Sys2Proof.Machine
end

