-- ==== Sys2Proof/Laws/State.lean ====
section
/-! SUPPORT. One lemma per field per update of the state, so that no proof unfolds a record update. -/
namespace Sys2Proof.Machine
open Sys2Proof.Config

section
variable (s : State)

@[simp] theorem State.setReg_gpr (r : Reg) (v : Word) : (s.setReg r v).gpr = s.gpr.set r v := rfl
@[simp] theorem State.setReg_xm (r : Reg) (v : Word) : (s.setReg r v).xm = s.xm := rfl
@[simp] theorem State.setReg_xb (r : Reg) (v : Word) : (s.setReg r v).xb = s.xb := rfl
@[simp] theorem State.setReg_pc (r : Reg) (v : Word) : (s.setReg r v).pc = s.pc := rfl
@[simp] theorem State.setReg_sp (r : Reg) (v : Word) : (s.setReg r v).sp = s.sp := rfl
@[simp] theorem State.setReg_bp (r : Reg) (v : Word) : (s.setReg r v).bp = s.bp := rfl
@[simp] theorem State.setReg_sbot (r : Reg) (v : Word) : (s.setReg r v).sbot = s.sbot := rfl
@[simp] theorem State.setReg_stop (r : Reg) (v : Word) : (s.setReg r v).stop = s.stop := rfl
@[simp] theorem State.setReg_hcr (r : Reg) (v : Word) : (s.setReg r v).hcr = s.hcr := rfl
@[simp] theorem State.setReg_code (r : Reg) (v : Word) : (s.setReg r v).code = s.code := rfl
@[simp] theorem State.setReg_ram (r : Reg) (v : Word) : (s.setReg r v).ram = s.ram := rfl
@[simp] theorem State.setReg_cells (r : Reg) (v : Word) : (s.setReg r v).cells = s.cells := rfl
@[simp] theorem State.setReg_ext (r : Reg) (v : Word) : (s.setReg r v).ext = s.ext := rfl
@[simp] theorem State.setReg_busMap (r : Reg) (v : Word) : (s.setReg r v).busMap = s.busMap := rfl
@[simp] theorem State.setReg_laneA (r : Reg) (v : Word) : (s.setReg r v).laneA = s.laneA := rfl
@[simp] theorem State.setReg_laneB (r : Reg) (v : Word) : (s.setReg r v).laneB = s.laneB := rfl
@[simp] theorem State.setReg_pmem (r : Reg) (v : Word) : (s.setReg r v).pmem = s.pmem := rfl
@[simp] theorem State.setReg_stall (r : Reg) (v : Word) : (s.setReg r v).stall = s.stall := rfl
@[simp] theorem State.setReg_timers (r : Reg) (v : Word) : (s.setReg r v).timers = s.timers := rfl
@[simp] theorem State.setReg_bpmap (r : Reg) (v : Word) : (s.setReg r v).bpmap = s.bpmap := rfl
@[simp] theorem State.setReg_slots (r : Reg) (v : Word) : (s.setReg r v).slots = s.slots := rfl
@[simp] theorem State.setReg_kernel (r : Reg) (v : Word) : (s.setReg r v).kernel = s.kernel := rfl
@[simp] theorem State.setReg_image (r : Reg) (v : Word) : (s.setReg r v).image = s.image := rfl
@[simp] theorem State.setReg_params (r : Reg) (v : Word) : (s.setReg r v).params = s.params := rfl
@[simp] theorem State.setReg_call (r : Reg) (v : Word) : (s.setReg r v).call = s.call := rfl
@[simp] theorem State.setReg_started (r : Reg) (v : Word) : (s.setReg r v).started = s.started := rfl
@[simp] theorem State.setReg_host (r : Reg) (v : Word) : (s.setReg r v).host = s.host := rfl
@[simp] theorem State.setReg_reply (r : Reg) (v : Word) : (s.setReg r v).reply = s.reply := rfl
@[simp] theorem State.setReg_cost (r : Reg) (v : Word) : (s.setReg r v).cost = s.cost := rfl
@[simp] theorem State.setReg_tick (r : Reg) (v : Word) : (s.setReg r v).tick = s.tick := rfl
@[simp] theorem State.setReg_lineCalls (r : Reg) (v : Word) : (s.setReg r v).lineCalls = s.lineCalls := rfl

@[simp] theorem State.raise_gpr (k : HaltCause) : (s.raise k).gpr = s.gpr := rfl
@[simp] theorem State.raise_xm (k : HaltCause) : (s.raise k).xm = s.xm := rfl
@[simp] theorem State.raise_xb (k : HaltCause) : (s.raise k).xb = s.xb := rfl
@[simp] theorem State.raise_pc (k : HaltCause) : (s.raise k).pc = s.pc := rfl
@[simp] theorem State.raise_sp (k : HaltCause) : (s.raise k).sp = s.sp := rfl
@[simp] theorem State.raise_bp (k : HaltCause) : (s.raise k).bp = s.bp := rfl
@[simp] theorem State.raise_sbot (k : HaltCause) : (s.raise k).sbot = s.sbot := rfl
@[simp] theorem State.raise_stop (k : HaltCause) : (s.raise k).stop = s.stop := rfl
@[simp] theorem State.raise_hcr (k : HaltCause) : (s.raise k).hcr = s.hcr ||| k.mask := rfl
@[simp] theorem State.raise_code (k : HaltCause) : (s.raise k).code = s.code := rfl
@[simp] theorem State.raise_ram (k : HaltCause) : (s.raise k).ram = s.ram := rfl
@[simp] theorem State.raise_cells (k : HaltCause) : (s.raise k).cells = s.cells := rfl
@[simp] theorem State.raise_ext (k : HaltCause) : (s.raise k).ext = s.ext := rfl
@[simp] theorem State.raise_busMap (k : HaltCause) : (s.raise k).busMap = s.busMap := rfl
@[simp] theorem State.raise_laneA (k : HaltCause) : (s.raise k).laneA = s.laneA := rfl
@[simp] theorem State.raise_laneB (k : HaltCause) : (s.raise k).laneB = s.laneB := rfl
@[simp] theorem State.raise_pmem (k : HaltCause) : (s.raise k).pmem = s.pmem := rfl
@[simp] theorem State.raise_stall (k : HaltCause) : (s.raise k).stall = s.stall := rfl
@[simp] theorem State.raise_timers (k : HaltCause) : (s.raise k).timers = s.timers := rfl
@[simp] theorem State.raise_bpmap (k : HaltCause) : (s.raise k).bpmap = s.bpmap := rfl
@[simp] theorem State.raise_slots (k : HaltCause) : (s.raise k).slots = s.slots := rfl
@[simp] theorem State.raise_kernel (k : HaltCause) : (s.raise k).kernel = s.kernel := rfl
@[simp] theorem State.raise_image (k : HaltCause) : (s.raise k).image = s.image := rfl
@[simp] theorem State.raise_params (k : HaltCause) : (s.raise k).params = s.params := rfl
@[simp] theorem State.raise_call (k : HaltCause) : (s.raise k).call = s.call := rfl
@[simp] theorem State.raise_started (k : HaltCause) : (s.raise k).started = s.started := rfl
@[simp] theorem State.raise_host (k : HaltCause) : (s.raise k).host = s.host := rfl
@[simp] theorem State.raise_reply (k : HaltCause) : (s.raise k).reply = s.reply := rfl
@[simp] theorem State.raise_cost (k : HaltCause) : (s.raise k).cost = s.cost := rfl
@[simp] theorem State.raise_tick (k : HaltCause) : (s.raise k).tick = s.tick := rfl
@[simp] theorem State.raise_lineCalls (k : HaltCause) : (s.raise k).lineCalls = s.lineCalls := rfl

@[simp] theorem State.clearHalt_gpr (m : Word) : (s.clearHalt m).gpr = s.gpr := rfl
@[simp] theorem State.clearHalt_xm (m : Word) : (s.clearHalt m).xm = s.xm := rfl
@[simp] theorem State.clearHalt_xb (m : Word) : (s.clearHalt m).xb = s.xb := rfl
@[simp] theorem State.clearHalt_pc (m : Word) : (s.clearHalt m).pc = s.pc := rfl
@[simp] theorem State.clearHalt_sp (m : Word) : (s.clearHalt m).sp = s.sp := rfl
@[simp] theorem State.clearHalt_bp (m : Word) : (s.clearHalt m).bp = s.bp := rfl
@[simp] theorem State.clearHalt_sbot (m : Word) : (s.clearHalt m).sbot = s.sbot := rfl
@[simp] theorem State.clearHalt_stop (m : Word) : (s.clearHalt m).stop = s.stop := rfl
@[simp] theorem State.clearHalt_hcr (m : Word) : (s.clearHalt m).hcr = s.hcr &&& ~~~m := rfl
@[simp] theorem State.clearHalt_code (m : Word) : (s.clearHalt m).code = s.code := rfl
@[simp] theorem State.clearHalt_ram (m : Word) : (s.clearHalt m).ram = s.ram := rfl
@[simp] theorem State.clearHalt_cells (m : Word) : (s.clearHalt m).cells = s.cells := rfl
@[simp] theorem State.clearHalt_ext (m : Word) : (s.clearHalt m).ext = s.ext := rfl
@[simp] theorem State.clearHalt_busMap (m : Word) : (s.clearHalt m).busMap = s.busMap := rfl
@[simp] theorem State.clearHalt_laneA (m : Word) : (s.clearHalt m).laneA = s.laneA := rfl
@[simp] theorem State.clearHalt_laneB (m : Word) : (s.clearHalt m).laneB = s.laneB := rfl
@[simp] theorem State.clearHalt_pmem (m : Word) : (s.clearHalt m).pmem = s.pmem := rfl
@[simp] theorem State.clearHalt_stall (m : Word) : (s.clearHalt m).stall = s.stall := rfl
@[simp] theorem State.clearHalt_timers (m : Word) : (s.clearHalt m).timers = s.timers := rfl
@[simp] theorem State.clearHalt_bpmap (m : Word) : (s.clearHalt m).bpmap = s.bpmap := rfl
@[simp] theorem State.clearHalt_slots (m : Word) : (s.clearHalt m).slots = s.slots := rfl
@[simp] theorem State.clearHalt_kernel (m : Word) : (s.clearHalt m).kernel = s.kernel := rfl
@[simp] theorem State.clearHalt_image (m : Word) : (s.clearHalt m).image = s.image := rfl
@[simp] theorem State.clearHalt_params (m : Word) : (s.clearHalt m).params = s.params := rfl
@[simp] theorem State.clearHalt_call (m : Word) : (s.clearHalt m).call = s.call := rfl
@[simp] theorem State.clearHalt_started (m : Word) : (s.clearHalt m).started = s.started := rfl
@[simp] theorem State.clearHalt_host (m : Word) : (s.clearHalt m).host = s.host := rfl
@[simp] theorem State.clearHalt_reply (m : Word) : (s.clearHalt m).reply = s.reply := rfl
@[simp] theorem State.clearHalt_cost (m : Word) : (s.clearHalt m).cost = s.cost := rfl
@[simp] theorem State.clearHalt_tick (m : Word) : (s.clearHalt m).tick = s.tick := rfl
@[simp] theorem State.clearHalt_lineCalls (m : Word) : (s.clearHalt m).lineCalls = s.lineCalls := rfl

@[simp] theorem State.setRam_gpr (a v : Word) : (s.setRam a v).gpr = s.gpr := rfl
@[simp] theorem State.setRam_xm (a v : Word) : (s.setRam a v).xm = s.xm := rfl
@[simp] theorem State.setRam_xb (a v : Word) : (s.setRam a v).xb = s.xb := rfl
@[simp] theorem State.setRam_pc (a v : Word) : (s.setRam a v).pc = s.pc := rfl
@[simp] theorem State.setRam_sp (a v : Word) : (s.setRam a v).sp = s.sp := rfl
@[simp] theorem State.setRam_bp (a v : Word) : (s.setRam a v).bp = s.bp := rfl
@[simp] theorem State.setRam_sbot (a v : Word) : (s.setRam a v).sbot = s.sbot := rfl
@[simp] theorem State.setRam_stop (a v : Word) : (s.setRam a v).stop = s.stop := rfl
@[simp] theorem State.setRam_hcr (a v : Word) : (s.setRam a v).hcr = s.hcr := rfl
@[simp] theorem State.setRam_code (a v : Word) : (s.setRam a v).code = s.code := rfl
@[simp] theorem State.setRam_ram (a v : Word) : (s.setRam a v).ram = s.ram.write a.toNat v := rfl
@[simp] theorem State.setRam_cells (a v : Word) : (s.setRam a v).cells = s.cells := rfl
@[simp] theorem State.setRam_ext (a v : Word) : (s.setRam a v).ext = s.ext := rfl
@[simp] theorem State.setRam_busMap (a v : Word) : (s.setRam a v).busMap = s.busMap := rfl
@[simp] theorem State.setRam_laneA (a v : Word) : (s.setRam a v).laneA = s.laneA := rfl
@[simp] theorem State.setRam_laneB (a v : Word) : (s.setRam a v).laneB = s.laneB := rfl
@[simp] theorem State.setRam_pmem (a v : Word) : (s.setRam a v).pmem = s.pmem := rfl
@[simp] theorem State.setRam_stall (a v : Word) : (s.setRam a v).stall = s.stall := rfl
@[simp] theorem State.setRam_timers (a v : Word) : (s.setRam a v).timers = s.timers := rfl
@[simp] theorem State.setRam_bpmap (a v : Word) : (s.setRam a v).bpmap = s.bpmap := rfl
@[simp] theorem State.setRam_slots (a v : Word) : (s.setRam a v).slots = s.slots := rfl
@[simp] theorem State.setRam_kernel (a v : Word) : (s.setRam a v).kernel = s.kernel := rfl
@[simp] theorem State.setRam_image (a v : Word) : (s.setRam a v).image = s.image := rfl
@[simp] theorem State.setRam_params (a v : Word) : (s.setRam a v).params = s.params := rfl
@[simp] theorem State.setRam_call (a v : Word) : (s.setRam a v).call = s.call := rfl
@[simp] theorem State.setRam_started (a v : Word) : (s.setRam a v).started = s.started := rfl
@[simp] theorem State.setRam_host (a v : Word) : (s.setRam a v).host = s.host := rfl
@[simp] theorem State.setRam_reply (a v : Word) : (s.setRam a v).reply = s.reply := rfl
@[simp] theorem State.setRam_cost (a v : Word) : (s.setRam a v).cost = s.cost := rfl
@[simp] theorem State.setRam_tick (a v : Word) : (s.setRam a v).tick = s.tick := rfl
@[simp] theorem State.setRam_lineCalls (a v : Word) : (s.setRam a v).lineCalls = s.lineCalls := rfl

@[simp] theorem State.chargeStall_gpr : (s.chargeStall).gpr = s.gpr := rfl
@[simp] theorem State.chargeStall_xm : (s.chargeStall).xm = s.xm := rfl
@[simp] theorem State.chargeStall_xb : (s.chargeStall).xb = s.xb := rfl
@[simp] theorem State.chargeStall_pc : (s.chargeStall).pc = s.pc := rfl
@[simp] theorem State.chargeStall_sp : (s.chargeStall).sp = s.sp := rfl
@[simp] theorem State.chargeStall_bp : (s.chargeStall).bp = s.bp := rfl
@[simp] theorem State.chargeStall_sbot : (s.chargeStall).sbot = s.sbot := rfl
@[simp] theorem State.chargeStall_stop : (s.chargeStall).stop = s.stop := rfl
@[simp] theorem State.chargeStall_hcr : (s.chargeStall).hcr = s.hcr := rfl
@[simp] theorem State.chargeStall_code : (s.chargeStall).code = s.code := rfl
@[simp] theorem State.chargeStall_ram : (s.chargeStall).ram = s.ram := rfl
@[simp] theorem State.chargeStall_cells : (s.chargeStall).cells = s.cells := rfl
@[simp] theorem State.chargeStall_ext : (s.chargeStall).ext = s.ext := rfl
@[simp] theorem State.chargeStall_busMap : (s.chargeStall).busMap = s.busMap := rfl
@[simp] theorem State.chargeStall_laneA : (s.chargeStall).laneA = s.laneA := rfl
@[simp] theorem State.chargeStall_laneB : (s.chargeStall).laneB = s.laneB := rfl
@[simp] theorem State.chargeStall_pmem : (s.chargeStall).pmem = s.pmem := rfl
@[simp] theorem State.chargeStall_stall : (s.chargeStall).stall = s.stall + s.params.fifoStall := rfl
@[simp] theorem State.chargeStall_timers : (s.chargeStall).timers = s.timers := rfl
@[simp] theorem State.chargeStall_bpmap : (s.chargeStall).bpmap = s.bpmap := rfl
@[simp] theorem State.chargeStall_slots : (s.chargeStall).slots = s.slots := rfl
@[simp] theorem State.chargeStall_kernel : (s.chargeStall).kernel = s.kernel := rfl
@[simp] theorem State.chargeStall_image : (s.chargeStall).image = s.image := rfl
@[simp] theorem State.chargeStall_params : (s.chargeStall).params = s.params := rfl
@[simp] theorem State.chargeStall_call : (s.chargeStall).call = s.call := rfl
@[simp] theorem State.chargeStall_started : (s.chargeStall).started = s.started := rfl
@[simp] theorem State.chargeStall_host : (s.chargeStall).host = s.host := rfl
@[simp] theorem State.chargeStall_reply : (s.chargeStall).reply = s.reply := rfl
@[simp] theorem State.chargeStall_cost : (s.chargeStall).cost = s.cost := rfl
@[simp] theorem State.chargeStall_tick : (s.chargeStall).tick = s.tick := rfl
@[simp] theorem State.chargeStall_lineCalls : (s.chargeStall).lineCalls = s.lineCalls := rfl

@[simp] theorem State.setExt_gpr (k : Nat) (x : List Word) : (s.setExt k x).gpr = s.gpr := rfl
@[simp] theorem State.setExt_xm (k : Nat) (x : List Word) : (s.setExt k x).xm = s.xm := rfl
@[simp] theorem State.setExt_xb (k : Nat) (x : List Word) : (s.setExt k x).xb = s.xb := rfl
@[simp] theorem State.setExt_pc (k : Nat) (x : List Word) : (s.setExt k x).pc = s.pc := rfl
@[simp] theorem State.setExt_sp (k : Nat) (x : List Word) : (s.setExt k x).sp = s.sp := rfl
@[simp] theorem State.setExt_bp (k : Nat) (x : List Word) : (s.setExt k x).bp = s.bp := rfl
@[simp] theorem State.setExt_sbot (k : Nat) (x : List Word) : (s.setExt k x).sbot = s.sbot := rfl
@[simp] theorem State.setExt_stop (k : Nat) (x : List Word) : (s.setExt k x).stop = s.stop := rfl
@[simp] theorem State.setExt_hcr (k : Nat) (x : List Word) : (s.setExt k x).hcr = s.hcr := rfl
@[simp] theorem State.setExt_code (k : Nat) (x : List Word) : (s.setExt k x).code = s.code := rfl
@[simp] theorem State.setExt_ram (k : Nat) (x : List Word) : (s.setExt k x).ram = s.ram := rfl
@[simp] theorem State.setExt_cells (k : Nat) (x : List Word) : (s.setExt k x).cells = s.cells := rfl
@[simp] theorem State.setExt_ext (k : Nat) (x : List Word) : (s.setExt k x).ext = sparseSet [] s.ext k x := rfl
@[simp] theorem State.setExt_busMap (k : Nat) (x : List Word) : (s.setExt k x).busMap = s.busMap := rfl
@[simp] theorem State.setExt_laneA (k : Nat) (x : List Word) : (s.setExt k x).laneA = s.laneA := rfl
@[simp] theorem State.setExt_laneB (k : Nat) (x : List Word) : (s.setExt k x).laneB = s.laneB := rfl
@[simp] theorem State.setExt_pmem (k : Nat) (x : List Word) : (s.setExt k x).pmem = s.pmem := rfl
@[simp] theorem State.setExt_stall (k : Nat) (x : List Word) : (s.setExt k x).stall = s.stall := rfl
@[simp] theorem State.setExt_timers (k : Nat) (x : List Word) : (s.setExt k x).timers = s.timers := rfl
@[simp] theorem State.setExt_bpmap (k : Nat) (x : List Word) : (s.setExt k x).bpmap = s.bpmap := rfl
@[simp] theorem State.setExt_slots (k : Nat) (x : List Word) : (s.setExt k x).slots = s.slots := rfl
@[simp] theorem State.setExt_kernel (k : Nat) (x : List Word) : (s.setExt k x).kernel = s.kernel := rfl
@[simp] theorem State.setExt_image (k : Nat) (x : List Word) : (s.setExt k x).image = s.image := rfl
@[simp] theorem State.setExt_params (k : Nat) (x : List Word) : (s.setExt k x).params = s.params := rfl
@[simp] theorem State.setExt_call (k : Nat) (x : List Word) : (s.setExt k x).call = s.call := rfl
@[simp] theorem State.setExt_started (k : Nat) (x : List Word) : (s.setExt k x).started = s.started := rfl
@[simp] theorem State.setExt_host (k : Nat) (x : List Word) : (s.setExt k x).host = s.host := rfl
@[simp] theorem State.setExt_reply (k : Nat) (x : List Word) : (s.setExt k x).reply = s.reply := rfl
@[simp] theorem State.setExt_cost (k : Nat) (x : List Word) : (s.setExt k x).cost = s.cost := rfl
@[simp] theorem State.setExt_tick (k : Nat) (x : List Word) : (s.setExt k x).tick = s.tick := rfl
@[simp] theorem State.setExt_lineCalls (k : Nat) (x : List Word) : (s.setExt k x).lineCalls = s.lineCalls := rfl

@[simp] theorem State.nextTick_gpr : (s.nextTick).gpr = s.gpr := rfl
@[simp] theorem State.nextTick_xm : (s.nextTick).xm = s.xm := rfl
@[simp] theorem State.nextTick_xb : (s.nextTick).xb = s.xb := rfl
@[simp] theorem State.nextTick_pc : (s.nextTick).pc = s.pc := rfl
@[simp] theorem State.nextTick_sp : (s.nextTick).sp = s.sp := rfl
@[simp] theorem State.nextTick_bp : (s.nextTick).bp = s.bp := rfl
@[simp] theorem State.nextTick_sbot : (s.nextTick).sbot = s.sbot := rfl
@[simp] theorem State.nextTick_stop : (s.nextTick).stop = s.stop := rfl
@[simp] theorem State.nextTick_hcr : (s.nextTick).hcr = s.hcr := rfl
@[simp] theorem State.nextTick_code : (s.nextTick).code = s.code := rfl
@[simp] theorem State.nextTick_ram : (s.nextTick).ram = s.ram := rfl
@[simp] theorem State.nextTick_cells : (s.nextTick).cells = s.cells := rfl
@[simp] theorem State.nextTick_ext : (s.nextTick).ext = s.ext := rfl
@[simp] theorem State.nextTick_busMap : (s.nextTick).busMap = s.busMap := rfl
@[simp] theorem State.nextTick_laneA : (s.nextTick).laneA = s.laneA := rfl
@[simp] theorem State.nextTick_laneB : (s.nextTick).laneB = s.laneB := rfl
@[simp] theorem State.nextTick_pmem : (s.nextTick).pmem = s.pmem := rfl
@[simp] theorem State.nextTick_stall : (s.nextTick).stall = s.stall := rfl
@[simp] theorem State.nextTick_timers : (s.nextTick).timers = s.timers := rfl
@[simp] theorem State.nextTick_bpmap : (s.nextTick).bpmap = s.bpmap := rfl
@[simp] theorem State.nextTick_slots : (s.nextTick).slots = s.slots := rfl
@[simp] theorem State.nextTick_kernel : (s.nextTick).kernel = s.kernel := rfl
@[simp] theorem State.nextTick_image : (s.nextTick).image = s.image := rfl
@[simp] theorem State.nextTick_params : (s.nextTick).params = s.params := rfl
@[simp] theorem State.nextTick_call : (s.nextTick).call = s.call := rfl
@[simp] theorem State.nextTick_started : (s.nextTick).started = s.started := rfl
@[simp] theorem State.nextTick_host : (s.nextTick).host = s.host := rfl
@[simp] theorem State.nextTick_reply : (s.nextTick).reply = s.reply := rfl
@[simp] theorem State.nextTick_cost : (s.nextTick).cost = s.cost := rfl
@[simp] theorem State.nextTick_tick : (s.nextTick).tick = s.tick + 1 := rfl
@[simp] theorem State.nextTick_lineCalls : (s.nextTick).lineCalls = s.lineCalls := rfl

@[simp] theorem State.setSlot_gpr (i : Fin 16) (x : TaskSlot) : (s.setSlot i x).gpr = s.gpr := rfl
@[simp] theorem State.setSlot_xm (i : Fin 16) (x : TaskSlot) : (s.setSlot i x).xm = s.xm := rfl
@[simp] theorem State.setSlot_xb (i : Fin 16) (x : TaskSlot) : (s.setSlot i x).xb = s.xb := rfl
@[simp] theorem State.setSlot_pc (i : Fin 16) (x : TaskSlot) : (s.setSlot i x).pc = s.pc := rfl
@[simp] theorem State.setSlot_sp (i : Fin 16) (x : TaskSlot) : (s.setSlot i x).sp = s.sp := rfl
@[simp] theorem State.setSlot_bp (i : Fin 16) (x : TaskSlot) : (s.setSlot i x).bp = s.bp := rfl
@[simp] theorem State.setSlot_sbot (i : Fin 16) (x : TaskSlot) : (s.setSlot i x).sbot = s.sbot := rfl
@[simp] theorem State.setSlot_stop (i : Fin 16) (x : TaskSlot) : (s.setSlot i x).stop = s.stop := rfl
@[simp] theorem State.setSlot_hcr (i : Fin 16) (x : TaskSlot) : (s.setSlot i x).hcr = s.hcr := rfl
@[simp] theorem State.setSlot_code (i : Fin 16) (x : TaskSlot) : (s.setSlot i x).code = s.code := rfl
@[simp] theorem State.setSlot_ram (i : Fin 16) (x : TaskSlot) : (s.setSlot i x).ram = s.ram := rfl
@[simp] theorem State.setSlot_cells (i : Fin 16) (x : TaskSlot) : (s.setSlot i x).cells = s.cells := rfl
@[simp] theorem State.setSlot_ext (i : Fin 16) (x : TaskSlot) : (s.setSlot i x).ext = s.ext := rfl
@[simp] theorem State.setSlot_busMap (i : Fin 16) (x : TaskSlot) : (s.setSlot i x).busMap = s.busMap := rfl
@[simp] theorem State.setSlot_laneA (i : Fin 16) (x : TaskSlot) : (s.setSlot i x).laneA = s.laneA := rfl
@[simp] theorem State.setSlot_laneB (i : Fin 16) (x : TaskSlot) : (s.setSlot i x).laneB = s.laneB := rfl
@[simp] theorem State.setSlot_pmem (i : Fin 16) (x : TaskSlot) : (s.setSlot i x).pmem = s.pmem := rfl
@[simp] theorem State.setSlot_stall (i : Fin 16) (x : TaskSlot) : (s.setSlot i x).stall = s.stall := rfl
@[simp] theorem State.setSlot_timers (i : Fin 16) (x : TaskSlot) : (s.setSlot i x).timers = s.timers := rfl
@[simp] theorem State.setSlot_bpmap (i : Fin 16) (x : TaskSlot) : (s.setSlot i x).bpmap = s.bpmap := rfl
@[simp] theorem State.setSlot_slots (i : Fin 16) (x : TaskSlot) : (s.setSlot i x).slots = s.slots.set i x := rfl
@[simp] theorem State.setSlot_kernel (i : Fin 16) (x : TaskSlot) : (s.setSlot i x).kernel = s.kernel := rfl
@[simp] theorem State.setSlot_image (i : Fin 16) (x : TaskSlot) : (s.setSlot i x).image = s.image := rfl
@[simp] theorem State.setSlot_params (i : Fin 16) (x : TaskSlot) : (s.setSlot i x).params = s.params := rfl
@[simp] theorem State.setSlot_call (i : Fin 16) (x : TaskSlot) : (s.setSlot i x).call = s.call := rfl
@[simp] theorem State.setSlot_started (i : Fin 16) (x : TaskSlot) : (s.setSlot i x).started = s.started := rfl
@[simp] theorem State.setSlot_host (i : Fin 16) (x : TaskSlot) : (s.setSlot i x).host = s.host := rfl
@[simp] theorem State.setSlot_reply (i : Fin 16) (x : TaskSlot) : (s.setSlot i x).reply = s.reply := rfl
@[simp] theorem State.setSlot_cost (i : Fin 16) (x : TaskSlot) : (s.setSlot i x).cost = s.cost := rfl
@[simp] theorem State.setSlot_tick (i : Fin 16) (x : TaskSlot) : (s.setSlot i x).tick = s.tick := rfl
@[simp] theorem State.setSlot_lineCalls (i : Fin 16) (x : TaskSlot) : (s.setSlot i x).lineCalls = s.lineCalls := rfl

@[simp] theorem State.retire_gpr (n : Word) (c : Nat) : (s.retire n c).gpr = s.gpr := rfl
@[simp] theorem State.retire_xm (n : Word) (c : Nat) : (s.retire n c).xm = s.xm := rfl
@[simp] theorem State.retire_xb (n : Word) (c : Nat) : (s.retire n c).xb = s.xb := rfl
@[simp] theorem State.retire_pc (n : Word) (c : Nat) : (s.retire n c).pc = n := rfl
@[simp] theorem State.retire_sp (n : Word) (c : Nat) : (s.retire n c).sp = s.sp := rfl
@[simp] theorem State.retire_bp (n : Word) (c : Nat) : (s.retire n c).bp = s.bp := rfl
@[simp] theorem State.retire_sbot (n : Word) (c : Nat) : (s.retire n c).sbot = s.sbot := rfl
@[simp] theorem State.retire_stop (n : Word) (c : Nat) : (s.retire n c).stop = s.stop := rfl
@[simp] theorem State.retire_hcr (n : Word) (c : Nat) : (s.retire n c).hcr = s.hcr := rfl
@[simp] theorem State.retire_code (n : Word) (c : Nat) : (s.retire n c).code = s.code := rfl
@[simp] theorem State.retire_ram (n : Word) (c : Nat) : (s.retire n c).ram = s.ram := rfl
@[simp] theorem State.retire_cells (n : Word) (c : Nat) : (s.retire n c).cells = s.cells := rfl
@[simp] theorem State.retire_ext (n : Word) (c : Nat) : (s.retire n c).ext = s.ext := rfl
@[simp] theorem State.retire_busMap (n : Word) (c : Nat) : (s.retire n c).busMap = s.busMap := rfl
@[simp] theorem State.retire_laneA (n : Word) (c : Nat) : (s.retire n c).laneA = s.laneA := rfl
@[simp] theorem State.retire_laneB (n : Word) (c : Nat) : (s.retire n c).laneB = s.laneB := rfl
@[simp] theorem State.retire_pmem (n : Word) (c : Nat) : (s.retire n c).pmem = s.pmem := rfl
@[simp] theorem State.retire_stall (n : Word) (c : Nat) : (s.retire n c).stall = 0 := rfl
@[simp] theorem State.retire_timers (n : Word) (c : Nat) : (s.retire n c).timers = s.timers := rfl
@[simp] theorem State.retire_bpmap (n : Word) (c : Nat) : (s.retire n c).bpmap = s.bpmap := rfl
@[simp] theorem State.retire_slots (n : Word) (c : Nat) : (s.retire n c).slots = s.slots := rfl
@[simp] theorem State.retire_kernel (n : Word) (c : Nat) : (s.retire n c).kernel = s.kernel := rfl
@[simp] theorem State.retire_image (n : Word) (c : Nat) : (s.retire n c).image = s.image := rfl
@[simp] theorem State.retire_params (n : Word) (c : Nat) : (s.retire n c).params = s.params := rfl
@[simp] theorem State.retire_call (n : Word) (c : Nat) : (s.retire n c).call = s.call := rfl
@[simp] theorem State.retire_started (n : Word) (c : Nat) : (s.retire n c).started = s.started := rfl
@[simp] theorem State.retire_host (n : Word) (c : Nat) : (s.retire n c).host = s.host := rfl
@[simp] theorem State.retire_reply (n : Word) (c : Nat) : (s.retire n c).reply = s.reply := rfl
@[simp] theorem State.retire_cost (n : Word) (c : Nat) : (s.retire n c).cost = c + s.stall := rfl
@[simp] theorem State.retire_tick (n : Word) (c : Nat) : (s.retire n c).tick = s.tick := rfl
@[simp] theorem State.retire_lineCalls (n : Word) (c : Nat) : (s.retire n c).lineCalls = s.lineCalls := rfl

@[simp] theorem State.startPass_gpr (c : RunCall) : (s.startPass c).gpr = s.gpr := rfl
@[simp] theorem State.startPass_xm (c : RunCall) : (s.startPass c).xm = s.xm := rfl
@[simp] theorem State.startPass_xb (c : RunCall) : (s.startPass c).xb = s.xb := rfl
@[simp] theorem State.startPass_pc (c : RunCall) : (s.startPass c).pc = s.pc := rfl
@[simp] theorem State.startPass_sp (c : RunCall) : (s.startPass c).sp = s.sp := rfl
@[simp] theorem State.startPass_bp (c : RunCall) : (s.startPass c).bp = s.bp := rfl
@[simp] theorem State.startPass_sbot (c : RunCall) : (s.startPass c).sbot = s.sbot := rfl
@[simp] theorem State.startPass_stop (c : RunCall) : (s.startPass c).stop = s.stop := rfl
@[simp] theorem State.startPass_hcr (c : RunCall) : (s.startPass c).hcr = s.hcr := rfl
@[simp] theorem State.startPass_code (c : RunCall) : (s.startPass c).code = s.code := rfl
@[simp] theorem State.startPass_ram (c : RunCall) : (s.startPass c).ram = s.ram := rfl
@[simp] theorem State.startPass_cells (c : RunCall) : (s.startPass c).cells = s.cells := rfl
@[simp] theorem State.startPass_ext (c : RunCall) : (s.startPass c).ext = s.ext := rfl
@[simp] theorem State.startPass_busMap (c : RunCall) : (s.startPass c).busMap = s.busMap := rfl
@[simp] theorem State.startPass_laneA (c : RunCall) : (s.startPass c).laneA = s.laneA := rfl
@[simp] theorem State.startPass_laneB (c : RunCall) : (s.startPass c).laneB = s.laneB := rfl
@[simp] theorem State.startPass_pmem (c : RunCall) : (s.startPass c).pmem = s.pmem := rfl
@[simp] theorem State.startPass_stall (c : RunCall) : (s.startPass c).stall = s.stall := rfl
@[simp] theorem State.startPass_timers (c : RunCall) : (s.startPass c).timers = s.timers := rfl
@[simp] theorem State.startPass_bpmap (c : RunCall) : (s.startPass c).bpmap = s.bpmap := rfl
@[simp] theorem State.startPass_slots (c : RunCall) : (s.startPass c).slots = s.slots := rfl
@[simp] theorem State.startPass_kernel (c : RunCall) : (s.startPass c).kernel = s.kernel := rfl
@[simp] theorem State.startPass_image (c : RunCall) : (s.startPass c).image = s.image := rfl
@[simp] theorem State.startPass_params (c : RunCall) : (s.startPass c).params = s.params := rfl
@[simp] theorem State.startPass_call (c : RunCall) : (s.startPass c).call = some { c with budget := s.passBudget, used := 0 } := rfl
@[simp] theorem State.startPass_started (c : RunCall) : (s.startPass c).started = s.started := rfl
@[simp] theorem State.startPass_host (c : RunCall) : (s.startPass c).host = s.host := rfl
@[simp] theorem State.startPass_reply (c : RunCall) : (s.startPass c).reply = s.reply := rfl
@[simp] theorem State.startPass_cost (c : RunCall) : (s.startPass c).cost = s.cost := rfl
@[simp] theorem State.startPass_tick (c : RunCall) : (s.startPass c).tick = s.tick := rfl
@[simp] theorem State.startPass_lineCalls (c : RunCall) : (s.startPass c).lineCalls = s.lineCalls := rfl

@[simp] theorem State.finishCall_gpr (n : Nat) : (s.finishCall n).gpr = s.gpr := rfl
@[simp] theorem State.finishCall_xm (n : Nat) : (s.finishCall n).xm = s.xm := rfl
@[simp] theorem State.finishCall_xb (n : Nat) : (s.finishCall n).xb = s.xb := rfl
@[simp] theorem State.finishCall_pc (n : Nat) : (s.finishCall n).pc = s.pc := rfl
@[simp] theorem State.finishCall_sp (n : Nat) : (s.finishCall n).sp = s.sp := rfl
@[simp] theorem State.finishCall_bp (n : Nat) : (s.finishCall n).bp = s.bp := rfl
@[simp] theorem State.finishCall_sbot (n : Nat) : (s.finishCall n).sbot = s.sbot := rfl
@[simp] theorem State.finishCall_stop (n : Nat) : (s.finishCall n).stop = s.stop := rfl
@[simp] theorem State.finishCall_hcr (n : Nat) : (s.finishCall n).hcr = s.hcr := rfl
@[simp] theorem State.finishCall_code (n : Nat) : (s.finishCall n).code = s.code := rfl
@[simp] theorem State.finishCall_ram (n : Nat) : (s.finishCall n).ram = s.ram := rfl
@[simp] theorem State.finishCall_cells (n : Nat) : (s.finishCall n).cells = s.cells := rfl
@[simp] theorem State.finishCall_ext (n : Nat) : (s.finishCall n).ext = s.ext := rfl
@[simp] theorem State.finishCall_busMap (n : Nat) : (s.finishCall n).busMap = s.busMap := rfl
@[simp] theorem State.finishCall_laneA (n : Nat) : (s.finishCall n).laneA = s.laneA := rfl
@[simp] theorem State.finishCall_laneB (n : Nat) : (s.finishCall n).laneB = s.laneB := rfl
@[simp] theorem State.finishCall_pmem (n : Nat) : (s.finishCall n).pmem = s.pmem := rfl
@[simp] theorem State.finishCall_stall (n : Nat) : (s.finishCall n).stall = s.stall := rfl
@[simp] theorem State.finishCall_timers (n : Nat) : (s.finishCall n).timers = s.timers := rfl
@[simp] theorem State.finishCall_bpmap (n : Nat) : (s.finishCall n).bpmap = s.bpmap := rfl
@[simp] theorem State.finishCall_slots (n : Nat) : (s.finishCall n).slots = s.slots := rfl
@[simp] theorem State.finishCall_kernel (n : Nat) : (s.finishCall n).kernel = s.kernel := rfl
@[simp] theorem State.finishCall_image (n : Nat) : (s.finishCall n).image = s.image := rfl
@[simp] theorem State.finishCall_params (n : Nat) : (s.finishCall n).params = s.params := rfl
@[simp] theorem State.finishCall_call (n : Nat) : (s.finishCall n).call = none := rfl
@[simp] theorem State.finishCall_started (n : Nat) : (s.finishCall n).started = s.started := rfl
@[simp] theorem State.finishCall_host (n : Nat) : (s.finishCall n).host = s.host := rfl
@[simp] theorem State.finishCall_reply (n : Nat) : (s.finishCall n).reply = .cycles n := rfl
@[simp] theorem State.finishCall_cost (n : Nat) : (s.finishCall n).cost = s.cost := rfl
@[simp] theorem State.finishCall_tick (n : Nat) : (s.finishCall n).tick = s.tick := rfl
@[simp] theorem State.finishCall_lineCalls (n : Nat) : (s.finishCall n).lineCalls = s.lineCalls := rfl

variable (l : LaneId) (x : Lane)

@[simp] theorem State.setLane_gpr : (s.setLane l x).gpr = s.gpr := by cases l <;> rfl
@[simp] theorem State.setLane_xm : (s.setLane l x).xm = s.xm := by cases l <;> rfl
@[simp] theorem State.setLane_xb : (s.setLane l x).xb = s.xb := by cases l <;> rfl
@[simp] theorem State.setLane_pc : (s.setLane l x).pc = s.pc := by cases l <;> rfl
@[simp] theorem State.setLane_sp : (s.setLane l x).sp = s.sp := by cases l <;> rfl
@[simp] theorem State.setLane_bp : (s.setLane l x).bp = s.bp := by cases l <;> rfl
@[simp] theorem State.setLane_sbot : (s.setLane l x).sbot = s.sbot := by cases l <;> rfl
@[simp] theorem State.setLane_stop : (s.setLane l x).stop = s.stop := by cases l <;> rfl
@[simp] theorem State.setLane_hcr : (s.setLane l x).hcr = s.hcr := by cases l <;> rfl
@[simp] theorem State.setLane_code : (s.setLane l x).code = s.code := by cases l <;> rfl
@[simp] theorem State.setLane_ram : (s.setLane l x).ram = s.ram := by cases l <;> rfl
@[simp] theorem State.setLane_cells : (s.setLane l x).cells = s.cells := by cases l <;> rfl
@[simp] theorem State.setLane_ext : (s.setLane l x).ext = s.ext := by cases l <;> rfl
@[simp] theorem State.setLane_busMap : (s.setLane l x).busMap = s.busMap := by cases l <;> rfl
@[simp] theorem State.setLane_pmem : (s.setLane l x).pmem = s.pmem := by cases l <;> rfl
@[simp] theorem State.setLane_stall : (s.setLane l x).stall = s.stall := by cases l <;> rfl
@[simp] theorem State.setLane_timers : (s.setLane l x).timers = s.timers := by cases l <;> rfl
@[simp] theorem State.setLane_bpmap : (s.setLane l x).bpmap = s.bpmap := by cases l <;> rfl
@[simp] theorem State.setLane_slots : (s.setLane l x).slots = s.slots := by cases l <;> rfl
@[simp] theorem State.setLane_kernel : (s.setLane l x).kernel = s.kernel := by cases l <;> rfl
@[simp] theorem State.setLane_image : (s.setLane l x).image = s.image := by cases l <;> rfl
@[simp] theorem State.setLane_params : (s.setLane l x).params = s.params := by cases l <;> rfl
@[simp] theorem State.setLane_call : (s.setLane l x).call = s.call := by cases l <;> rfl
@[simp] theorem State.setLane_started : (s.setLane l x).started = s.started := by cases l <;> rfl
@[simp] theorem State.setLane_host : (s.setLane l x).host = s.host := by cases l <;> rfl
@[simp] theorem State.setLane_reply : (s.setLane l x).reply = s.reply := by cases l <;> rfl
@[simp] theorem State.setLane_cost : (s.setLane l x).cost = s.cost := by cases l <;> rfl
@[simp] theorem State.setLane_tick : (s.setLane l x).tick = s.tick := by cases l <;> rfl
@[simp] theorem State.setLane_lineCalls : (s.setLane l x).lineCalls = s.lineCalls := by cases l <;> rfl

@[simp] theorem State.lane_setLane_same : (s.setLane l x).lane l = x := by cases l <;> rfl
theorem State.lane_setLane_other (m : LaneId) (h : m ≠ l) : (s.setLane l x).lane m = s.lane m := by
  cases l <;> cases m <;> first | rfl | exact absurd rfl h
@[simp] theorem State.lane_laneA : s.lane .laneA = s.laneA := rfl
@[simp] theorem State.lane_laneB : s.lane .laneB = s.laneB := rfl
@[simp] theorem State.setLane_laneA_A : (s.setLane .laneA x).laneA = x := rfl
@[simp] theorem State.setLane_laneA_B : (s.setLane .laneA x).laneB = s.laneB := rfl
@[simp] theorem State.setLane_laneB_A : (s.setLane .laneB x).laneA = s.laneA := rfl
@[simp] theorem State.setLane_laneB_B : (s.setLane .laneB x).laneB = x := rfl

@[simp] theorem State.setReg_lane (r : Reg) (v : Word) : (s.setReg r v).lane l = s.lane l := by cases l <;> rfl
@[simp] theorem State.raise_lane (k : HaltCause) : (s.raise k).lane l = s.lane l := by cases l <;> rfl
@[simp] theorem State.clearHalt_lane (m : Word) : (s.clearHalt m).lane l = s.lane l := by cases l <;> rfl
@[simp] theorem State.setRam_lane (a v : Word) : (s.setRam a v).lane l = s.lane l := by cases l <;> rfl
@[simp] theorem State.chargeStall_lane : (s.chargeStall).lane l = s.lane l := by cases l <;> rfl
@[simp] theorem State.setExt_lane (k : Nat) (x : List Word) : (s.setExt k x).lane l = s.lane l := by cases l <;> rfl
@[simp] theorem State.nextTick_lane : (s.nextTick).lane l = s.lane l := by cases l <;> rfl
@[simp] theorem State.setSlot_lane (i : Fin 16) (x : TaskSlot) : (s.setSlot i x).lane l = s.lane l := by cases l <;> rfl
@[simp] theorem State.retire_lane (n : Word) (c : Nat) : (s.retire n c).lane l = s.lane l := by cases l <;> rfl
@[simp] theorem State.startPass_lane (c : RunCall) : (s.startPass c).lane l = s.lane l := by cases l <;> rfl
@[simp] theorem State.finishCall_lane (n : Nat) : (s.finishCall n).lane l = s.lane l := by cases l <;> rfl

end

/-! ### Registers -/

@[simp] theorem RegFile.get_set_same (g : RegFile) (r : Reg) (v : Word) : (g.set r v).get r = v := by
  cases r <;> rfl

theorem RegFile.get_set_other (g : RegFile) (r q : Reg) (v : Word) (h : q ≠ r) : (g.set r v).get q = g.get q := by
  cases r <;> cases q <;> first | rfl | exact absurd rfl h

@[simp] theorem State.reg_setReg_same (s : State) (r : Reg) (v : Word) : (s.setReg r v).reg r = v :=
  RegFile.get_set_same _ _ _

theorem State.reg_setReg_other (s : State) (r q : Reg) (v : Word) (h : q ≠ r) : (s.setReg r v).reg q = s.reg q :=
  RegFile.get_set_other _ _ _ _ h

/-- Two states with one register file read every register alike. -/
theorem State.reg_congr (s t : State) (h : t.gpr = s.gpr) (r : Reg) : t.reg r = s.reg r := by
  unfold State.reg; rw [h]

@[simp] theorem State.reg_raise (s : State) (k : HaltCause) (q : Reg) : (s.raise k).reg q = s.reg q := rfl
@[simp] theorem State.reg_clearHalt (s : State) (m : Word) (q : Reg) : (s.clearHalt m).reg q = s.reg q := rfl
@[simp] theorem State.reg_setRam (s : State) (a v : Word) (q : Reg) : (s.setRam a v).reg q = s.reg q := rfl
@[simp] theorem State.reg_chargeStall (s : State) (q : Reg) : (s.chargeStall).reg q = s.reg q := rfl
@[simp] theorem State.reg_setExt (s : State) (k : Nat) (x : List Word) (q : Reg) : (s.setExt k x).reg q = s.reg q := rfl
@[simp] theorem State.reg_nextTick (s : State) (q : Reg) : (s.nextTick).reg q = s.reg q := rfl
@[simp] theorem State.reg_setSlot (s : State) (i : Fin 16) (x : TaskSlot) (q : Reg) : (s.setSlot i x).reg q = s.reg q := rfl
@[simp] theorem State.reg_retire (s : State) (n : Word) (c : Nat) (q : Reg) : (s.retire n c).reg q = s.reg q := rfl
@[simp] theorem State.reg_startPass (s : State) (c : RunCall) (q : Reg) : (s.startPass c).reg q = s.reg q := rfl
@[simp] theorem State.reg_finishCall (s : State) (n : Nat) (q : Reg) : (s.finishCall n).reg q = s.reg q := rfl
@[simp] theorem State.reg_setLane (s : State) (l : LaneId) (x : Lane) (q : Reg) :
    (s.setLane l x).reg q = s.reg q := by cases l <;> rfl

end Sys2Proof.Machine
end

