-- ==== Sys2Proof/Laws/Ops.lean ====
section
/-! SUPPORT. What each operation over memory, the bus and the lanes can do, said once, so that no proof unfolds it. -/
namespace Sys2Proof.Machine
open Sys2Proof.Config

/-- The states agree on everything a bus access may not touch (R76, R87). -/
structure BusOnly (s t : State) : Prop where
  gpr : t.gpr = s.gpr
  xm : t.xm = s.xm
  xb : t.xb = s.xb
  pc : t.pc = s.pc
  sp : t.sp = s.sp
  bp : t.bp = s.bp
  ram : t.ram = s.ram
  slots : t.slots = s.slots
  kernel : t.kernel = s.kernel
  cost : t.cost = s.cost
  fixed : SameFixed s t

theorem SameFixed.refl (s : State) : SameFixed s s := ⟨rfl, rfl, rfl, rfl, rfl, rfl, rfl, rfl, rfl, rfl, rfl, rfl, rfl⟩

theorem SameFixed.trans {s t u : State} (h : SameFixed s t) (k : SameFixed t u) : SameFixed s u :=
  ⟨k.code.trans h.code, k.sbot.trans h.sbot, k.stop.trans h.stop, k.busMap.trans h.busMap,
    k.timers.trans h.timers, k.bpmap.trans h.bpmap, k.params.trans h.params, k.image.trans h.image,
    k.call.trans h.call, k.started.trans h.started, k.host.trans h.host, k.reply.trans h.reply,
    k.lineCalls.trans h.lineCalls⟩

theorem BusOnly.refl (s : State) : BusOnly s s := ⟨rfl, rfl, rfl, rfl, rfl, rfl, rfl, rfl, rfl, rfl, by constructor <;> rfl⟩

theorem BusOnly.trans {s t u : State} (h : BusOnly s t) (k : BusOnly t u) : BusOnly s u :=
  ⟨k.gpr.trans h.gpr, k.xm.trans h.xm, k.xb.trans h.xb, k.pc.trans h.pc, k.sp.trans h.sp, k.bp.trans h.bp,
    k.ram.trans h.ram, k.slots.trans h.slots, k.kernel.trans h.kernel, k.cost.trans h.cost, h.fixed.trans k.fixed⟩

theorem State.setLane_busOnly (s : State) (l : LaneId) (x : Lane) : BusOnly s (s.setLane l x) := by
  cases l <;> exact ⟨rfl, rfl, rfl, rfl, rfl, rfl, rfl, rfl, rfl, rfl, by constructor <;> rfl⟩

theorem State.raise_busOnly (s : State) (k : HaltCause) : BusOnly s (s.raise k) :=
  ⟨rfl, rfl, rfl, rfl, rfl, rfl, rfl, rfl, rfl, rfl, by constructor <;> rfl⟩

theorem State.chargeStall_busOnly (s : State) : BusOnly s s.chargeStall :=
  ⟨rfl, rfl, rfl, rfl, rfl, rfl, rfl, rfl, rfl, rfl, by constructor <;> rfl⟩

theorem State.setExt_busOnly (s : State) (k : Nat) (st : List Word) : BusOnly s (s.setExt k st).nextTick :=
  ⟨rfl, rfl, rfl, rfl, rfl, rfl, rfl, rfl, rfl, rfl, by constructor <;> rfl⟩

theorem State.copWrite_busOnly (s : State) (l : LaneId) (w : BitVec 32) : BusOnly s (s.copWrite l w) := by
  unfold State.copWrite
  dsimp only
  split
  · have h := s.setLane_busOnly l
    exact ⟨(h _).gpr, (h _).xm, (h _).xb, (h _).pc, (h _).sp, (h _).bp, (h _).ram, (h _).slots, (h _).kernel,
      (h _).cost, ⟨(h _).fixed.code, (h _).fixed.sbot, (h _).fixed.stop, (h _).fixed.busMap, (h _).fixed.timers,
      (h _).fixed.bpmap, (h _).fixed.params, (h _).fixed.image, (h _).fixed.call, (h _).fixed.started,
      (h _).fixed.host, (h _).fixed.reply, (h _).fixed.lineCalls⟩⟩
  · exact s.setLane_busOnly l _

/-- A coprocessor write leaves HCR, the stall counter, STORE cells, EXT groups and the tick alone (R347). -/
theorem State.copWrite_keeps (s : State) (l : LaneId) (w : BitVec 32) :
    (s.copWrite l w).hcr = s.hcr ∧ (s.copWrite l w).stall = s.stall ∧ (s.copWrite l w).cells = s.cells ∧
      (s.copWrite l w).ext = s.ext ∧ (s.copWrite l w).tick = s.tick := by
  unfold State.copWrite
  dsimp only
  split <;> cases l <;> exact ⟨rfl, rfl, rfl, rfl, rfl⟩

/-- The three cases of a FIFO data write (R83). -/
theorem State.fifoData_cases (s : State) (l : LaneId) (v : Word) :
    (((s.lane l).ring = [] ∧ (s.lane l).busy = 0) ∧ s.fifoData l v = s.copWrite l ((s.lane l).latch ++ v)) ∨
    (¬((s.lane l).ring = [] ∧ (s.lane l).busy = 0) ∧ (s.lane l).ring.length < s.params.fifoDepth ∧
      s.fifoData l v =
        (s.setLane l { s.lane l with ring := (s.lane l).ring ++ [(s.lane l).latch ++ v] }).chargeStall) ∨
    (¬((s.lane l).ring = [] ∧ (s.lane l).busy = 0) ∧ s.params.fifoDepth ≤ (s.lane l).ring.length ∧
      s.fifoData l v = (s.raise .fault).chargeStall) := by
  unfold State.fifoData
  dsimp only
  split
  · exact .inl ⟨‹_›, rfl⟩
  · split
    · exact .inr (.inl ⟨‹_›, ‹_›, rfl⟩)
    · exact .inr (.inr ⟨‹_›, Nat.le_of_not_lt ‹_›, rfl⟩)

theorem State.fifoData_busOnly (s : State) (l : LaneId) (v : Word) : BusOnly s (s.fifoData l v) := by
  rcases s.fifoData_cases l v with ⟨_, h⟩ | ⟨_, _, h⟩ | ⟨_, _, h⟩ <;> rw [h]
  · exact s.copWrite_busOnly l _
  · exact (s.setLane_busOnly l _).trans (State.chargeStall_busOnly _)
  · exact (s.raise_busOnly _).trans (State.chargeStall_busOnly _)

/-- A FIFO data write leaves STORE cells, EXT groups and the tick alone. -/
theorem State.fifoData_keeps (s : State) (l : LaneId) (v : Word) :
    (s.fifoData l v).cells = s.cells ∧ (s.fifoData l v).ext = s.ext ∧ (s.fifoData l v).tick = s.tick := by
  rcases s.fifoData_cases l v with ⟨_, h⟩ | ⟨_, _, h⟩ | ⟨_, _, h⟩ <;> rw [h]
  · exact ⟨(s.copWrite_keeps l _).2.2.1, (s.copWrite_keeps l _).2.2.2.1, (s.copWrite_keeps l _).2.2.2.2⟩
  · exact ⟨by simp, by simp, by simp⟩
  · exact ⟨rfl, rfl, rfl⟩

/-- A bus read changes nothing, or one EXT group's own state. -/
theorem State.busRead_cases (s : State) (c : Nat) (rmw : Bool) :
    (s.busRead c rmw).2 = s ∨
    ∃ k st, cellKind s.busMap c = .ext k ∧ (s.busRead c rmw).2 = (s.setExt k st).nextTick := by
  unfold State.busRead
  split
  · exact .inl rfl
  · exact .inl rfl
  · exact .inl rfl
  · exact .inl rfl
  · rename_i k h
    exact .inr ⟨k, _, h, rfl⟩

theorem State.dRead_cases (s : State) (a : Word) (rmw : Bool) :
    (s.dRead a rmw).2 = s ∨
    ∃ k st, 0xFC00 ≤ a.toNat ∧ cellKind s.busMap (a.toNat - 0xFC00) = .ext k ∧
      (s.dRead a rmw).2 = (s.setExt k st).nextTick := by
  unfold State.dRead
  split
  · exact .inl rfl
  · rename_i h
    rcases s.busRead_cases (a.toNat - periphBase) rmw with h' | ⟨k, st, hk, h'⟩
    · exact .inl h'
    · exact .inr ⟨k, st, Nat.le_of_not_lt h, hk, h'⟩

theorem State.busWrite_busOnly (s : State) (c : Nat) (v : Word) : BusOnly s (s.busWrite c v) := by
  unfold State.busWrite
  split
  · exact .refl s
  · exact ⟨rfl, rfl, rfl, rfl, rfl, rfl, rfl, rfl, rfl, rfl, by constructor <;> rfl⟩
  · exact s.setLane_busOnly _ _
  · exact s.fifoData_busOnly _ _
  · exact s.setExt_busOnly _ _

theorem State.busSet_busOnly (s : State) (c : Nat) (v : Word) : BusOnly s (s.busSet c v) := by
  unfold State.busSet
  split
  · exact .refl s
  · exact .refl s
  · exact ⟨rfl, rfl, rfl, rfl, rfl, rfl, rfl, rfl, rfl, rfl, by constructor <;> rfl⟩
  · exact s.setLane_busOnly _ _
  · exact ⟨rfl, rfl, rfl, rfl, rfl, rfl, rfl, rfl, rfl, rfl, by constructor <;> rfl⟩

/-- A debug write leaves HCR, the stall counter and peripheral memory alone (R74). -/
theorem State.busSet_keeps (s : State) (c : Nat) (v : Word) :
    (s.busSet c v).hcr = s.hcr ∧ (s.busSet c v).stall = s.stall ∧ (s.busSet c v).pmem = s.pmem ∧
      (s.busSet c v).tick = s.tick := by
  unfold State.busSet
  split
  · exact ⟨rfl, rfl, rfl, rfl⟩
  · exact ⟨rfl, rfl, rfl, rfl⟩
  · exact ⟨rfl, rfl, rfl, rfl⟩
  · rename_i l _; cases l <;> exact ⟨rfl, rfl, rfl, rfl⟩
  · exact ⟨rfl, rfl, rfl, rfl⟩

theorem State.extState_setExt (s : State) (k j : Nat) (st : List Word) :
    (s.setExt k st).extState j = if k = j then st else s.extState j := sparseGet_set _ _ _ _ _

/-! ### The stack window -/

theorem State.inWindow_iff (s : State) (a : Word) : s.inWindow a = true ↔ s.sbot ≤ a ∧ a < s.stop := by
  simp [State.inWindow, BitVec.le_def, BitVec.lt_def]

/-- The two cases of a checked stack read (R66). -/
theorem State.sRead_cases (s : State) (a : Word) :
    (s.inWindow a = true ∧ s.sRead a = (s.ramAt a, s)) ∨ (s.inWindow a = false ∧ s.sRead a = (0, s.raise .stack)) := by
  unfold State.sRead
  cases h : s.inWindow a
  · exact .inr ⟨rfl, by simp⟩
  · exact .inl ⟨rfl, by simp⟩

/-- The two cases of a checked stack write (R67). -/
theorem State.sWrite_cases (s : State) (a v : Word) :
    (s.inWindow a = true ∧ s.sWrite a v = s.setRam a v) ∨ (s.inWindow a = false ∧ s.sWrite a v = s.raise .stack) := by
  unfold State.sWrite
  cases h : s.inWindow a
  · exact .inr ⟨rfl, by simp⟩
  · exact .inl ⟨rfl, by simp⟩

theorem State.ramAt_setRam (s : State) (a b v : Word) :
    (s.setRam a v).ramAt b = if b = a then v else s.ramAt b := by
  show (s.ram.write a.toNat v).read b.toNat = _
  by_cases h : b = a
  · subst h; simp
  · rw [if_neg h, Memory.read_write_other]
    · rfl
    · intro e; exact h (BitVec.eq_of_toNat_eq e)

/-- What a checked stack write changes: data RAM at one address, and HCR. -/
theorem State.sWrite_fields (s : State) (a v : Word) :
    s.sWrite a v = { s with ram := (s.sWrite a v).ram, hcr := (s.sWrite a v).hcr } := by
  rcases s.sWrite_cases a v with ⟨_, h⟩ | ⟨_, h⟩ <;> rw [h] <;> rfl

theorem State.ramAt_sWrite (s : State) (a b v : Word) :
    (s.sWrite a v).ramAt b = if s.inWindow a = true ∧ b = a then v else s.ramAt b := by
  rcases s.sWrite_cases a v with ⟨h1, h⟩ | ⟨h1, h⟩ <;> rw [h]
  · rw [State.ramAt_setRam]; simp [h1]
  · simp [h1]; rfl

theorem State.hcr_sWrite (s : State) (a v : Word) :
    (s.sWrite a v).hcr = if s.inWindow a = true then s.hcr else s.hcr ||| HaltCause.stack.mask := by
  rcases s.sWrite_cases a v with ⟨h1, h⟩ | ⟨h1, h⟩ <;> simp [h, h1]

/-- What a checked stack read changes: HCR only. -/
theorem State.sRead_fields (s : State) (a : Word) : (s.sRead a).2 = { s with hcr := (s.sRead a).2.hcr } := by
  rcases s.sRead_cases a with ⟨_, h⟩ | ⟨_, h⟩ <;> rw [h] <;> rfl

theorem State.hcr_sRead (s : State) (a : Word) :
    (s.sRead a).2.hcr = if s.inWindow a = true then s.hcr else s.hcr ||| HaltCause.stack.mask := by
  rcases s.sRead_cases a with ⟨h1, h⟩ | ⟨h1, h⟩ <;> simp [h, h1]

/-! ### The words of STORE cells (R51) -/

theorem storeCells_read (table : List Registration) (m : Memory) (c : Nat) :
    (storeCells table m).read c = if cellKind table c = .store then m.read c else 0 := by
  refine (sparseGet_keep 0 (fun c => decide (cellKind table c = .store)) m c).trans ?_
  simp only [decide_eq_true_eq]
  rfl

theorem storeCells_wf {bound : Nat} {m : Memory} (h : m.wf bound) (table : List Registration) :
    (storeCells table m).wf bound :=
  ⟨h.1.filter _, fun e he => h.2 e (List.mem_of_mem_filter he)⟩

theorem storeCells_stored (table : List Registration) (m : Memory) :
    ∀ e ∈ storeCells table m, cellKind table e.1 = .store :=
  fun _ he => of_decide_eq_true (List.mem_filter.1 he).2

theorem storeCells_of_stored {table : List Registration} {m : Memory}
    (h : ∀ e ∈ m, cellKind table e.1 = .store) : storeCells table m = m :=
  List.filter_eq_self.2 fun e he => decide_eq_true (h e he)

end Sys2Proof.Machine
end

