-- ==== Sys2Proof/Laws/Operands.lean ====
section
/-! SUPPORT. What resolving an operand and writing it back can do, said once. -/
namespace Sys2Proof.Machine
open Sys2Proof.Config

/-! ### Nibbles -/

theorem nibble_setNibble (w : Word) (m n : Ptr) (v : BitVec 4) :
    nibble (setNibble w m v) n = if n = m then v else nibble w n := by
  cases m <;> cases n <;>
    · simp only [nibble, setNibble, Ptr.code]
      ext i hi
      have h4 : i = 0 ∨ i = 1 ∨ i = 2 ∨ i = 3 := by omega
      rcases h4 with rfl | rfl | rfl | rfl <;> simp [BitVec.getElem_extractLsb']

/-! ### Resolving -/

/-- `u` is `s` but for general registers, XB, HCR and the EXT groups with their tick: all that resolving may change. -/
structure Reads (s u : State) : Prop where
  xm : u.xm = s.xm
  pc : u.pc = s.pc
  sp : u.sp = s.sp
  bp : u.bp = s.bp
  ram : u.ram = s.ram
  cells : u.cells = s.cells
  laneA : u.laneA = s.laneA
  laneB : u.laneB = s.laneB
  pmem : u.pmem = s.pmem
  stall : u.stall = s.stall
  slots : u.slots = s.slots
  kernel : u.kernel = s.kernel
  cost : u.cost = s.cost
  fixed : SameFixed s u

theorem Reads.refl (s : State) : Reads s s := ⟨rfl, rfl, rfl, rfl, rfl, rfl, rfl, rfl, rfl, rfl, rfl, rfl, rfl, .refl s⟩

theorem Reads.trans {s t u : State} (h : Reads s t) (k : Reads t u) : Reads s u :=
  ⟨k.xm.trans h.xm, k.pc.trans h.pc, k.sp.trans h.sp, k.bp.trans h.bp, k.ram.trans h.ram, k.cells.trans h.cells,
    k.laneA.trans h.laneA, k.laneB.trans h.laneB, k.pmem.trans h.pmem, k.stall.trans h.stall, k.slots.trans h.slots,
    k.kernel.trans h.kernel, k.cost.trans h.cost, h.fixed.trans k.fixed⟩

theorem Reads.raise (s : State) (k : HaltCause) : Reads s (s.raise k) :=
  ⟨rfl, rfl, rfl, rfl, rfl, rfl, rfl, rfl, rfl, rfl, rfl, rfl, rfl, by constructor <;> rfl⟩

theorem Reads.setExt (s : State) (k : Nat) (st : List Word) : Reads s (s.setExt k st).nextTick :=
  ⟨rfl, rfl, rfl, rfl, rfl, rfl, rfl, rfl, rfl, rfl, rfl, rfl, rfl, by constructor <;> rfl⟩

theorem Reads.postIncrement (s : State) (n : Ptr) (a : Word) (f : BitVec 4) (sm : SubMode) :
    Reads s (s.postIncrement n a f sm) := by
  unfold State.postIncrement
  split
  · exact ⟨rfl, rfl, rfl, rfl, rfl, rfl, rfl, rfl, rfl, rfl, rfl, rfl, rfl, by constructor <;> rfl⟩
  · exact .refl s

theorem Reads.sRead (s : State) (a : Word) : Reads s (s.sRead a).2 := by
  rcases s.sRead_cases a with ⟨_, h⟩ | ⟨_, h⟩ <;> rw [h]
  · exact .refl s
  · exact .raise s _

theorem Reads.dRead (s : State) (a : Word) (rmw : Bool) : Reads s (s.dRead a rmw).2 := by
  rcases s.dRead_cases a rmw with h | ⟨k, st, _, _, h⟩ <;> rw [h]
  · exact .refl s
  · exact .setExt s k st

/-- Resolving changes at most the general registers, XB, HCR and EXT groups (R141). -/
theorem resolve_reads (ea : Operand) (rmw : Bool) (s : State) : Reads s (resolve ea rmw s).after := by
  cases ea with
  | imm4 k => exact .refl s
  | imm16 v => exact .refl s
  | reg r => exact .refl s
  | stack4 k => exact .sRead s _
  | stackIdx n => exact .sRead s _
  | stack16 off => exact .sRead s _
  | abs adr => exact .dRead s _ _
  | absBit o adr sub f => exact .dRead s _ _
  | ptr o n => exact (Reads.dRead s _ _).trans (.postIncrement _ _ _ _ _)

theorem sRead_gpr (s : State) (a : Word) : (s.sRead a).2.gpr = s.gpr := by
  rw [s.sRead_fields]

theorem dRead_busOnly (s : State) (a : Word) (rmw : Bool) : BusOnly s (s.dRead a rmw).2 := by
  rcases s.dRead_cases a rmw with h | ⟨k, st, _, _, h⟩ <;> rw [h]
  · exact .refl s
  · exact s.setExt_busOnly k st

theorem dRead_hcr (s : State) (a : Word) (rmw : Bool) : (s.dRead a rmw).2.hcr = s.hcr := by
  rcases s.dRead_cases a rmw with h | ⟨k, st, _, _, h⟩ <;> rw [h]
  rfl

theorem postIncrement_reg (s : State) (n : Ptr) (a : Word) (f : BitVec 4) (sm : SubMode) (q : Reg)
    (h : q ≠ n.toReg) : (s.postIncrement n a f sm).reg q = s.reg q := by
  unfold State.postIncrement
  split
  · exact State.reg_setReg_other s n.toReg q _ h
  · rfl

theorem postIncrement_xb (s : State) (n m : Ptr) (a : Word) (f : BitVec 4) (sm : SubMode) (h : m ≠ n) :
    nibble (s.postIncrement n a f sm).xb m = nibble s.xb m := by
  unfold State.postIncrement
  split
  · exact (nibble_setNibble s.xb n m _).trans (by simp [h])
  · rfl

theorem postIncrement_keeps (s : State) (n : Ptr) (a : Word) (f : BitVec 4) (sm : SubMode) :
    (s.postIncrement n a f sm).hcr = s.hcr ∧ (s.postIncrement n a f sm).ext = s.ext ∧
      (s.postIncrement n a f sm).tick = s.tick := by
  unfold State.postIncrement
  split <;> exact ⟨rfl, rfl, rfl⟩

/-- Resolving changes no register but the pointer base of a pointer mode. -/
theorem resolve_reg (ea : Operand) (rmw : Bool) (s : State) (q : Reg) (h : incBase ea ≠ some q) :
    (resolve ea rmw s).after.reg q = s.reg q := by
  cases ea with
  | imm4 k => rfl
  | imm16 v => rfl
  | reg r => rfl
  | stack4 k => exact congrArg (·.get q) (sRead_gpr s _)
  | stackIdx n => exact congrArg (·.get q) (sRead_gpr s _)
  | stack16 off => exact congrArg (·.get q) (sRead_gpr s _)
  | abs adr => exact congrArg (·.get q) (dRead_busOnly s _ _).gpr
  | absBit o adr sub f => exact congrArg (·.get q) (dRead_busOnly s _ _).gpr
  | ptr o n =>
    exact (postIncrement_reg _ _ _ _ _ _ fun e => h (congrArg some e.symm)).trans
      (congrArg (·.get q) (dRead_busOnly s _ _).gpr)

/-- Resolving changes no nibble of XB but the pointer base's. -/
theorem resolve_xb (ea : Operand) (rmw : Bool) (s : State) (m : Ptr) (h : incBase ea ≠ some m.toReg) :
    nibble (resolve ea rmw s).after.xb m = nibble s.xb m := by
  have hs (a : Word) : (s.sRead a).2.xb = s.xb := by rw [s.sRead_fields]
  cases ea with
  | imm4 k => rfl
  | imm16 v => rfl
  | reg r => rfl
  | stack4 k => exact congrArg (nibble · m) (hs _)
  | stackIdx n => exact congrArg (nibble · m) (hs _)
  | stack16 off => exact congrArg (nibble · m) (hs _)
  | abs adr => exact congrArg (nibble · m) (dRead_busOnly s _ _).xb
  | absBit o adr sub f => exact congrArg (nibble · m) (dRead_busOnly s _ _).xb
  | ptr o n =>
    have hn : m ≠ n := fun e => h (congrArg (fun p : Ptr => some p.toReg) e.symm)
    exact (postIncrement_xb _ _ _ _ _ _ hn).trans (congrArg (nibble · m) (dRead_busOnly s _ _).xb)

/-- Resolving raises STACK outside the window, and nothing else (R66). -/
theorem resolve_hcr (ea : Operand) (rmw : Bool) (s : State) : (resolve ea rmw s).after.hcr = s.hcrAfter ea := by
  have hs (a : Word) :
      (s.sRead a).2.hcr = if s.sbot ≤ a ∧ a < s.stop then s.hcr else s.hcr ||| 0x0008 := by
    rw [s.hcr_sRead a]
    by_cases h : s.inWindow a = true
    · rw [if_pos h, if_pos ((s.inWindow_iff a).1 h)]
    · rw [if_neg h, if_neg fun k => h ((s.inWindow_iff a).2 k)]; rfl
  cases ea with
  | imm4 k => rfl
  | imm16 v => rfl
  | reg r => rfl
  | stack4 k => exact hs _
  | stackIdx n => exact hs _
  | stack16 off => exact hs _
  | abs adr => exact dRead_hcr s _ _
  | absBit o adr sub f => exact dRead_hcr s _ _
  | ptr o n => exact (postIncrement_keeps _ _ _ _ _).1.trans (dRead_hcr s _ _)

theorem dRead_ext (s : State) (a : Word) (rmw : Bool) (k : Nat)
    (h : 0xFC00 ≤ a.toNat → cellKind s.busMap (a.toNat - 0xFC00) ≠ .ext k) :
    (s.dRead a rmw).2.extState k = s.extState k := by
  rcases s.dRead_cases a rmw with e | ⟨j, st, ha, hj, e⟩ <;> rw [e]
  refine (State.extState_setExt s j k st).trans (if_neg ?_)
  intro e'
  exact h ha (e' ▸ hj)

theorem extGroup_ne {s : State} {ea : Operand} {k : Nat} (h : s.extGroup ea ≠ some k) {a : Word}
    (ha : s.dataAddress ea = some a) (hb : 0xFC00 ≤ a.toNat) : cellKind s.busMap (a.toNat - 0xFC00) ≠ .ext k := by
  intro e
  apply h
  simp [State.extGroup, ha, Nat.not_lt.2 hb, e]

/-- Resolving touches no EXT group but the one the operand reaches. -/
theorem resolve_ext (ea : Operand) (rmw : Bool) (s : State) (k : Nat) (h : s.extGroup ea ≠ some k) :
    (resolve ea rmw s).after.extState k = s.extState k := by
  have hs (a : Word) : (s.sRead a).2.ext = s.ext := by rw [s.sRead_fields]
  cases ea with
  | imm4 k => rfl
  | imm16 v => rfl
  | reg r => rfl
  | stack4 j => exact congrArg (sparseGet [] · k) (hs _)
  | stackIdx n => exact congrArg (sparseGet [] · k) (hs _)
  | stack16 off => exact congrArg (sparseGet [] · k) (hs _)
  | abs adr => exact dRead_ext s _ _ k fun hb => extGroup_ne h rfl hb
  | absBit o adr sub f => exact dRead_ext s _ _ k fun hb => extGroup_ne h rfl hb
  | ptr o n =>
    exact (congrArg (sparseGet [] · k) (postIncrement_keeps _ _ _ _ _).2.1).trans
      (dRead_ext s _ _ k fun hb => extGroup_ne h rfl hb)

/-- The cycles of an operand depend on its mode alone (R104). -/
theorem resolve_cycles (ea : Operand) (rmw : Bool) (s : State) :
    (resolve ea rmw s).cycles = s.params.cycMode[ea.mode.toNat]'ea.mode.isLt := by cases ea <;> rfl

/-- The write-back descriptor of an operand names what the operand addresses (R141). -/
theorem resolve_wb (ea : Operand) (rmw : Bool) (s : State) :
    match (resolve ea rmw s).wb with
    | .none => s.stackAddress ea = none ∧ s.dataAddress ea = none ∧ ∀ q, ea ≠ .reg q
    | .reg q => ea = .reg q
    | .stack a => s.stackAddress ea = some a ∧ s.dataAddress ea = none ∧ ∀ q, ea ≠ .reg q
    | .data a | .sub a _ _ _ => s.dataAddress ea = some a ∧ s.stackAddress ea = none ∧ ∀ q, ea ≠ .reg q := by
  cases ea <;> simp [resolve, State.stackOperand, State.elementOperand, State.stackAddress, State.dataAddress]

end Sys2Proof.Machine
end

