-- ==== Sys2Proof/Laws/Forms.lean ====
section
/-! SUPPORT. What a write-back and the shared instruction forms can do, said once. -/
namespace Sys2Proof.Machine
open Sys2Proof.Config

/-! ### Write-back -/

theorem lane_setReg (s : State) (r : Reg) (v : Word) (l : LaneId) : (s.setReg r v).lane l = s.lane l := by
  cases l <;> rfl

theorem setLane_setReg (s : State) (r : Reg) (v : Word) (l : LaneId) (x : Lane) :
    (s.setReg r v).setLane l x = (s.setLane l x).setReg r v := by
  cases l <;> rfl

theorem copWrite_setReg (s : State) (r : Reg) (v : Word) (l : LaneId) (w : BitVec 32) :
    (s.setReg r v).copWrite l w = (s.copWrite l w).setReg r v := by
  unfold State.copWrite
  simp only [lane_setReg, State.setReg_params, State.setReg_pmem, setLane_setReg]
  split <;> rfl

theorem fifoData_setReg (s : State) (r : Reg) (v : Word) (l : LaneId) (w : Word) :
    (s.setReg r v).fifoData l w = (s.fifoData l w).setReg r v := by
  unfold State.fifoData
  simp only [lane_setReg, State.setReg_params, setLane_setReg, copWrite_setReg]
  split
  · rfl
  · split <;> rfl

/-- A bus write does not look at the general registers. -/
theorem busWrite_setReg (s : State) (r : Reg) (v : Word) (c : Nat) (w : Word) :
    (s.setReg r v).busWrite c w = (s.busWrite c w).setReg r v := by
  unfold State.busWrite
  simp only [State.setReg_busMap, lane_setReg, setLane_setReg, fifoData_setReg]
  split <;> rfl

/-- A write-back to a bus cell is one bus write of the word stored. -/
theorem writeBack_cell {s : State} {wb : WriteBack} {c : Nat} (h : wb.cell = some c) (v : Word) :
    s.writeBack wb v = s.busWrite c (wb.word v) := by
  cases wb with
  | none => simp [WriteBack.cell] at h
  | reg r => simp [WriteBack.cell] at h
  | stack a => simp [WriteBack.cell] at h
  | data a =>
    simp only [WriteBack.cell] at h
    split at h
    · simp at h
    · rename_i ha
      obtain rfl := Option.some.inj h
      exact if_neg ha
  | sub a w sh dm =>
    simp only [WriteBack.cell] at h
    split at h
    · simp at h
    · rename_i ha
      obtain rfl := Option.some.inj h
      exact if_neg ha

/-- A write-back that is not to a bus cell: a register, a word of data RAM, STACK, or nothing. -/
theorem writeBack_noCell {s : State} {wb : WriteBack} (h : wb.cell = none) (v : Word) :
    (wb = .none ∧ s.writeBack wb v = s) ∨
    (∃ r, wb = .reg r ∧ s.writeBack wb v = s.setReg r v) ∨
    (∃ a, s.storeAddress wb = some a ∧ s.writeBack wb v = s.setRam a (wb.word v)) ∨
    (∃ a, wb = .stack a ∧ s.inWindow a = false ∧ s.writeBack wb v = s.raise .stack) := by
  cases wb with
  | none => exact .inl ⟨rfl, rfl⟩
  | reg r => exact .inr (.inl ⟨r, rfl, rfl⟩)
  | stack a =>
    rcases s.sWrite_cases a v with ⟨hw, e⟩ | ⟨hw, e⟩
    · exact .inr (.inr (.inl ⟨a, by simp [State.storeAddress, hw], e⟩))
    · exact .inr (.inr (.inr ⟨a, rfl, hw, e⟩))
  | data a =>
    have ha : a.toNat < periphBase := by
      simp only [WriteBack.cell] at h
      split at h
      · assumption
      · simp at h
    exact .inr (.inr (.inl ⟨a, by simp [State.storeAddress, ha], if_pos ha⟩))
  | sub a w sh dm =>
    have ha : a.toNat < periphBase := by
      simp only [WriteBack.cell] at h
      split at h
      · assumption
      · simp at h
    exact .inr (.inr (.inl ⟨a, by simp [State.storeAddress, ha], if_pos ha⟩))

theorem storeAddress_cell {s : State} {wb : WriteBack} {c : Nat} (h : wb.cell = some c) :
    s.storeAddress wb = none := by
  cases wb with
  | none => rfl
  | reg r => rfl
  | stack a => simp [WriteBack.cell] at h
  | data a =>
    simp only [WriteBack.cell] at h
    split at h
    · simp at h
    · rename_i ha; exact if_neg ha
  | sub a w sh dm =>
    simp only [WriteBack.cell] at h
    split at h
    · simp at h
    · rename_i ha; exact if_neg ha

theorem cell_reg_ne {wb : WriteBack} {c : Nat} (h : wb.cell = some c) (q : Reg) : wb ≠ .reg q := by
  rintro rfl; simp [WriteBack.cell] at h

/-- What no write-back changes. -/
structure WritesKeep (s t : State) : Prop where
  xm : t.xm = s.xm
  xb : t.xb = s.xb
  pc : t.pc = s.pc
  sp : t.sp = s.sp
  bp : t.bp = s.bp
  slots : t.slots = s.slots
  kernel : t.kernel = s.kernel
  fixed : SameFixed s t

theorem WritesKeep.refl (s : State) : WritesKeep s s := ⟨rfl, rfl, rfl, rfl, rfl, rfl, rfl, .refl s⟩

theorem writeBack_keeps (s : State) (wb : WriteBack) (v : Word) : WritesKeep s (s.writeBack wb v) := by
  cases hc : wb.cell with
  | some c =>
    rw [writeBack_cell hc]
    have h := s.busWrite_busOnly c (wb.word v)
    exact ⟨h.xm, h.xb, h.pc, h.sp, h.bp, h.slots, h.kernel, h.fixed⟩
  | none =>
    rcases writeBack_noCell (s := s) hc v with ⟨_, e⟩ | ⟨r, _, e⟩ | ⟨a, _, e⟩ | ⟨a, _, _, e⟩ <;> rw [e]
    · exact .refl s
    · exact ⟨rfl, rfl, rfl, rfl, rfl, rfl, rfl, by constructor <;> rfl⟩
    · exact ⟨rfl, rfl, rfl, rfl, rfl, rfl, rfl, by constructor <;> rfl⟩
    · exact ⟨rfl, rfl, rfl, rfl, rfl, rfl, rfl, by constructor <;> rfl⟩

theorem writeBack_reg (s : State) (wb : WriteBack) (v : Word) (q : Reg) :
    (s.writeBack wb v).reg q = if wb = .reg q then v else s.reg q := by
  cases hc : wb.cell with
  | some c =>
    rw [writeBack_cell hc, if_neg (cell_reg_ne hc q)]
    exact congrArg (·.get q) (s.busWrite_busOnly c _).gpr
  | none =>
    rcases writeBack_noCell (s := s) hc v with ⟨h, e⟩ | ⟨r, h, e⟩ | ⟨a, h, e⟩ | ⟨a, h, _, e⟩ <;> rw [e]
    · subst h; rfl
    · subst h
      by_cases hq : r = q
      · subst hq; simp
      · rw [if_neg (by simpa using hq), State.reg_setReg_other _ _ _ _ (Ne.symm hq)]
    · rw [if_neg]
      · rfl
      · rintro rfl; simp [State.storeAddress] at h
    · subst h; rfl

theorem writeBack_ram (s : State) (wb : WriteBack) (v b : Word) :
    (s.writeBack wb v).ramAt b = if s.storeAddress wb = some b then wb.word v else s.ramAt b := by
  cases hc : wb.cell with
  | some c =>
    rw [writeBack_cell hc, storeAddress_cell hc, if_neg (by simp)]
    exact congrArg (fun m : Memory => m.read b.toNat) (s.busWrite_busOnly c _).ram
  | none =>
    rcases writeBack_noCell (s := s) hc v with ⟨h, e⟩ | ⟨r, h, e⟩ | ⟨a, h, e⟩ | ⟨a, h, hw, e⟩ <;> rw [e]
    · subst h; rfl
    · subst h; rfl
    · rw [State.ramAt_setRam, h]
      by_cases hb : b = a
      · subst hb; simp
      · rw [if_neg hb, if_neg (by simpa using Ne.symm hb)]
    · subst h; simp [State.storeAddress, hw]; rfl

/-- Without a bus write the devices and the stall counter are unchanged. -/
theorem writeBack_devices {s : State} {wb : WriteBack} (h : wb.cell = none) (v : Word) :
    (s.writeBack wb v).cells = s.cells ∧ (s.writeBack wb v).laneA = s.laneA ∧ (s.writeBack wb v).laneB = s.laneB ∧
      (s.writeBack wb v).pmem = s.pmem ∧ (s.writeBack wb v).ext = s.ext ∧ (s.writeBack wb v).stall = s.stall ∧
      (s.writeBack wb v).tick = s.tick := by
  rcases writeBack_noCell (s := s) h v with ⟨_, e⟩ | ⟨r, _, e⟩ | ⟨a, _, e⟩ | ⟨a, _, _, e⟩ <;> rw [e] <;>
    exact ⟨rfl, rfl, rfl, rfl, rfl, rfl, rfl⟩

theorem word_or_self (x y : Word) : x ||| y ||| y = x ||| y := by
  ext i; simp

/-- Reading and then writing one operand raises STACK at most, unless the write is to the bus (R161). -/
theorem writeBack_hcr (ea : Operand) (s u : State) (v : Word) (hc : (resolve ea true s).wb.cell = none)
    (hh : u.hcr = s.hcrAfter ea) (hb : u.sbot = s.sbot) (ht : u.stop = s.stop) :
    (u.writeBack (resolve ea true s).wb v).hcr = s.hcrAfter ea := by
  rcases writeBack_noCell (s := u) hc v with ⟨_, e⟩ | ⟨r, _, e⟩ | ⟨a, _, e⟩ | ⟨a, hwb, hw, e⟩ <;> rw [e]
  · exact hh
  · exact hh
  · exact hh
  · have h := resolve_wb ea true s
    rw [hwb] at h
    have hn : ¬(s.sbot ≤ a ∧ a < s.stop) := by
      rw [← hb, ← ht, ← u.inWindow_iff a, hw]; simp
    show u.hcr ||| 0x0008#16 = _
    rw [hh]
    simp only [State.hcrAfter, h.1, if_neg hn]
    exact word_or_self _ _

theorem busWrite_ext (s : State) (c : Nat) (v : Word) (k : Nat) (h : cellKind s.busMap c ≠ .ext k) :
    (s.busWrite c v).extState k = s.extState k := by
  unfold State.busWrite
  split
  · rfl
  · rfl
  · rename_i l _; cases l <;> rfl
  · exact congrArg (sparseGet [] · k) (s.fifoData_keeps _ _).2.1
  · rename_i j hj
    exact (State.extState_setExt s j k _).trans (if_neg fun e : j = k => h (e ▸ hj))

/-! ### The forms -/

theorem writeExt_eq (s : State) (ext : Option Word) :
    s.writeExt ext = s ∨ ∃ e, ext = some e ∧ s.writeExt ext = s.setReg .c e := by
  cases ext with
  | none => exact .inl rfl
  | some e => exact .inr ⟨e, rfl, rfl⟩

theorem writeExt_fields (s : State) (ext : Option Word) : s.writeExt ext = { s with gpr := (s.writeExt ext).gpr } := by
  cases ext <;> rfl

theorem writeExt_reg (s : State) (ext : Option Word) (q : Reg) (h : q = .c → ext = none) :
    (s.writeExt ext).reg q = s.reg q := by
  cases ext with
  | none => rfl
  | some e => exact State.reg_setReg_other s .c q e fun hq => by simp at h; exact h hq

theorem busWrite_writeExt (s : State) (ext : Option Word) (c : Nat) (w : Word) :
    (s.writeExt ext).busWrite c w = (s.busWrite c w).writeExt ext := by
  cases ext with
  | none => rfl
  | some e => exact busWrite_setReg s .c e c w

theorem writeExt_same (s : State) (ext : Option Word) : SameFixed s (s.writeExt ext) := by
  cases ext <;> constructor <;> rfl

theorem retire_same (s : State) (next : Word) (cycles : Nat) : SameFixed s (s.retire next cycles) := by
  constructor <;> rfl

theorem setReg_same (s : State) (r : Reg) (v : Word) : SameFixed s (s.setReg r v) := by constructor <;> rfl

/-- "ea, r" and one-operand forms: what writing `ext` to C and `res` to `ea` does. -/
theorem eaForm_result (cls : BitVec 7) (ea : Operand) (res : Word) (ext : Option Word) (s : State) :
    EaResult s ((((resolve ea true s).after.writeExt ext).writeBack (resolve ea true s).wb res).fallThrough cls
      ea.words (resolve ea true s).cycles) cls ea res ext := by
  have hu := resolve_reads ea true s
  have hwb := resolve_wb ea true s
  have hreg := resolve_reg ea true s
  have hhcr := resolve_hcr ea true s
  have hcyc := resolve_cycles ea true s
  have hx := writeExt_fields (resolve ea true s).after ext
  have hk := writeBack_keeps ((resolve ea true s).after.writeExt ext) (resolve ea true s).wb res
  have hf : SameFixed s ((resolve ea true s).after.writeExt ext) := hu.fixed.trans (writeExt_same _ ext)
  have hsa : ((resolve ea true s).after.writeExt ext).storeAddress (resolve ea true s).wb =
      (resolve ea true s).after.storeAddress (resolve ea true s).wb := by
    rw [hx]; rfl
  have hregwb : ∀ q, (resolve ea true s).wb = .reg q ↔ ea = .reg q := by
    intro q
    cases hv : (resolve ea true s).wb <;> rw [hv] at hwb <;> simp at hwb ⊢ <;> simp [hwb]
  have hft := hf.trans hk.fixed
  refine
    { result := fun q hq => ?_, carry := fun e he hc => ?_, stored := ⟨fun a ha => ?_, fun c hc w hw => ?_, ?_, ?_⟩
      frame := ⟨fun q hq he => ?_, fun a ha => ?_, fun hc => ?_, fun k hk' => ?_, ?_, ?_, rfl, ?_⟩
      special := ⟨?_, ?_, ?_, ?_, fun n hn => ?_⟩ }
  · exact (writeBack_reg _ _ _ q).trans (if_pos ((hregwb q).2 hq))
  · refine (writeBack_reg _ _ _ .c).trans ((if_neg fun h => hc ((hregwb .c).1 h)).trans ?_)
    subst he; exact State.reg_setReg_same _ _ _
  · exact (writeBack_ram _ _ _ a).trans (if_pos (hsa.trans ha))
  · have e := (writeBack_cell (s := (resolve ea true s).after.writeExt ext) hc res).trans (busWrite_writeExt _ ext c _)
    rw [← hw] at e
    have e' := writeExt_fields w ext
    refine ⟨(congrArg State.cells e).trans ?_, (congrArg State.laneA e).trans ?_, (congrArg State.laneB e).trans ?_,
      (congrArg State.pmem e).trans ?_, (congrArg State.ext e).trans ?_, (congrArg State.hcr e).trans ?_⟩ <;>
      rw [e']
  · show State.pc _ + 1 + _ = _
    rw [hk.pc, hx]; show (resolve ea true s).after.pc + _ + _ = _
    rw [hu.pc]
  · show State.baseCycles _ cls + _ + State.stall _ = _
    rw [hcyc, State.baseCycles]
    congr 1
    · simp only [hft.params]
    · cases hc : (resolve ea true s).wb.cell with
      | none => 
        rw [(writeBack_devices hc res).2.2.2.2.2.1, hx]; exact hu.stall
      | some c =>
        rw [writeBack_cell hc, busWrite_writeExt, writeExt_fields]
  · refine (writeBack_reg _ _ _ q).trans ((if_neg fun h => he ((hregwb q).1 h)).trans ?_)
    rw [writeExt_reg _ _ q fun hc => ?_]
    · split
      · rfl
      · exact hreg q ‹_›
    · cases ext with
      | none => rfl
      | some e => simp [hc] at hq
  · refine (writeBack_ram _ _ _ a).trans ((if_neg fun h => ha (hsa.symm.trans h)).trans ?_)
    rw [hx]; exact congrArg (fun m : Memory => m.read a.toNat) hu.ram
  · have h := writeBack_devices (s := (resolve ea true s).after.writeExt ext) hc res
    refine ⟨h.1.trans ?_, h.2.1.trans ?_, h.2.2.1.trans ?_, h.2.2.2.1.trans ?_, ?_⟩
    · rw [hx]; exact hu.cells
    · rw [hx]; exact hu.laneA
    · rw [hx]; exact hu.laneB
    · rw [hx]; exact hu.pmem
    · exact writeBack_hcr ea s _ res hc (by rw [hx]; exact hhcr) hf.sbot hf.stop
  · have h0 := resolve_ext ea true s k hk'
    cases hc : (resolve ea true s).wb.cell with
    | none =>
      have h := (writeBack_devices (s := (resolve ea true s).after.writeExt ext) hc res).2.2.2.2.1
      refine (congrArg (sparseGet [] · k) h).trans (Eq.trans ?_ h0)
      rw [hx]; rfl
    | some c =>
      refine (congrArg (fun x : State => x.extState k)
        ((writeBack_cell hc res).trans (busWrite_writeExt (resolve ea true s).after ext c _))).trans ?_
      rw [writeExt_fields]
      refine (busWrite_ext (resolve ea true s).after c _ k ?_).trans h0
      rw [hu.fixed.busMap]
      cases hv : (resolve ea true s).wb with
      | none => rw [hv] at hc; simp [WriteBack.cell] at hc
      | reg r => rw [hv] at hc; simp [WriteBack.cell] at hc
      | stack a => rw [hv] at hc; simp [WriteBack.cell] at hc
      | data a =>
        rw [hv] at hc hwb
        simp only [WriteBack.cell] at hc
        split at hc
        · simp at hc
        · rename_i ha; obtain rfl := Option.some.inj hc
          exact extGroup_ne hk' hwb.1 (Nat.le_of_not_lt ha)
      | sub a w sh dm =>
        rw [hv] at hc hwb
        simp only [WriteBack.cell] at hc
        split at hc
        · simp at hc
        · rename_i ha; obtain rfl := Option.some.inj hc
          exact extGroup_ne hk' hwb.1 (Nat.le_of_not_lt ha)
  · refine hk.slots.trans ?_; rw [hx]; exact hu.slots
  · refine hk.kernel.trans ?_; rw [hx]; exact hu.kernel
  · exact hft.trans (retire_same _ _ _)
  · refine hk.xm.trans ?_; rw [hx]; exact hu.xm
  · refine hk.sp.trans ?_; rw [hx]; exact hu.sp
  · refine hk.bp.trans ?_; rw [hx]; exact hu.bp
  · refine hk.xb.trans ?_; rw [hx]
  · refine Eq.trans ?_ (resolve_xb ea true s n hn)
    refine congrArg (nibble · n) (hk.xb.trans ?_); rw [hx]

/-- "r, ea" forms: what writing `ext` to C and `res` to `r` does. -/
theorem regForm_result (cls : BitVec 7) (r : Reg) (ea : Operand) (res : Word) (ext : Option Word) (s : State) :
    RegResult s ((((resolve ea false s).after.writeExt ext).setReg r res).fallThrough cls ea.words
      (resolve ea false s).cycles) cls r ea res ext := by
  have hu := resolve_reads ea false s
  have hx := writeExt_fields (resolve ea false s).after ext
  have hf : SameFixed s ((resolve ea false s).after.writeExt ext) := hu.fixed.trans (writeExt_same _ ext)
  refine
    { result := State.reg_setReg_same _ _ _, carry := fun e he hc => ?_
      frame := ⟨fun q hq => ?_, fun a => ?_, ?_, ?_, ?_, ?_, ?_, ?_, fun k hk => ?_, ?_, rfl, (hf.trans (setReg_same _ r res)).trans (retire_same _ _ _)⟩
      special := ⟨?_, ?_, ?_, ?_, fun n hn => ?_⟩, falls := ⟨?_, ?_⟩ }
  · subst he
    exact (State.reg_setReg_other _ r .c res (Ne.symm hc)).trans (State.reg_setReg_same _ _ _)
  · simp only [List.mem_cons, not_or] at hq
    refine (State.reg_setReg_other _ r q res hq.1).trans ?_
    rw [writeExt_reg _ _ q fun hc => ?_]
    · split
      · rfl
      · exact resolve_reg ea false s q ‹_›
    · cases ext with
      | none => rfl
      | some e => simp [hc] at hq
  · exact (congrArg (fun x : State => x.ram.read a.toNat) hx).trans
      (congrArg (fun m : Memory => m.read a.toNat) hu.ram)
  · exact (congrArg State.cells hx).trans hu.cells
  · exact (congrArg State.laneA hx).trans hu.laneA
  · exact (congrArg State.laneB hx).trans hu.laneB
  · exact (congrArg State.pmem hx).trans hu.pmem
  · exact (congrArg State.slots hx).trans hu.slots
  · exact (congrArg State.kernel hx).trans hu.kernel
  · exact (congrArg (fun x : State => sparseGet [] x.ext k) hx).trans (resolve_ext ea false s k hk)
  · exact (congrArg State.hcr hx).trans (resolve_hcr ea false s)
  · exact (congrArg State.xm hx).trans hu.xm
  · exact (congrArg State.sp hx).trans hu.sp
  · exact (congrArg State.bp hx).trans hu.bp
  · exact (congrArg State.xb hx).trans rfl
  · exact (congrArg (fun x : State => nibble x.xb n) hx).trans (resolve_xb ea false s n hn)
  · exact congrArg (· + 1 + BitVec.ofNat 16 ea.words) ((congrArg State.pc hx).trans hu.pc)
  · show State.baseCycles _ cls + _ + State.stall _ = _
    rw [resolve_cycles, State.baseCycles, State.setReg_stall]
    simp only [State.setReg_params, hf.params, (congrArg State.stall hx).trans hu.stall]

/-- The two ALU forms, NOT and NEG, stores and register loads are instances. -/
theorem aluEaR_result (cls : BitVec 7) (op : AluOp) (ea : Operand) (r : Reg) (s : State) :
    let v := resolve ea true s
    let x := op v.value (v.after.reg r) (v.after.reg .c)
    EaResult s (aluEaR cls op ea r s) cls ea x.res x.ext := eaForm_result cls ea _ _ s

theorem aluREa_result (cls : BitVec 7) (op : AluOp) (r : Reg) (ea : Operand) (s : State) :
    let v := resolve ea false s
    let x := op (v.after.reg r) v.value (v.after.reg .c)
    RegResult s (aluREa cls op r ea s) cls r ea x.res x.ext := regForm_result cls r ea _ _ s

theorem aluEa_result (cls : BitVec 7) (op : Word → AluResult) (ea : Operand) (s : State) :
    let x := op (resolve ea true s).value
    EaResult s (aluEa cls op ea s) cls ea x.res x.ext := eaForm_result cls ea _ _ s

theorem storeEa_result (cls : BitVec 7) (src : State → Word) (ea : Operand) (s : State) :
    EaResult s (storeEa cls src ea s) cls ea (src (resolve ea true s).after) none := eaForm_result cls ea _ none s

/-- An instruction that only resolves `ea` and moves pc. -/
theorem readForm_frame (ea : Operand) (s : State) (next : Word) (cycles : Nat) :
    ReadFrame s ((resolve ea false s).after.retire next cycles) ea [] ∧
      SameSpecial s ((resolve ea false s).after.retire next cycles) ea false ∧
      ((resolve ea false s).after.retire next cycles).cost = cycles + s.stall := by
  have hu := resolve_reads ea false s
  refine ⟨⟨fun q _ => ?_, fun a => ?_, hu.cells, hu.laneA, hu.laneB, hu.pmem, hu.slots, hu.kernel, fun k hk => ?_, ?_,
    rfl, hu.fixed.trans (retire_same _ _ _)⟩, ⟨hu.xm, hu.sp, hu.bp, rfl, fun n hn => ?_⟩, ?_⟩
  · split
    · rfl
    · exact resolve_reg ea false s q ‹_›
  · exact congrArg (fun m : Memory => m.read a.toNat) hu.ram
  · exact resolve_ext ea false s k hk
  · exact resolve_hcr ea false s
  · exact resolve_xb ea false s n hn
  · exact congrArg (cycles + ·) hu.stall

/-! ### Lengths (R109) -/

theorem paramsEnd_code {s u : State} (h : u.code = s.code) (a : Word) (n k : Nat) :
    paramsEnd u a n k = paramsEnd s a n k := by
  induction n generalizing k with
  | zero => rfl
  | succ n ih => simp only [paramsEnd, State.codeAt, h, ih]

/-- `Len(a)` reads the code store and nothing else. -/
theorem instrLen_code {s u : State} (h : u.code = s.code) (a : Word) : instrLen u a = instrLen s a := by
  unfold instrLen
  rw [show u.codeAt a = s.codeAt a from congrArg (fun m : Memory => m.read a.toNat) h]
  simp only [paramsEnd_code h]

end Sys2Proof.Machine
end

