-- ==== Sys2Proof/Laws/Calls.lean ====
section
/-! SUPPORT. What the parameter pushes of a call can do, said once (R290). -/
namespace Sys2Proof.Machine
open Sys2Proof.Config

/-- `u` is `s` but for general registers, XB, HCR, EXT groups and data RAM: all that the pushes may change. -/
structure Pushes (s u : State) : Prop where
  xm : u.xm = s.xm
  pc : u.pc = s.pc
  sp : u.sp = s.sp
  bp : u.bp = s.bp
  cells : u.cells = s.cells
  laneA : u.laneA = s.laneA
  laneB : u.laneB = s.laneB
  pmem : u.pmem = s.pmem
  stall : u.stall = s.stall
  slots : u.slots = s.slots
  kernel : u.kernel = s.kernel
  fixed : SameFixed s u
  hcr : u.hcr = s.hcr ∨ u.hcr = s.hcr ||| 0x0008

theorem Pushes.refl (s : State) : Pushes s s :=
  ⟨rfl, rfl, rfl, rfl, rfl, rfl, rfl, rfl, rfl, rfl, rfl, .refl s, .inl rfl⟩

theorem Pushes.trans {s t u : State} (h : Pushes s t) (k : Pushes t u) : Pushes s u := by
  refine ⟨k.xm.trans h.xm, k.pc.trans h.pc, k.sp.trans h.sp, k.bp.trans h.bp, k.cells.trans h.cells,
    k.laneA.trans h.laneA, k.laneB.trans h.laneB, k.pmem.trans h.pmem, k.stall.trans h.stall, k.slots.trans h.slots,
    k.kernel.trans h.kernel, h.fixed.trans k.fixed, ?_⟩
  rcases h.hcr with h1 | h1 <;> rcases k.hcr with h2 | h2 <;> rw [h2, h1]
  · exact .inl rfl
  · exact .inr rfl
  · exact .inr rfl
  · exact .inr (word_or_self _ _)

/-- STACK stays once it is raised. -/
theorem Pushes.keepsStack {s t u : State} (h : s.hcr ||| 0x0008 = t.hcr) (k : Pushes t u) : u.hcr = s.hcr ||| 0x0008 := by
  rcases k.hcr with h2 | h2 <;> rw [h2, ← h]
  exact word_or_self _ _

theorem hcrAfter_cases (s : State) (ea : Operand) : s.hcrAfter ea = s.hcr ∨ s.hcrAfter ea = s.hcr ||| 0x0008 := by
  unfold State.hcrAfter
  split
  · exact .inl rfl
  · split
    · exact .inl rfl
    · exact .inr rfl

/-- HCR after an operand: STACK joins it exactly when its read is outside the window. -/
theorem hcrAfter_of_faults {s : State} {ea : Operand} (h : s.readFaults ea) : s.hcrAfter ea = s.hcr ||| 0x0008 := by
  obtain ⟨a, e, h⟩ := h
  unfold State.hcrAfter
  rw [e]
  exact if_neg h

theorem hcrAfter_of_not_faults {s : State} {ea : Operand} (h : ¬s.readFaults ea) : s.hcrAfter ea = s.hcr := by
  unfold State.hcrAfter
  split
  · rfl
  · rename_i a e
    exact if_pos (Decidable.not_not.1 fun k => h ⟨a, e, k⟩)

theorem Pushes.resolve (ea : Operand) (s : State) : Pushes s (resolve ea false s).after := by
  have h := resolve_reads ea false s
  exact ⟨h.xm, h.pc, h.sp, h.bp, h.cells, h.laneA, h.laneB, h.pmem, h.stall, h.slots, h.kernel, h.fixed,
    by rw [resolve_hcr]; exact hcrAfter_cases s ea⟩

theorem Pushes.sWrite (s : State) (a v : Word) : Pushes s (s.sWrite a v) := by
  rcases s.sWrite_cases a v with ⟨_, e⟩ | ⟨_, e⟩ <;> rw [e]
  · exact ⟨rfl, rfl, rfl, rfl, rfl, rfl, rfl, rfl, rfl, rfl, rfl, by constructor <;> rfl, .inl rfl⟩
  · exact ⟨rfl, rfl, rfl, rfl, rfl, rfl, rfl, rfl, rfl, rfl, rfl, by constructor <;> rfl, .inr rfl⟩

theorem sWrite_gpr (s : State) (a v : Word) : (s.sWrite a v).gpr = s.gpr := by rw [s.sWrite_fields]

theorem sWrite_xb (s : State) (a v : Word) : (s.sWrite a v).xb = s.xb := by rw [s.sWrite_fields]

theorem inWindow_same {s u : State} (h : SameFixed s u) (a : Word) : u.inWindow a = s.inWindow a := by
  unfold State.inWindow; rw [h.sbot, h.stop]

/-- Different offsets name different slots. -/
theorem slot_ne {a : Word} {i j : Nat} (hi : i < 65536) (hj : j < 65536) (h : i ≠ j) :
    a + BitVec.ofNat 16 i ≠ a + BitVec.ofNat 16 j := by
  intro e
  have := congrArg BitVec.toNat e
  simp only [BitVec.toNat_add, BitVec.toNat_ofNat] at this
  have := a.isLt
  omega

theorem slot_add (a : Word) (i : Nat) : a + 2 + BitVec.ofNat 16 i = a + BitVec.ofNat 16 (2 + i) := by
  apply BitVec.eq_of_toNat_eq
  simp only [BitVec.toNat_add, BitVec.toNat_ofNat, show (2 : Word).toNat = 2 from rfl]
  omega

theorem pushParams_pushes (ps : List Operand) (slot : Word) (s : State) : Pushes s (pushParams ps slot s).2 := by
  induction ps generalizing slot s with
  | nil => exact .refl s
  | cons p ps ih => exact ((Pushes.resolve p s).trans (.sWrite _ _ _)).trans (ih _ _)

/-- The pushes change no register but the parameters' pointer bases. -/
theorem pushParams_reg (ps : List Operand) (slot : Word) (s : State) (q : Reg) (h : ∀ o ∈ ps, incBase o ≠ some q) :
    (pushParams ps slot s).2.reg q = s.reg q := by
  induction ps generalizing slot s with
  | nil => rfl
  | cons p ps ih =>
    refine (ih _ _ fun o ho => h o (List.mem_cons_of_mem _ ho)).trans ?_
    exact (congrArg (·.get q) (sWrite_gpr _ _ _)).trans (resolve_reg p false s q (h p List.mem_cons_self))

theorem pushParams_xb (ps : List Operand) (slot : Word) (s : State) (n : Ptr)
    (h : ∀ o ∈ ps, incBase o ≠ some n.toReg) : nibble (pushParams ps slot s).2.xb n = nibble s.xb n := by
  induction ps generalizing slot s with
  | nil => rfl
  | cons p ps ih =>
    refine (ih _ _ fun o ho => h o (List.mem_cons_of_mem _ ho)).trans ?_
    exact (congrArg (nibble · n) (sWrite_xb _ _ _)).trans (resolve_xb p false s n (h p List.mem_cons_self))

/-- The pushes change no word of data RAM outside their slots. -/
theorem pushParams_ram (ps : List Operand) (slot : Word) (s : State) (a : Word)
    (h : ∀ k, k < ps.length → a ≠ slot + BitVec.ofNat 16 k) : (pushParams ps slot s).2.ramAt a = s.ramAt a := by
  induction ps generalizing slot s with
  | nil => rfl
  | cons p ps ih =>
    refine (ih _ _ fun k hk e => h (k + 1) (by simpa using hk) ?_).trans ?_
    · rw [e]; apply BitVec.eq_of_toNat_eq; simp [BitVec.toNat_add]; omega
    · rw [State.ramAt_sWrite, if_neg fun e => h 0 (by simp) (by simpa using e.2)]
      exact congrArg (fun m : Memory => m.read a.toNat) (resolve_reads p false s).ram

/-- The pushes change no word of data RAM outside the window. -/
theorem pushParams_outside (ps : List Operand) (slot : Word) (s : State) (a : Word) (h : s.inWindow a = false) :
    (pushParams ps slot s).2.ramAt a = s.ramAt a := by
  induction ps generalizing slot s with
  | nil => rfl
  | cons p ps ih =>
    have hr : Pushes s ((resolve p false s).after.sWrite slot (resolve p false s).value) :=
      (Pushes.resolve p s).trans (.sWrite _ _ _)
    refine (ih _ _ (by rw [inWindow_same hr.fixed]; exact h)).trans ?_
    rw [State.ramAt_sWrite, if_neg]
    · exact congrArg (fun m : Memory => m.read a.toNat) (resolve_reads p false s).ram
    · rintro ⟨h1, rfl⟩
      rw [inWindow_same (resolve_reads p false s).fixed, h] at h1
      cases h1

/-- The slot of parameter `i` holds its value, if the window admits the push. -/
theorem pushParams_slot (ps : List Operand) (slot : Word) (s : State) (hl : ps.length ≤ 65536) (i : Nat)
    (h : i < ps.length) (hw : s.inWindow (slot + BitVec.ofNat 16 i) = true) :
    (pushParams ps slot s).2.ramAt (slot + BitVec.ofNat 16 i) =
      (resolve ps[i] false (pushParams (ps.take i) slot s).2).value := by
  induction ps generalizing slot s i with
  | nil => simp at h
  | cons p ps ih =>
    simp only [List.length_cons] at h hl
    cases i with
    | zero =>
      refine (pushParams_ram ps _ _ _ fun k hk e => ?_).trans ?_
      · have := congrArg BitVec.toNat e
        simp [BitVec.toNat_add] at this
        omega
      · rw [State.ramAt_sWrite, if_pos]
        · rfl
        · exact ⟨by rw [inWindow_same (resolve_reads p false s).fixed]; simpa using hw, by simp⟩
    | succ i =>
      have e : slot + BitVec.ofNat 16 (i + 1) = slot + 1 + BitVec.ofNat 16 i := by
        apply BitVec.eq_of_toNat_eq; simp [BitVec.toNat_add]; omega
      rw [e] at hw ⊢
      refine (ih (slot + 1) _ (by omega) i (by omega) ?_).trans rfl
      rw [inWindow_same ((Pushes.resolve p s).trans (.sWrite _ _ _)).fixed]; exact hw

/-- A push outside the window raises STACK. -/
theorem pushParams_stack (ps : List Operand) (slot : Word) (s : State) (i : Nat) (h : i < ps.length)
    (hw : s.inWindow (slot + BitVec.ofNat 16 i) = false) : (pushParams ps slot s).2.hcr = s.hcr ||| 0x0008 := by
  induction ps generalizing slot s i with
  | nil => simp at h
  | cons p ps ih =>
    simp only [List.length_cons] at h
    have h1 := (Pushes.resolve p s).hcr
    have hr : Pushes s ((resolve p false s).after.sWrite slot (resolve p false s).value) :=
      (Pushes.resolve p s).trans (.sWrite _ _ _)
    cases i with
    | zero =>
      refine Pushes.keepsStack ?_ (pushParams_pushes ps _ _)
      rw [State.hcr_sWrite, if_neg]
      · rcases h1 with e | e <;> rw [e]
        · rfl
        · exact (word_or_self _ _).symm
      · rw [inWindow_same (resolve_reads p false s).fixed]; simpa using hw
    | succ i =>
      have e : slot + BitVec.ofNat 16 (i + 1) = slot + 1 + BitVec.ofNat 16 i := by
        apply BitVec.eq_of_toNat_eq; simp [BitVec.toNat_add]; omega
      rw [e] at hw
      refine (ih (slot + 1) _ i (by omega) ?_).trans ?_
      · rw [inWindow_same hr.fixed]; exact hw
      · rcases hr.hcr with e | e <;> rw [e]
        exact word_or_self _ _

/-- A parameter read outside the window raises STACK. -/
theorem pushParams_readFaults (ps : List Operand) (slot : Word) (s : State) (i : Nat) (h : i < ps.length)
    (hf : (pushParams (ps.take i) slot s).2.readFaults ps[i]) : (pushParams ps slot s).2.hcr = s.hcr ||| 0x0008 := by
  induction ps generalizing slot s i with
  | nil => simp at h
  | cons p ps ih =>
    have hr : Pushes s ((resolve p false s).after.sWrite slot (resolve p false s).value) :=
      (Pushes.resolve p s).trans (.sWrite _ _ _)
    cases i with
    | zero =>
      have e : (resolve p false s).after.hcr = s.hcr ||| 0x0008 := by
        rw [resolve_hcr]; exact hcrAfter_of_faults hf
      exact Pushes.keepsStack e.symm ((Pushes.sWrite _ _ _).trans (pushParams_pushes ps _ _))
    | succ i =>
      refine (ih (slot + 1) _ i (by simpa using h) hf).trans ?_
      rcases hr.hcr with e | e <;> rw [e]
      exact word_or_self _ _

/-- With every push and every parameter's read inside the window HCR stays. -/
theorem pushParams_quiet (ps : List Operand) (slot : Word) (s : State)
    (hw : ∀ i, i < ps.length → s.inWindow (slot + BitVec.ofNat 16 i) = true)
    (hf : ∀ (i : Nat) (h : i < ps.length), ¬(pushParams (ps.take i) slot s).2.readFaults ps[i]) :
    (pushParams ps slot s).2.hcr = s.hcr := by
  induction ps generalizing slot s with
  | nil => rfl
  | cons p ps ih =>
    have hr : Pushes s ((resolve p false s).after.sWrite slot (resolve p false s).value) :=
      (Pushes.resolve p s).trans (.sWrite _ _ _)
    have h0 : s.inWindow slot = true := by simpa using hw 0 (by simp)
    refine (ih (slot + 1) _ (fun i hi => ?_) (fun i hi => ?_)).trans ?_
    · have e : slot + 1 + BitVec.ofNat 16 i = slot + BitVec.ofNat 16 (i + 1) := by
        apply BitVec.eq_of_toNat_eq; simp [BitVec.toNat_add]; omega
      rw [inWindow_same hr.fixed, e]
      exact hw (i + 1) (by simpa using hi)
    · exact hf (i + 1) (by simpa using hi)
    · rw [State.hcr_sWrite, if_pos (by rw [inWindow_same (resolve_reads p false s).fixed]; exact h0), resolve_hcr]
      exact hcrAfter_of_not_faults (hf 0 (by simp))

/-- One parameter more: it is resolved in the state the pushes before it left, and pushed above them. -/
theorem pushParams_snoc (ps : List Operand) (p : Operand) (slot : Word) (s : State) :
    (pushParams (ps ++ [p]) slot s).2 =
      (resolve p false (pushParams ps slot s).2).after.sWrite (slot + BitVec.ofNat 16 ps.length)
        (resolve p false (pushParams ps slot s).2).value := by
  induction ps generalizing slot s with
  | nil => simp [pushParams]
  | cons q ps ih =>
    refine (ih (slot + 1) _).trans ?_
    have e : slot + 1 + BitVec.ofNat 16 ps.length = slot + BitVec.ofNat 16 (q :: ps).length := by
      apply BitVec.eq_of_toNat_eq; simp [BitVec.toNat_add]; omega
    rw [e]; rfl

/-- The parameters' cycles. -/
theorem pushParams_cycles (ps : List Operand) (slot : Word) (s : State) :
    (pushParams ps slot s).1 =
      (ps.map fun o => s.params.cycParam + s.params.cycMode[o.mode.toNat]'o.mode.isLt).sum := by
  induction ps generalizing slot s with
  | nil => rfl
  | cons p ps ih =>
    simp only [pushParams, List.map_cons, List.sum_cons]
    rw [ih, resolve_cycles]
    simp only [((Pushes.resolve p s).trans (.sWrite _ _ _)).fixed.params]

end Sys2Proof.Machine
end

