-- ==== Sys2Proof/Laws/Agents.lean ====
section
/-! SUPPORT. What the dispatcher's effects and the scheduler can do, said once. -/
namespace Sys2Proof.Machine
open Sys2Proof.Config

/-! ### Operands resolved in a row (R311) -/

theorem resolveAll_reads (ps : List Operand) (s : State) : Reads s (resolveAll ps s).2 := by
  induction ps generalizing s with
  | nil => exact .refl s
  | cons p ps ih => exact (resolve_reads p false s).trans (ih _)

theorem resolveAll_length (ps : List Operand) (s : State) : (resolveAll ps s).1.length = ps.length := by
  induction ps generalizing s with
  | nil => rfl
  | cons p ps ih => simp [resolveAll, ih]

/-- One operand more: it is resolved in the state the operands before it left. -/
theorem resolveAll_snoc (ps : List Operand) (p : Operand) (s : State) :
    resolveAll (ps ++ [p]) s = ((resolveAll ps s).1 ++ [(resolve p false (resolveAll ps s).2).value],
      (resolve p false (resolveAll ps s).2).after) := by
  induction ps generalizing s with
  | nil => rfl
  | cons q ps ih => simp only [List.cons_append, resolveAll]; rw [ih]

/-- The value of each operand, in the state the operands before it left. -/
theorem resolveAll_value (ps : List Operand) (s : State) (i : Nat) (h : i < ps.length) :
    (resolveAll ps s).1[i]? = some (resolve ps[i] false (resolveAll (ps.take i) s).2).value := by
  induction ps generalizing s i with
  | nil => simp at h
  | cons q ps ih =>
    cases i with
    | zero => rfl
    | succ i => exact ih _ i (by simpa using h)

theorem resolveAll_hcr (ps : List Operand) (s : State) :
    (resolveAll ps s).2.hcr = s.hcr ∨ (resolveAll ps s).2.hcr = s.hcr ||| 0x0008 := by
  induction ps generalizing s with
  | nil => exact .inl rfl
  | cons p ps ih =>
    have h := ih (resolve p false s).after
    rw [resolve_hcr] at h
    show (resolveAll ps _).2.hcr = _ ∨ (resolveAll ps _).2.hcr = _
    rcases hcrAfter_cases s p with e | e <;> rw [e] at h
    · exact h
    · rcases h with h | h <;> rw [h]
      · exact .inr rfl
      · exact .inr (word_or_self _ _)

/-! ### Agents' writes -/

/-- The states agree on everything an agent outside the block may not touch: registers, halt causes, rings and busy
counters, coprocessor registers, peripheral memory, STALL and what no instruction touches (R350, R353). -/
structure AgentOnly (s t : State) : Prop where
  gpr : t.gpr = s.gpr
  xm : t.xm = s.xm
  xb : t.xb = s.xb
  pc : t.pc = s.pc
  sp : t.sp = s.sp
  bp : t.bp = s.bp
  hcr : t.hcr = s.hcr
  laneA : t.laneA = { s.laneA with latch := t.laneA.latch }
  laneB : t.laneB = { s.laneB with latch := t.laneB.latch }
  pmem : t.pmem = s.pmem
  stall : t.stall = s.stall
  cost : t.cost = s.cost
  fixed : SameFixed s t

theorem AgentOnly.refl (s : State) : AgentOnly s s :=
  ⟨rfl, rfl, rfl, rfl, rfl, rfl, rfl, rfl, rfl, rfl, rfl, rfl, .refl s⟩

theorem AgentOnly.trans {s t u : State} (h : AgentOnly s t) (k : AgentOnly t u) : AgentOnly s u :=
  ⟨k.gpr.trans h.gpr, k.xm.trans h.xm, k.xb.trans h.xb, k.pc.trans h.pc, k.sp.trans h.sp, k.bp.trans h.bp,
    k.hcr.trans h.hcr, k.laneA.trans (by rw [h.laneA]), k.laneB.trans (by rw [h.laneB]), k.pmem.trans h.pmem,
    k.stall.trans h.stall, k.cost.trans h.cost, h.fixed.trans k.fixed⟩

/-- The tick of a kernel call's answer changes nothing an agent may not touch. -/
theorem AgentOnly.nextTick (s : State) : AgentOnly s s.nextTick :=
  ⟨rfl, rfl, rfl, rfl, rfl, rfl, rfl, rfl, rfl, rfl, rfl, rfl, by constructor <;> rfl⟩

/-- Raising a cause changes nothing else. -/
theorem SameFixed.raise {s t : State} (h : SameFixed s t) (c : HaltCause) : SameFixed s (t.raise c) :=
  ⟨h.code, h.sbot, h.stop, h.busMap, h.timers, h.bpmap, h.params, h.image, h.call, h.started, h.host, h.reply, h.lineCalls⟩

theorem AgentOnly.setRam (s : State) (a v : Word) : AgentOnly s (s.setRam a v) :=
  ⟨rfl, rfl, rfl, rfl, rfl, rfl, rfl, rfl, rfl, rfl, rfl, rfl, by constructor <;> rfl⟩

theorem AgentOnly.setSlot (s : State) (i : Fin 16) (x : TaskSlot) : AgentOnly s (s.setSlot i x) :=
  ⟨rfl, rfl, rfl, rfl, rfl, rfl, rfl, rfl, rfl, rfl, rfl, rfl, by constructor <;> rfl⟩

@[simp] theorem State.allocate_slots (s : State) (slot : Fin 16) (ps kernel : List Word) :
    (s.allocate slot ps kernel).slots = s.slots.set slot { status := .queued, dispatched := false, params := ps } := rfl

@[simp] theorem State.allocate_kernel (s : State) (slot : Fin 16) (ps kernel : List Word) :
    (s.allocate slot ps kernel).kernel = kernel := rfl

@[simp] theorem State.allocate_ram (s : State) (slot : Fin 16) (ps kernel : List Word) :
    (s.allocate slot ps kernel).ram = s.ram := rfl

@[simp] theorem State.allocate_cells (s : State) (slot : Fin 16) (ps kernel : List Word) :
    (s.allocate slot ps kernel).cells = s.cells := rfl

@[simp] theorem State.allocate_laneA (s : State) (slot : Fin 16) (ps kernel : List Word) :
    (s.allocate slot ps kernel).laneA = s.laneA := rfl

@[simp] theorem State.allocate_laneB (s : State) (slot : Fin 16) (ps kernel : List Word) :
    (s.allocate slot ps kernel).laneB = s.laneB := rfl

/-- A task allocation changes the slots and the dispatcher's own state only. -/
theorem AgentOnly.allocate (s : State) (slot : Fin 16) (ps kernel : List Word) :
    AgentOnly s (s.allocate slot ps kernel) :=
  ⟨rfl, rfl, rfl, rfl, rfl, rfl, rfl, rfl, rfl, rfl, rfl, rfl, by constructor <;> rfl⟩

theorem AgentOnly.busSet (s : State) (c : Nat) (v : Word) : AgentOnly s (s.busSet c v) := by
  unfold State.busSet
  split
  · exact .refl s
  · exact .refl s
  · exact ⟨rfl, rfl, rfl, rfl, rfl, rfl, rfl, rfl, rfl, rfl, rfl, rfl, by constructor <;> rfl⟩
  · rename_i l _
    cases l <;> exact ⟨rfl, rfl, rfl, rfl, rfl, rfl, rfl, rfl, rfl, rfl, rfl, rfl, by constructor <;> rfl⟩
  · exact ⟨rfl, rfl, rfl, rfl, rfl, rfl, rfl, rfl, rfl, rfl, rfl, rfl, by constructor <;> rfl⟩

theorem AgentOnly.foldl {α : Type} {f : State → α → State} (hf : ∀ s x, AgentOnly s (f s x)) (l : List α)
    (s : State) : AgentOnly s (l.foldl f s) := by
  induction l generalizing s with
  | nil => exact .refl s
  | cons x xs ih => exact (hf s x).trans (ih _)

theorem AgentOnly.agentWrites (s : State) (ok : Word → Bool) (l : List (Word × Word)) :
    AgentOnly s (s.agentWrites ok l) := by
  refine AgentOnly.foldl (fun s e => ?_) l s
  split
  · exact .setRam _ _ _
  · exact .refl _

/-- An agent's writes change data RAM where it is allowed to write, and nothing else. -/
theorem agentWrites_ram (s : State) (ok : Word → Bool) (l : List (Word × Word)) (a : Word) (h : ok a = false) :
    (s.agentWrites ok l).ramAt a = s.ramAt a := by
  unfold State.agentWrites
  induction l generalizing s with
  | nil => rfl
  | cons e l ih =>
    refine (ih _).trans ?_
    dsimp only
    split
    · rw [State.ramAt_setRam, if_neg]
      rintro rfl
      simp_all
    · rfl

theorem agentWrites_fields (s : State) (ok : Word → Bool) (l : List (Word × Word)) :
    s.agentWrites ok l = { s with ram := (s.agentWrites ok l).ram } := by
  unfold State.agentWrites
  induction l generalizing s with
  | nil => rfl
  | cons e l ih =>
    rw [List.foldl_cons, ih]
    split <;> rfl

theorem foldBusSet_ram (l : List (Nat × Word)) (s : State) :
    (l.foldl (fun s x => s.busSet x.1 x.2) s).ram = s.ram := by
  induction l generalizing s with
  | nil => rfl
  | cons e l ih => exact (ih _).trans (s.busSet_busOnly _ _).ram

theorem foldDiscard_ram (l : List (Fin 16)) (s : State) :
    (l.foldl (fun s i => s.discardSlot i) s).ram = s.ram := by
  induction l generalizing s with
  | nil => rfl
  | cons e l ih => exact (ih _).trans rfl

/-- The dispatcher's effects touch only what its contract lets them (R350). -/
theorem kernelEffects_only (s : State) (e : KernelEffects) : AgentOnly s (s.kernelEffects e) := by
  have h1 := AgentOnly.agentWrites s (fun a => a.toNat < periphBase) e.ram
  have h2 := AgentOnly.foldl (fun (s : State) (x : Nat × Word) => AgentOnly.busSet s x.1 x.2) e.bus
    (s.agentWrites (fun a => a.toNat < periphBase) e.ram)
  have h3 := AgentOnly.foldl (fun (s : State) (i : Fin 16) => AgentOnly.setSlot s i emptySlot) e.discard
    (e.bus.foldl (fun s x => s.busSet x.1 x.2) (s.agentWrites (fun a => a.toNat < periphBase) e.ram))
  have h := (h1.trans h2).trans h3
  exact ⟨h.gpr, h.xm, h.xb, h.pc, h.sp, h.bp, h.hcr, h.laneA, h.laneB, h.pmem, h.stall, h.cost,
    ⟨h.fixed.code, h.fixed.sbot, h.fixed.stop, h.fixed.busMap, h.fixed.timers, h.fixed.bpmap, h.fixed.params,
      h.fixed.image, h.fixed.call, h.fixed.started, h.fixed.host, h.fixed.reply, h.fixed.lineCalls⟩⟩

theorem kernelEffects_ram (s : State) (e : KernelEffects) (a : Word) (h : 0xFC00 ≤ a) :
    (s.kernelEffects e).ramAt a = s.ramAt a := by
  show Memory.read (List.foldl _ _ e.discard : State).ram _ = _
  have h3 := foldDiscard_ram e.discard
    (e.bus.foldl (fun s x => s.busSet x.1 x.2) (s.agentWrites (fun a => a.toNat < periphBase) e.ram))
  rw [h3, foldBusSet_ram]
  refine agentWrites_ram s _ e.ram a ?_
  have h' : 0xFC00 ≤ a.toNat := h
  exact decide_eq_false (by simp only [periphBase]; omega)

theorem kernelEffects_kernel (s : State) (e : KernelEffects) : (s.kernelEffects e).kernel = e.kernel := rfl

theorem pointerValid_iff (r : Nat × Nat) : pointerValid r = true ↔ r.1 < 0xFC00 ∧ r.1 + r.2 ≤ 0xFC00 := by
  unfold pointerValid periphBase
  rw [Bool.and_eq_true, decide_eq_true_eq, decide_eq_true_eq]

theorem taskValid_iff (params : List Word) :
    taskValid params = true ↔ ∀ g ∈ taskRanges params, g.1 < 0xFC00 ∧ g.1 + g.2 ≤ 0xFC00 := by
  unfold taskValid
  rw [List.all_eq_true]
  exact forall_congr' fun g => imp_congr_right fun _ => pointerValid_iff g

/-- A call has a shape exactly when its selector is an operation whose count is the call's (R350). -/
theorem callShape_eq_some {k : Dispatcher} {selector : Word} {rest : List Word} {shape : KernelShape} :
    callShape k (selector :: rest) = some shape ↔
      ∃ op, k.op selector = some op ∧ op.count = rest.length + 1 ∧ op.shape = shape := by
  cases h : k.op selector with
  | none => simp [callShape, h]
  | some op => simp [callShape, h, eq_comm (a := op.count)]

/-- What a kernel call comes to, by the shape of its operation (R350). -/
theorem kernelCall_cases (s : State) (k : Dispatcher) (params : List Word) :
    (callShape k params = none ∧ s.kernelCall k params = s.invalidCall) ∨
    (∃ n a, callShape k params = some (.immediate n) ∧ a = k.immediate params s.kernelView ∧
      s.kernelCall k params =
        { cycles := n, result := some (a.hi, a.lo), after := s.nextTick.kernelEffects a.effects }) ∨
    (∃ a, callShape k params = some .callback ∧ a = k.callback params s.kernelView ∧ s.kernelCall k params =
      { cycles := a.result.cycles, result := some (a.result.hi, a.result.lo),
        after := (s.nextTick.kernelEffects a.effects).raise .callback }) ∨
    (∃ a, callShape k params = some .task ∧ a = k.task params s.kernelView ∧
      s.slots[a.slot].status = .empty ∧ taskValid params = true ∧ s.kernelCall k params =
        { cycles := a.result.cycles, result := some (a.result.hi, a.result.lo),
          after := (s.nextTick.allocate a.slot params a.kernel).raise .callback }) ∨
    (∃ a, callShape k params = some .task ∧ a = k.task params s.kernelView ∧
      ¬(s.slots[a.slot].status = .empty ∧ taskValid params = true) ∧
      s.kernelCall k params = s.nextTick.invalidCall) := by
  unfold State.kernelCall
  cases h : callShape k params with
  | none => exact .inl ⟨rfl, rfl⟩
  | some shape =>
    right
    cases shape with
    | immediate n => exact .inl ⟨n, _, rfl, rfl, rfl⟩
    | callback => exact .inr (.inl ⟨_, rfl, rfl, rfl⟩)
    | task =>
      by_cases hv : s.slots[(k.task params s.kernelView).slot].status = .empty ∧ taskValid params = true
      · exact .inr (.inr (.inl ⟨_, rfl, rfl, hv.1, hv.2, if_pos hv⟩))
      · exact .inr (.inr (.inr ⟨_, rfl, rfl, hv, if_neg hv⟩))

end Sys2Proof.Machine
end

