-- ==== Sys2Proof/Laws/Boundary.lean ====
section
/-! SUPPORT. What the checks of an import and the host's write of the code store come to, said once. -/
namespace Sys2Proof.Machine
open Sys2Proof.Config

/-- Import accepts exactly the contents that meet the invariants of R360. -/
theorem importFault_none_iff (p : Params) (x : Snapshot) :
    (x.hcr &&& 0xFC00 = 0 ∧ x.laneA.ring.length ≤ p.fifoDepth ∧
      x.laneB.ring.length ≤ p.fifoDepth ∧ x.timers.acyc < p.cyclesPerSample ∧ x.timers.asmp < 512 ∧
      x.timers.lcyc < p.cyclesPerLine ∧ x.timers.line < p.linesPerFrame) ↔ importFault p x = none := by
  have hh : x.hcr.extractLsb' 10 6 = 0 ↔ x.hcr &&& 0xFC00 = 0 := by
    constructor
    · intro h
      apply BitVec.eq_of_getLsbD_eq
      intro i hi
      rw [BitVec.getLsbD_and]
      by_cases h10 : i < 10
      · have : (0xFC00 : Word).getLsbD i = false := by revert i; decide
        rw [this]; simp
      · have := congrArg (fun w => w.getLsbD (i - 10)) h
        simp only [BitVec.getLsbD_extractLsb', show 10 + (i - 10) = i by omega, show i - 10 < 6 by omega, decide_true, Bool.true_and] at this
        rw [this]; simp
    · intro h
      apply BitVec.eq_of_getLsbD_eq
      intro i hi
      have := congrArg (fun w => w.getLsbD (10 + i)) h
      simp only [BitVec.getLsbD_and] at this
      have e : (0xFC00 : Word).getLsbD (10 + i) = true := by clear this h; revert i; decide
      have e' : (0 : Word).getLsbD (10 + i) = false := by simp
      rw [e, Bool.and_true] at this
      rw [BitVec.getLsbD_extractLsb', this]; simp
  unfold importFault
  rw [← hh]
  repeat' split
  all_goals simp_all

/-- An import that the checks accept replaces the contents. -/
theorem importState_of_good {s : State} {x : Snapshot} (h : importFault s.params x = none) :
    s.hostCall (.importState x) = { s.imported x with reply := .done } := by
  show s.importState x = _
  unfold State.importState
  rw [h]

/-- The host's write of the code store takes effect while INIT is set, and is turned away otherwise. -/
theorem hostCall_writeCode (s : State) (a v : Word) :
    s.hostCall (.writeCode a v) =
      if s.hcr &&& 0x0020 = 0 then { s with reply := .rejected .notInitialising }
      else { s with code := s.code.write a.toNat v, reply := .done } := by
  have hm : HaltCause.init.mask = 0x0020 := by decide
  show s.writeCode a v = _
  unfold State.writeCode
  rw [hm]

end Sys2Proof.Machine
end

