-- ==== Sys2Proof/Laws/Canonical.lean ====
section
/-! SUPPORT. Every operation over memory keeps the canonical form of data RAM, STORE cells, EXT states and
coprocessor registers, the rings within FIFO_DEPTH, and HCR to the ten causes. -/
namespace Sys2Proof.Machine
open Sys2Proof.Config

/-- The part of the invariant that instructions and agents could break. -/
structure State.DataOk (s : State) : Prop where
  ram : s.ram.wf memoryWords
  cells : s.cells.wf busCells
  ext : ∃ bound, sparseWf [] bound s.ext
  laneA : s.laneA.Ok s.params
  laneB : s.laneB.Ok s.params
  hcr : causesOnly s.hcr
  stored : ∀ e ∈ s.cells, cellKind s.busMap e.1 = .store

/-- A state that agrees on the data is as good. -/
theorem State.DataOk.of_eq {s t : State} (h : s.DataOk) (ram : t.ram = s.ram) (cells : t.cells = s.cells)
    (ext : t.ext = s.ext) (laneA : t.laneA = s.laneA) (laneB : t.laneB = s.laneB) (hcr : t.hcr = s.hcr)
    (params : t.params = s.params) (busMap : t.busMap = s.busMap := by rfl) : t.DataOk :=
  ⟨ram ▸ h.ram, cells ▸ h.cells, ext ▸ h.ext, by rw [laneA, params]; exact h.laneA,
    by rw [laneB, params]; exact h.laneB, hcr ▸ h.hcr,
    by rw [cells, busMap]; exact h.stored⟩

theorem toNat_lt_memoryWords (a : Word) : a.toNat < memoryWords := a.isLt

theorem causesOnly_or {w : Word} (h : causesOnly w) (k : HaltCause) : causesOnly (w ||| k.mask) := by
  have hk : k.mask &&& 0xFC00 = 0 := by cases k <;> decide
  have hd : (w ||| k.mask) &&& 0xFC00 = (w &&& 0xFC00) ||| (k.mask &&& 0xFC00) := by
    ext i; simp [Bool.and_or_distrib_right]
  show _ = _
  rw [hd, h, hk]; rfl

theorem State.DataOk.raise {s : State} (h : s.DataOk) (k : HaltCause) : (s.raise k).DataOk :=
  ⟨h.ram, h.cells, h.ext, h.laneA, h.laneB, causesOnly_or h.hcr k, h.stored⟩

theorem State.DataOk.setRam {s : State} (h : s.DataOk) (a v : Word) : (s.setRam a v).DataOk :=
  ⟨Memory.write_wf h.ram (toNat_lt_memoryWords a) v, h.cells, h.ext, h.laneA, h.laneB, h.hcr, h.stored⟩

theorem State.DataOk.setExt {s : State} (h : s.DataOk) (k : Nat) (st : List Word) : (s.setExt k st).DataOk := by
  obtain ⟨b, hb⟩ := h.ext
  refine ⟨h.ram, h.cells, ⟨max b (k + 1), ?_⟩, h.laneA, h.laneB, h.hcr, h.stored⟩
  exact sparseSet_wf (sparseWf_mono hb (Nat.le_max_left _ _)) (Nat.le_max_right _ _) st

theorem State.DataOk.lane {s : State} (h : s.DataOk) (l : LaneId) : (s.lane l).Ok s.params := by
  cases l
  · exact h.laneA
  · exact h.laneB

theorem State.DataOk.setLane {s : State} (h : s.DataOk) (l : LaneId) {x : Lane} (hx : x.Ok s.params) :
    (s.setLane l x).DataOk := by
  cases l
  · exact ⟨h.ram, h.cells, h.ext, hx, h.laneB, h.hcr, h.stored⟩
  · exact ⟨h.ram, h.cells, h.ext, h.laneA, hx, h.hcr, h.stored⟩

theorem copIndex_lt (p : Params) (w : BitVec 32) : copIndex p w < copRegs p := Nat.mod_lt _ (Nat.two_pow_pos _)

theorem State.DataOk.copWrite {s : State} (h : s.DataOk) (l : LaneId) (w : BitVec 32) : (s.copWrite l w).DataOk := by
  have hx := h.lane l
  unfold State.copWrite
  dsimp only
  split
  · refine State.DataOk.of_eq (h.setLane l (x := { s.lane l with
      regs := Memory.canonical (copRegs s.params)
        (execCop l ((s.lane l).regs.write (copIndex s.params w) (w.extractLsb' 0 16)) s.pmem).regs,
      busy := (execCop l ((s.lane l).regs.write (copIndex s.params w) (w.extractLsb' 0 16)) s.pmem).cycles })
      ⟨hx.ring, Memory.canonical_wf _ _⟩) rfl rfl rfl rfl rfl rfl rfl
  · exact h.setLane l ⟨hx.ring, Memory.write_wf hx.regs (copIndex_lt _ _) _⟩

theorem State.DataOk.fifoData {s : State} (h : s.DataOk) (l : LaneId) (v : Word) : (s.fifoData l v).DataOk := by
  have hx := h.lane l
  rcases s.fifoData_cases l v with ⟨_, e⟩ | ⟨_, hl, e⟩ | ⟨_, _, e⟩ <;> rw [e]
  · exact h.copWrite l _
  · refine (h.setLane l (x := { s.lane l with ring := (s.lane l).ring ++ [(s.lane l).latch ++ v] })
      ⟨?_, hx.regs⟩).of_eq rfl rfl rfl rfl rfl rfl rfl
    simp only [List.length_append, List.length_cons, List.length_nil]
    exact hl
  · exact (h.raise .fault).of_eq rfl rfl rfl rfl rfl rfl rfl

theorem cellKind_lt {table : List Registration} {c : Nat} (h : cellKind table c ≠ .null) : c < busCells := by
  unfold cellKind at h
  split at h
  · rename_i g hg
    have := List.find?_some hg
    simp only [covers, Bool.and_eq_true, decide_eq_true_eq] at this
    exact this.2
  · exact absurd rfl h

theorem State.DataOk.cell {s : State} (h : s.DataOk) {c : Nat} (hc : cellKind s.busMap c = .store) (v : Word) :
    ({ s with cells := s.cells.write c v } : State).DataOk :=
  ⟨h.ram, Memory.write_wf h.cells (cellKind_lt (by rw [hc]; simp)) v, h.ext, h.laneA, h.laneB, h.hcr,
    fun e he => (mem_sparseSet he).elim (fun k => k ▸ hc) (h.stored e)⟩

theorem State.DataOk.latch {s : State} (h : s.DataOk) (l : LaneId) (v : Word) :
    (s.setLane l { s.lane l with latch := v }).DataOk := h.setLane l ⟨(h.lane l).ring, (h.lane l).regs⟩

theorem State.DataOk.busWrite {s : State} (h : s.DataOk) (c : Nat) (v : Word) : (s.busWrite c v).DataOk := by
  unfold State.busWrite
  split
  · exact h
  · exact h.cell ‹_› v
  · exact h.latch _ v
  · exact h.fifoData _ v
  · exact (h.setExt _ _).of_eq rfl rfl rfl rfl rfl rfl rfl

theorem State.DataOk.busSet {s : State} (h : s.DataOk) (c : Nat) (v : Word) : (s.busSet c v).DataOk := by
  unfold State.busSet
  split
  · exact h
  · exact h
  · exact h.cell ‹_› v
  · exact h.latch _ v
  · exact h.setExt _ _

theorem State.DataOk.dRead {s : State} (h : s.DataOk) (a : Word) (rmw : Bool) : (s.dRead a rmw).2.DataOk := by
  rcases s.dRead_cases a rmw with e | ⟨k, st, _, _, e⟩ <;> rw [e]
  · exact h
  · exact (h.setExt k st).of_eq rfl rfl rfl rfl rfl rfl rfl

theorem State.DataOk.dWrite {s : State} (h : s.DataOk) (a v : Word) : (s.dWrite a v).DataOk := by
  unfold State.dWrite
  split
  · exact h.setRam a v
  · exact h.busWrite _ v

theorem State.DataOk.sRead {s : State} (h : s.DataOk) (a : Word) : (s.sRead a).2.DataOk := by
  rcases s.sRead_cases a with ⟨_, e⟩ | ⟨_, e⟩ <;> rw [e]
  · exact h
  · exact h.raise .stack

theorem State.DataOk.sWrite {s : State} (h : s.DataOk) (a v : Word) : (s.sWrite a v).DataOk := by
  rcases s.sWrite_cases a v with ⟨_, e⟩ | ⟨_, e⟩ <;> rw [e]
  · exact h.setRam a v
  · exact h.raise .stack

theorem State.DataOk.setReg {s : State} (h : s.DataOk) (r : Reg) (v : Word) : (s.setReg r v).DataOk :=
  h.of_eq rfl rfl rfl rfl rfl rfl rfl

theorem State.DataOk.retire {s : State} (h : s.DataOk) (next : Word) (cycles : Nat) : (s.retire next cycles).DataOk :=
  h.of_eq rfl rfl rfl rfl rfl rfl rfl

theorem State.DataOk.postIncrement {s : State} (h : s.DataOk) (n : Ptr) (a : Word) (f : BitVec 4) (sm : SubMode) :
    (s.postIncrement n a f sm).DataOk := by
  unfold State.postIncrement
  split
  · exact h.of_eq rfl rfl rfl rfl rfl rfl rfl
  · exact h

theorem State.DataOk.resolve {s : State} (h : s.DataOk) (ea : Operand) (rmw : Bool) :
    (resolve ea rmw s).after.DataOk := by
  cases ea with
  | imm4 k => exact h
  | imm16 v => exact h
  | reg r => exact h
  | stack4 k => exact h.sRead _
  | stackIdx n => exact h.sRead _
  | stack16 off => exact h.sRead _
  | abs adr => exact h.dRead _ _
  | absBit o adr sub f => exact h.dRead _ _
  | ptr o n => exact (h.dRead _ _).postIncrement _ _ _ _

theorem State.DataOk.writeExt {s : State} (h : s.DataOk) (ext : Option Word) : (s.writeExt ext).DataOk := by
  cases ext
  · exact h
  · exact h.setReg _ _

theorem State.DataOk.writeBack {s : State} (h : s.DataOk) (wb : WriteBack) (v : Word) : (s.writeBack wb v).DataOk := by
  cases wb with
  | none => exact h
  | reg r => exact h.setReg r v
  | stack a => exact h.sWrite a v
  | data a => exact h.dWrite a v
  | sub a w sh dm => exact h.dWrite a _

theorem State.DataOk.pushParams {s : State} (h : s.DataOk) (ps : List Operand) (slot : Word) :
    (pushParams ps slot s).2.DataOk := by
  induction ps generalizing slot s with
  | nil => exact h
  | cons p ps ih => exact ih ((h.resolve p false).sWrite _ _) _

theorem State.DataOk.resolveAll {s : State} (h : s.DataOk) (ps : List Operand) : (resolveAll ps s).2.DataOk := by
  induction ps generalizing s with
  | nil => exact h
  | cons p ps ih => exact ih (h.resolve p false)

theorem State.DataOk.foldl {α : Type} {f : State → α → State} (hf : ∀ s x, s.DataOk → (f s x).DataOk) (l : List α)
    {s : State} (h : s.DataOk) : (l.foldl f s).DataOk := by
  induction l generalizing s with
  | nil => exact h
  | cons x xs ih => exact ih (hf s x h)

theorem State.DataOk.agentWrites {s : State} (h : s.DataOk) (ok : Word → Bool) (l : List (Word × Word)) :
    (s.agentWrites ok l).DataOk := by
  refine State.DataOk.foldl (fun s e hs => ?_) l h
  split
  · exact hs.setRam _ _
  · exact hs

theorem State.DataOk.kernelEffects {s : State} (h : s.DataOk) (e : KernelEffects) : (s.kernelEffects e).DataOk := by
  have h1 := h.agentWrites (fun a => a.toNat < periphBase) e.ram
  have h2 := State.DataOk.foldl (fun (s : State) (x : Nat × Word) (hs : s.DataOk) => hs.busSet x.1 x.2) e.bus h1
  have h3 := State.DataOk.foldl (fun (s : State) (i : Fin 16) (hs : s.DataOk) =>
    (hs.of_eq (t := s.discardSlot i) rfl rfl rfl rfl rfl rfl rfl)) e.discard h2
  exact h3.of_eq rfl rfl rfl rfl rfl rfl rfl

theorem State.DataOk.kernelCall {s : State} (h : s.DataOk) (k : Dispatcher)
    (params : List Word) : (s.kernelCall k params).after.DataOk := by
  have h' : s.nextTick.DataOk := h.of_eq rfl rfl rfl rfl rfl rfl rfl
  rcases kernelCall_cases s k params with ⟨_, e⟩ | ⟨n, a, _, _, e⟩ | ⟨a, _, _, e⟩ | ⟨a, _, _, _, _, e⟩ |
    ⟨a, _, _, _, e⟩ <;> rw [e]
  · exact h.raise .invkc
  · exact h'.kernelEffects a.effects
  · exact (h'.kernelEffects a.effects).raise .callback
  · exact (h'.of_eq (t := s.nextTick.allocate a.slot params a.kernel) rfl rfl rfl rfl rfl rfl rfl).raise .callback
  · exact h'.raise .invkc

theorem State.DataOk.drainLoop (l : LaneId) (ring : List (BitVec 32)) (avail : Nat) {s : State} (h : s.DataOk)
    (hr : ring.length ≤ s.params.fifoDepth) : (s.drainLoop l ring avail).DataOk := by
  induction ring generalizing avail s with
  | nil => exact h.setLane l ⟨(h.lane l).ring, (h.lane l).regs⟩
  | cons w rest ih =>
    simp only [State.drainLoop]
    split
    · exact h.setLane l ⟨(h.lane l).ring, (h.lane l).regs⟩
    · simp only [List.length_cons] at hr
      have hl : (s.setLane l { s.lane l with busy := 0, ring := rest }).DataOk :=
        h.setLane l ⟨by show rest.length ≤ _; omega, (h.lane l).regs⟩
      refine ih _ (hl.copWrite l w) ?_
      rw [(State.copWrite_busOnly _ l w).fixed.params, (State.setLane_busOnly s l _).fixed.params]
      omega

theorem State.DataOk.drain {s : State} (h : s.DataOk) (l : LaneId) (avail : Nat) : (s.drain l avail).DataOk :=
  h.drainLoop l _ avail (h.lane l).ring

theorem State.DataOk.schedSlot {s : State} (h : s.DataOk) (i : Fin 16) : (s.schedSlot i).DataOk := by
  unfold State.schedSlot
  dsimp only
  split
  · split
    · refine (State.DataOk.agentWrites ?_ _ _).of_eq rfl rfl rfl rfl rfl rfl rfl
      exact h.of_eq rfl rfl rfl rfl rfl rfl rfl
    · refine (State.DataOk.raise (s := s.setSlot i _) ?_ .fault).of_eq rfl rfl rfl rfl rfl rfl rfl
      exact h.of_eq rfl rfl rfl rfl rfl rfl rfl
  · exact h

theorem State.DataOk.taskSched {s : State} (h : s.DataOk) : s.taskSched.DataOk :=
  State.DataOk.foldl (fun _ i hs => hs.schedSlot i) _ h

/-- An image, an import and a load are taken in in canonical form. -/
theorem AppImage.canonical_wf (img : AppImage) :
    img.canonical.code.wf memoryWords ∧ img.canonical.ram.wf memoryWords :=
  ⟨Memory.canonical_wf _ _, Memory.canonical_wf _ _⟩

/-- Data RAM and the code store at reset are in canonical form, and so is every other table. -/
theorem reset_dataOk : State.reset.DataOk :=
  ⟨sparseWf_nil _ _, sparseWf_nil _ _, ⟨0, sparseWf_nil _ _⟩, ⟨Nat.zero_le _, sparseWf_nil _ _⟩,
    ⟨Nat.zero_le _, sparseWf_nil _ _⟩, by decide, nofun⟩

end Sys2Proof.Machine
end

