-- ==== Sys2Proof/Laws/PerInstr.lean ====
section
/-! SUPPORT. Laws stated of every instruction as syntax, one lemma per constructor. -/
namespace Sys2Proof.Laws

/-- The encoding of an instruction has the length the spec counts, its first word carries the class, and a
well-formed instruction is at most 24 words long (R101, R109). -/
def EncodeLength.Statement (i : Instr) : Prop :=
  (encode i).length = i.size ∧ (∃ w ws, encode i = w :: ws ∧ fieldClass w = i.cls) ∧
    (i.wellFormed = true → i.size ≤ 24)

theorem length_ext (ea : Operand) : ea.ext.length = ea.words := by cases ea <;> rfl

theorem words_le (ea : Operand) : ea.words ≤ 2 := by cases ea <;> simp [Operand.words]

theorem length_encodeParams (ps : List Operand) : (encodeParams ps).length = paramsWords ps := by
  induction ps with
  | nil => rfl
  | cons p ps ih => simp [encodeParams, paramsWords, length_ext, ih]; omega

theorem paramsWords_le (ps : List Operand) : paramsWords ps ≤ 3 * ps.length := by
  induction ps with
  | nil => rfl
  | cons p ps ih => have := words_le p; simp only [paramsWords, List.length_cons]; omega

theorem fieldClass_instrWord (c : BitVec 7) (r : BitVec 3) (m : BitVec 6) : fieldClass (instrWord c r m) = c := by
  ext i hi
  simp only [fieldClass, instrWord, BitVec.getElem_extractLsb', BitVec.getLsbD_append]
  rw [if_neg (by omega)]
  simp only [show 9 + i - 6 - 3 = i by omega, show ¬(9 + i - 6 < 3) by omega, if_false]
  exact BitVec.getLsbD_eq_getElem hi

/-- One-operand words. -/
theorem eaWords_law (c : BitVec 7) (r : BitVec 3) (ea : Operand) :
    (eaWords c r ea).length = 1 + ea.words ∧ ∃ w ws, eaWords c r ea = w :: ws ∧ fieldClass w = c :=
  ⟨by simp [eaWords, length_ext, Nat.add_comm], _, _, rfl, fieldClass_instrWord _ _ _⟩

/-- Call-class words. -/
theorem callWords_law (c : BitVec 7) (ea : Operand) (ps : List Operand) :
    (callWords c ea ps).length = 1 + ea.words + paramsWords ps ∧
      ∃ w ws, callWords c ea ps = w :: ws ∧ fieldClass w = c :=
  ⟨by simp [callWords, length_ext, length_encodeParams]; omega, _, _, rfl, fieldClass_instrWord _ _ _⟩

theorem ea_short (ea : Operand) : 1 + ea.words ≤ 24 := by have := words_le ea; omega

theorem call_short (ea : Operand) (ps : List Operand) (h : paramsOk ps = true) :
    1 + ea.words + paramsWords ps ≤ 24 := by
  have h1 := words_le ea
  have h2 := paramsWords_le ps
  simp only [paramsOk, decide_eq_true_eq] at h
  omega

theorem EncodeLength.nop : EncodeLength.Statement (.nop) :=
  ⟨rfl, ⟨_, _, rfl, fieldClass_instrWord _ _ _⟩, fun _ => by decide⟩

theorem EncodeLength.movEaR (ea : Operand) (r : Reg) : EncodeLength.Statement (.movEaR ea r) :=
  ⟨(eaWords_law _ _ ea).1, (eaWords_law _ _ ea).2, fun _ => ea_short ea⟩

theorem EncodeLength.movREa (r : Reg) (ea : Operand) : EncodeLength.Statement (.movREa r ea) :=
  ⟨(eaWords_law _ _ ea).1, (eaWords_law _ _ ea).2, fun _ => ea_short ea⟩

theorem EncodeLength.xch (r : Reg) (ea : Operand) : EncodeLength.Statement (.xch r ea) :=
  ⟨(eaWords_law _ _ ea).1, (eaWords_law _ _ ea).2, fun _ => ea_short ea⟩

theorem EncodeLength.addEaR (ea : Operand) (r : Reg) : EncodeLength.Statement (.addEaR ea r) :=
  ⟨(eaWords_law _ _ ea).1, (eaWords_law _ _ ea).2, fun _ => ea_short ea⟩

theorem EncodeLength.addREa (r : Reg) (ea : Operand) : EncodeLength.Statement (.addREa r ea) :=
  ⟨(eaWords_law _ _ ea).1, (eaWords_law _ _ ea).2, fun _ => ea_short ea⟩

theorem EncodeLength.adcEaR (ea : Operand) (r : Reg) : EncodeLength.Statement (.adcEaR ea r) :=
  ⟨(eaWords_law _ _ ea).1, (eaWords_law _ _ ea).2, fun _ => ea_short ea⟩

theorem EncodeLength.adcREa (r : Reg) (ea : Operand) : EncodeLength.Statement (.adcREa r ea) :=
  ⟨(eaWords_law _ _ ea).1, (eaWords_law _ _ ea).2, fun _ => ea_short ea⟩

theorem EncodeLength.subEaR (ea : Operand) (r : Reg) : EncodeLength.Statement (.subEaR ea r) :=
  ⟨(eaWords_law _ _ ea).1, (eaWords_law _ _ ea).2, fun _ => ea_short ea⟩

theorem EncodeLength.subREa (r : Reg) (ea : Operand) : EncodeLength.Statement (.subREa r ea) :=
  ⟨(eaWords_law _ _ ea).1, (eaWords_law _ _ ea).2, fun _ => ea_short ea⟩

theorem EncodeLength.sbcEaR (ea : Operand) (r : Reg) : EncodeLength.Statement (.sbcEaR ea r) :=
  ⟨(eaWords_law _ _ ea).1, (eaWords_law _ _ ea).2, fun _ => ea_short ea⟩

theorem EncodeLength.sbcREa (r : Reg) (ea : Operand) : EncodeLength.Statement (.sbcREa r ea) :=
  ⟨(eaWords_law _ _ ea).1, (eaWords_law _ _ ea).2, fun _ => ea_short ea⟩

theorem EncodeLength.andEaR (ea : Operand) (r : Reg) : EncodeLength.Statement (.andEaR ea r) :=
  ⟨(eaWords_law _ _ ea).1, (eaWords_law _ _ ea).2, fun _ => ea_short ea⟩

theorem EncodeLength.andREa (r : Reg) (ea : Operand) : EncodeLength.Statement (.andREa r ea) :=
  ⟨(eaWords_law _ _ ea).1, (eaWords_law _ _ ea).2, fun _ => ea_short ea⟩

theorem EncodeLength.orEaR (ea : Operand) (r : Reg) : EncodeLength.Statement (.orEaR ea r) :=
  ⟨(eaWords_law _ _ ea).1, (eaWords_law _ _ ea).2, fun _ => ea_short ea⟩

theorem EncodeLength.orREa (r : Reg) (ea : Operand) : EncodeLength.Statement (.orREa r ea) :=
  ⟨(eaWords_law _ _ ea).1, (eaWords_law _ _ ea).2, fun _ => ea_short ea⟩

theorem EncodeLength.xorEaR (ea : Operand) (r : Reg) : EncodeLength.Statement (.xorEaR ea r) :=
  ⟨(eaWords_law _ _ ea).1, (eaWords_law _ _ ea).2, fun _ => ea_short ea⟩

theorem EncodeLength.xorREa (r : Reg) (ea : Operand) : EncodeLength.Statement (.xorREa r ea) :=
  ⟨(eaWords_law _ _ ea).1, (eaWords_law _ _ ea).2, fun _ => ea_short ea⟩

theorem EncodeLength.shlEaR (ea : Operand) (r : Reg) : EncodeLength.Statement (.shlEaR ea r) :=
  ⟨(eaWords_law _ _ ea).1, (eaWords_law _ _ ea).2, fun _ => ea_short ea⟩

theorem EncodeLength.shlREa (r : Reg) (ea : Operand) : EncodeLength.Statement (.shlREa r ea) :=
  ⟨(eaWords_law _ _ ea).1, (eaWords_law _ _ ea).2, fun _ => ea_short ea⟩

theorem EncodeLength.shrEaR (ea : Operand) (r : Reg) : EncodeLength.Statement (.shrEaR ea r) :=
  ⟨(eaWords_law _ _ ea).1, (eaWords_law _ _ ea).2, fun _ => ea_short ea⟩

theorem EncodeLength.shrREa (r : Reg) (ea : Operand) : EncodeLength.Statement (.shrREa r ea) :=
  ⟨(eaWords_law _ _ ea).1, (eaWords_law _ _ ea).2, fun _ => ea_short ea⟩

theorem EncodeLength.asrEaR (ea : Operand) (r : Reg) : EncodeLength.Statement (.asrEaR ea r) :=
  ⟨(eaWords_law _ _ ea).1, (eaWords_law _ _ ea).2, fun _ => ea_short ea⟩

theorem EncodeLength.asrREa (r : Reg) (ea : Operand) : EncodeLength.Statement (.asrREa r ea) :=
  ⟨(eaWords_law _ _ ea).1, (eaWords_law _ _ ea).2, fun _ => ea_short ea⟩

theorem EncodeLength.mulEaR (ea : Operand) (r : Reg) : EncodeLength.Statement (.mulEaR ea r) :=
  ⟨(eaWords_law _ _ ea).1, (eaWords_law _ _ ea).2, fun _ => ea_short ea⟩

theorem EncodeLength.mulREa (r : Reg) (ea : Operand) : EncodeLength.Statement (.mulREa r ea) :=
  ⟨(eaWords_law _ _ ea).1, (eaWords_law _ _ ea).2, fun _ => ea_short ea⟩

theorem EncodeLength.mlsEaR (ea : Operand) (r : Reg) : EncodeLength.Statement (.mlsEaR ea r) :=
  ⟨(eaWords_law _ _ ea).1, (eaWords_law _ _ ea).2, fun _ => ea_short ea⟩

theorem EncodeLength.mlsREa (r : Reg) (ea : Operand) : EncodeLength.Statement (.mlsREa r ea) :=
  ⟨(eaWords_law _ _ ea).1, (eaWords_law _ _ ea).2, fun _ => ea_short ea⟩

theorem EncodeLength.divEaR (ea : Operand) (r : Reg) : EncodeLength.Statement (.divEaR ea r) :=
  ⟨(eaWords_law _ _ ea).1, (eaWords_law _ _ ea).2, fun _ => ea_short ea⟩

theorem EncodeLength.divREa (r : Reg) (ea : Operand) : EncodeLength.Statement (.divREa r ea) :=
  ⟨(eaWords_law _ _ ea).1, (eaWords_law _ _ ea).2, fun _ => ea_short ea⟩

theorem EncodeLength.dvsEaR (ea : Operand) (r : Reg) : EncodeLength.Statement (.dvsEaR ea r) :=
  ⟨(eaWords_law _ _ ea).1, (eaWords_law _ _ ea).2, fun _ => ea_short ea⟩

theorem EncodeLength.dvsREa (r : Reg) (ea : Operand) : EncodeLength.Statement (.dvsREa r ea) :=
  ⟨(eaWords_law _ _ ea).1, (eaWords_law _ _ ea).2, fun _ => ea_short ea⟩

theorem EncodeLength.modEaR (ea : Operand) (r : Reg) : EncodeLength.Statement (.modEaR ea r) :=
  ⟨(eaWords_law _ _ ea).1, (eaWords_law _ _ ea).2, fun _ => ea_short ea⟩

theorem EncodeLength.modREa (r : Reg) (ea : Operand) : EncodeLength.Statement (.modREa r ea) :=
  ⟨(eaWords_law _ _ ea).1, (eaWords_law _ _ ea).2, fun _ => ea_short ea⟩

theorem EncodeLength.mdsEaR (ea : Operand) (r : Reg) : EncodeLength.Statement (.mdsEaR ea r) :=
  ⟨(eaWords_law _ _ ea).1, (eaWords_law _ _ ea).2, fun _ => ea_short ea⟩

theorem EncodeLength.mdsREa (r : Reg) (ea : Operand) : EncodeLength.Statement (.mdsREa r ea) :=
  ⟨(eaWords_law _ _ ea).1, (eaWords_law _ _ ea).2, fun _ => ea_short ea⟩

theorem EncodeLength.not (ea : Operand) : EncodeLength.Statement (.not ea) :=
  ⟨(eaWords_law _ _ ea).1, (eaWords_law _ _ ea).2, fun _ => ea_short ea⟩

theorem EncodeLength.neg (ea : Operand) : EncodeLength.Statement (.neg ea) :=
  ⟨(eaWords_law _ _ ea).1, (eaWords_law _ _ ea).2, fun _ => ea_short ea⟩

theorem EncodeLength.xeq (r : Reg) (ea : Operand) : EncodeLength.Statement (.xeq r ea) :=
  ⟨(eaWords_law _ _ ea).1, (eaWords_law _ _ ea).2, fun _ => ea_short ea⟩

theorem EncodeLength.xne (r : Reg) (ea : Operand) : EncodeLength.Statement (.xne r ea) :=
  ⟨(eaWords_law _ _ ea).1, (eaWords_law _ _ ea).2, fun _ => ea_short ea⟩

theorem EncodeLength.xug (r : Reg) (ea : Operand) : EncodeLength.Statement (.xug r ea) :=
  ⟨(eaWords_law _ _ ea).1, (eaWords_law _ _ ea).2, fun _ => ea_short ea⟩

theorem EncodeLength.xul (r : Reg) (ea : Operand) : EncodeLength.Statement (.xul r ea) :=
  ⟨(eaWords_law _ _ ea).1, (eaWords_law _ _ ea).2, fun _ => ea_short ea⟩

theorem EncodeLength.xsg (r : Reg) (ea : Operand) : EncodeLength.Statement (.xsg r ea) :=
  ⟨(eaWords_law _ _ ea).1, (eaWords_law _ _ ea).2, fun _ => ea_short ea⟩

theorem EncodeLength.xsl (r : Reg) (ea : Operand) : EncodeLength.Statement (.xsl r ea) :=
  ⟨(eaWords_law _ _ ea).1, (eaWords_law _ _ ea).2, fun _ => ea_short ea⟩

theorem EncodeLength.xbs (r : Reg) (ea : Operand) : EncodeLength.Statement (.xbs r ea) :=
  ⟨(eaWords_law _ _ ea).1, (eaWords_law _ _ ea).2, fun _ => ea_short ea⟩

theorem EncodeLength.xbc (r : Reg) (ea : Operand) : EncodeLength.Statement (.xbc r ea) :=
  ⟨(eaWords_law _ _ ea).1, (eaWords_law _ _ ea).2, fun _ => ea_short ea⟩

theorem EncodeLength.jmr (ea : Operand) : EncodeLength.Statement (.jmr ea) :=
  ⟨(eaWords_law _ _ ea).1, (eaWords_law _ _ ea).2, fun _ => ea_short ea⟩

theorem EncodeLength.jma (ea : Operand) : EncodeLength.Statement (.jma ea) :=
  ⟨(eaWords_law _ _ ea).1, (eaWords_law _ _ ea).2, fun _ => ea_short ea⟩

theorem EncodeLength.jfr (ea : Operand) (ps : List Operand) : EncodeLength.Statement (.jfr ea ps) :=
  ⟨(callWords_law _ ea ps).1, (callWords_law _ ea ps).2, call_short ea ps⟩

theorem EncodeLength.jfa (ea : Operand) (ps : List Operand) : EncodeLength.Statement (.jfa ea ps) :=
  ⟨(callWords_law _ ea ps).1, (callWords_law _ ea ps).2, call_short ea ps⟩

theorem EncodeLength.rfn : EncodeLength.Statement (.rfn) :=
  ⟨rfl, ⟨_, _, rfl, fieldClass_instrWord _ _ _⟩, fun _ => by decide⟩

theorem EncodeLength.jsv (ea : Operand) (ps : List Operand) : EncodeLength.Statement (.jsv ea ps) :=
  ⟨(callWords_law _ ea ps).1, (callWords_law _ ea ps).2, call_short ea ps⟩

theorem EncodeLength.movSpEa (ea : Operand) : EncodeLength.Statement (.movSpEa ea) :=
  ⟨(eaWords_law _ _ ea).1, (eaWords_law _ _ ea).2, fun _ => ea_short ea⟩

theorem EncodeLength.movEaSp (ea : Operand) : EncodeLength.Statement (.movEaSp ea) :=
  ⟨(eaWords_law _ _ ea).1, (eaWords_law _ _ ea).2, fun _ => ea_short ea⟩

theorem EncodeLength.movXmEa (ea : Operand) : EncodeLength.Statement (.movXmEa ea) :=
  ⟨(eaWords_law _ _ ea).1, (eaWords_law _ _ ea).2, fun _ => ea_short ea⟩

theorem EncodeLength.movEaXm (ea : Operand) : EncodeLength.Statement (.movEaXm ea) :=
  ⟨(eaWords_law _ _ ea).1, (eaWords_law _ _ ea).2, fun _ => ea_short ea⟩

theorem EncodeLength.movXbEa (ea : Operand) : EncodeLength.Statement (.movXbEa ea) :=
  ⟨(eaWords_law _ _ ea).1, (eaWords_law _ _ ea).2, fun _ => ea_short ea⟩

theorem EncodeLength.movEaXb (ea : Operand) : EncodeLength.Statement (.movEaXb ea) :=
  ⟨(eaWords_law _ _ ea).1, (eaWords_law _ _ ea).2, fun _ => ea_short ea⟩

theorem EncodeLength.movEaBp (ea : Operand) : EncodeLength.Statement (.movEaBp ea) :=
  ⟨(eaWords_law _ _ ea).1, (eaWords_law _ _ ea).2, fun _ => ea_short ea⟩

theorem EncodeLength.reserved3B : EncodeLength.Statement .reserved3B :=
  ⟨rfl, ⟨_, _, rfl, fieldClass_instrWord _ _ _⟩, fun _ => by decide⟩

theorem EncodeLength.reserved3C (low : BitVec 2) : EncodeLength.Statement (.reserved3C low) :=
  ⟨rfl, ⟨_, _, rfl, fieldClass_instrWord _ _ _⟩, fun _ => Nat.le_add_left 1 23⟩

theorem EncodeLength.reserved40 (low : BitVec 6) : EncodeLength.Statement (.reserved40 low) :=
  ⟨rfl, ⟨_, _, rfl, fieldClass_instrWord _ _ _⟩, fun _ => Nat.le_add_left 1 23⟩

end Sys2Proof.Laws
end

