-- ==== Sys2Proof/Laws/Decode.lean ====
section
/-! SUPPORT. Operands and parameters decode from any words and from their encodings; the fields of an
instruction word; the decoder is total. -/
namespace Sys2Proof.Machine

/-- An operand decodes from its own mode encoding and extension words. -/
theorem decodeOperand_mode (ea : Operand) (rest : List Word) :
    decodeOperand ea.mode (ea.ext ++ rest) = .ok (ea, rest) := by
  cases ea with
  | imm4 k =>
    have h : ∀ k : BitVec 4, ((0#2 ++ k : BitVec 6).extractLsb' 2 4).toNat ∈ [0, 1, 2, 3] ∧
        (0#2 ++ k : BitVec 6).extractLsb' 0 4 = k := by decide
    obtain ⟨h, h'⟩ := h k
    unfold decodeOperand
    simp only [Operand.mode, Operand.ext, List.nil_append, List.mem_cons, List.not_mem_nil, or_false] at h ⊢
    rw [h']
    rcases h with e | e | e | e <;> rw [e] <;> rfl
  | stack4 k =>
    have h : ∀ k : BitVec 4, ((1#2 ++ k : BitVec 6).extractLsb' 2 4).toNat ∈ [4, 5, 6, 7] ∧
        (1#2 ++ k : BitVec 6).extractLsb' 0 4 = k := by decide
    obtain ⟨h, h'⟩ := h k
    unfold decodeOperand
    simp only [Operand.mode, Operand.ext, List.nil_append, List.mem_cons, List.not_mem_nil, or_false] at h ⊢
    rw [h']
    rcases h with e | e | e | e <;> rw [e] <;> rfl
  | reg r => cases r <;> rfl
  | ptr o n => cases o <;> cases n <;> rfl
  | stackIdx n => cases n <;> rfl
  | imm16 v => show decodeOperand 0x34#6 (v :: rest) = _; rfl
  | stack16 v => show decodeOperand 0x38#6 (v :: rest) = _; rfl
  | abs v => show decodeOperand 0x3C#6 (v :: rest) = _; rfl
  | absBit o adr x f =>
    have h : ∀ x f : BitVec 4, (0#8 ++ x ++ f : BitVec 16).extractLsb' 4 4 = x ∧
        (0#8 ++ x ++ f : BitVec 16).extractLsb' 0 4 = f := by decide
    obtain ⟨h, h'⟩ := h x f
    have e : ∀ w : Word,
        decodeOperand 0x3E#6 (adr :: w :: rest) =
          .ok (.absBit .msbFirst adr (w.extractLsb' 4 4) (w.extractLsb' 0 4), rest) ∧
        decodeOperand 0x3F#6 (adr :: w :: rest) =
          .ok (.absBit .lsbFirst adr (w.extractLsb' 4 4) (w.extractLsb' 0 4), rest) := fun _ => ⟨rfl, rfl⟩
    obtain ⟨e1, e2⟩ := e (0#8 ++ x ++ f)
    rw [h, h'] at e1 e2
    cases o
    · exact e1
    · exact e2

theorem fieldM_param (m : BitVec 6) : fieldM (0#10 ++ m) = m := by revert m; decide

/-- Parameters decode from their encoding. -/
theorem decodeParams_encode (ps : List Operand) (rest : List Word) :
    decodeParams ps.length (encodeParams ps ++ rest) = .ok (ps, rest) := by
  induction ps with
  | nil => rfl
  | cons p ps ih =>
    simp only [encodeParams, List.length_cons, List.cons_append, List.append_assoc, decodeParams, fieldM_param,
      decodeOperand_mode, ih]

/-- The fields of an instruction word (R101). -/
theorem fields_instrWord (c : BitVec 7) (r : BitVec 3) (m : BitVec 6) :
    fieldClass (instrWord c r m) = c ∧ fieldR (instrWord c r m) = r ∧ fieldM (instrWord c r m) = m := by
  unfold fieldClass fieldR fieldM instrWord
  refine ⟨Laws.fieldClass_instrWord c r m, ?_, ?_⟩
  · ext i hi
    simp only [BitVec.getElem_extractLsb', BitVec.getLsbD_append]
    rw [if_neg (by omega), if_pos (by omega), show 6 + i - 6 = i by omega]
    exact BitVec.getLsbD_eq_getElem hi
  · ext i hi
    simp only [BitVec.getElem_extractLsb', BitVec.getLsbD_append, Nat.zero_add]
    rw [if_pos (by omega)]
    exact BitVec.getLsbD_eq_getElem hi

theorem ofCode_code (r : Reg) : Reg.ofCode r.code = r := by cases r <;> rfl

theorem decode_instrWord (c : BitVec 7) (r : BitVec 3) (m : BitVec 6) (ws : List Word) :
    decode (instrWord c r m :: ws) = decodeClass c r m ws := by
  obtain ⟨a, b, d⟩ := fields_instrWord c r m
  rw [decode, a, b, d]

/-- Any mode decodes when two words follow. -/
theorem decodeOperand_total (m : BitVec 6) (ws : List Word) (h : 2 ≤ ws.length) :
    ∃ o, decodeOperand m ws = .ok (o, ws.drop o.words) ∧ o.words = modeWords m := by
  obtain _ | ⟨w0, _ | ⟨w1, ws⟩⟩ := ws
  · simp at h
  · simp at h
  have hm : ∀ m : BitVec 6,
      (modeWords m = if (m.extractLsb' 2 4).toNat < 13 then 0
        else if (m.extractLsb' 2 4).toNat < 15 ∨ (m.extractLsb' 0 2).toNat < 2 then 1 else 2) ∧
      (m.extractLsb' 2 4).toNat < 16 ∧ (m.extractLsb' 0 2).toNat < 4 := by decide
  obtain ⟨e, h1, h2⟩ := hm m
  rw [e]
  unfold decodeOperand
  generalize (m.extractLsb' 2 4).toNat = k at h1 ⊢
  generalize hj : (m.extractLsb' 0 2).toNat = j at h2 ⊢
  interval_cases k
  all_goals first
    | exact ⟨_, rfl, rfl⟩
    | (interval_cases j <;> exact ⟨_, rfl, rfl⟩)

/-- Any `n` parameters decode when `3 * n` words follow. -/
theorem decodeParams_total (n : Nat) (ws : List Word) (h : 3 * n ≤ ws.length) :
    ∃ ps, decodeParams n ws = .ok (ps, ws.drop (paramsWords ps)) ∧ ps.length = n := by
  induction n generalizing ws with
  | zero => exact ⟨[], rfl, rfl⟩
  | succ n ih =>
    obtain _ | ⟨p, ws⟩ := ws
    · simp at h
    simp only [List.length_cons] at h
    obtain ⟨o, ho, _⟩ := decodeOperand_total (fieldM p) ws (by omega)
    have := Laws.words_le o
    obtain ⟨ps, hps, hl⟩ := ih (ws.drop o.words) (by rw [List.length_drop]; omega)
    refine ⟨o :: ps, ?_, by simp [hl]⟩
    simp only [decodeParams, ho, hps, paramsWords, List.drop_drop]
    rw [show 1 + o.words + paramsWords ps = (o.words + paramsWords ps) + 1 by omega, List.drop_succ_cons]

/-- Any instruction word decodes when 23 words follow, to a well-formed instruction of its class, whose length is
what R109 counts from the words. -/
theorem decodeClass_total (c : BitVec 7) (r : BitVec 3) (m : BitVec 6) (w : Word) (ws : List Word)
    (h : 23 ≤ ws.length) :
    ∃ i, decodeClass c r m ws = .ok (i, (w :: ws).drop i.size) ∧ i.wellFormed = true ∧ i.cls = c ∧
      if c.toNat = 0 ∨ c.toNat = 0x32 ∨ 0x3B ≤ c.toNat then i.size = 1
      else if c.toNat = 0x30 ∨ c.toNat = 0x31 ∨ c.toNat = 0x33 then
        ∃ ps rest, decodeParams r.toNat (ws.drop (modeWords m)) = .ok (ps, rest) ∧
          i.size = 1 + modeWords m + paramsWords ps
      else i.size = 1 + modeWords m := by
  obtain ⟨o, ho, hmw⟩ := decodeOperand_total m ws (by omega)
  have hw := Laws.words_le o
  have hr : r.toNat < 8 := r.isLt
  obtain ⟨ps, hps, hl⟩ := decodeParams_total r.toNat (ws.drop o.words) (by rw [List.length_drop]; omega)
  have hE : ∀ f, withEa m ws f = .ok (f o, (w :: ws).drop (1 + o.words)) := by
    intro f
    rw [Nat.add_comm, List.drop_succ_cons]
    simp only [withEa, ho]
  have hP : ∀ f, withParams m r ws f = .ok (f o ps, (w :: ws).drop (1 + o.words + paramsWords ps)) := by
    intro f
    rw [show 1 + o.words + paramsWords ps = (o.words + paramsWords ps) + 1 by omega, List.drop_succ_cons]
    simp only [withParams, ho, hps, List.drop_drop]
  have hps7 : paramsOk ps = true := decide_eq_true (by omega)
  obtain ⟨n, hn⟩ := c
  unfold decodeClass
  simp only [BitVec.toNat_ofFin]
  by_cases h40 : 0x40 ≤ n
  · have hcls : ∀ n : Fin 128, 0x40 ≤ n.val →
        (1#1 ++ (BitVec.ofFin n : BitVec 7).extractLsb' 0 6 : BitVec 7) = BitVec.ofFin n := by decide
    refine ⟨.reserved40 _, ?_, rfl, hcls ⟨n, hn⟩ h40, ?_⟩
    · split <;> first | rfl | omega
    · rw [if_pos (by omega)]; rfl
  by_cases h3C : 0x3C ≤ n
  · have hcls : ∀ n : Fin 128, 0x3C ≤ n.val ∧ n.val < 0x40 →
        (0xF#5 ++ (BitVec.ofFin n : BitVec 7).extractLsb' 0 2 : BitVec 7) = BitVec.ofFin n := by decide
    refine ⟨.reserved3C ((BitVec.ofFin ⟨n, hn⟩ : BitVec 7).extractLsb' 0 2), ?_, rfl,
      hcls ⟨n, hn⟩ (by simp only; omega), ?_⟩
    · interval_cases n <;> rfl
    · rw [if_pos (by omega)]; rfl
  interval_cases n
  all_goals first
    | exact ⟨_, rfl, rfl, rfl, rfl⟩
    | (refine ⟨_, hE _, rfl, rfl, ?_⟩; rw [← hmw]; rfl)
    | (refine ⟨_, hP _, hps7, rfl, ?_⟩; rw [← hmw]; exact ⟨ps, _, hps, rfl⟩)

theorem fetchWords_length (s : State) : s.fetchWords.length = 24 := rfl

/-- The words fetched from offset `k` on. -/
theorem drop_fetch (s : State) (k : Nat) (h : k < 24) :
    s.fetchWords.drop k = s.codeAt (s.pc + BitVec.ofNat 16 k) :: s.fetchWords.drop (k + 1) := by
  rw [List.drop_eq_getElem_cons (by rw [fetchWords_length]; exact h)]
  congr 1
  simp [State.fetchWords]

end Sys2Proof.Machine
end

