-- ==== Sys2Proof/Laws/Exec.lean ====
section
/-! SUPPORT. What every instruction keeps, said once per shape. -/
namespace Sys2Proof.Machine
open Sys2Proof.Config

/-- A halt cause, once set, stays set. -/
def Grows (s t : State) : Prop := s.hcr &&& t.hcr = s.hcr

theorem and_or_same (x y : Word) : x &&& (x ||| y) = x := by
  apply BitVec.eq_of_getLsbD_eq
  intro i _
  rw [BitVec.getLsbD_and, BitVec.getLsbD_or]
  cases x.getLsbD i <;> simp

theorem Grows.refl (s : State) : Grows s s := BitVec.and_self

theorem Grows.of_eq {s t : State} (h : t.hcr = s.hcr) : Grows s t := by
  unfold Grows; rw [h]; exact BitVec.and_self

theorem Grows.of_or {s t : State} {k : Word} (h : t.hcr = s.hcr ||| k) : Grows s t := by
  unfold Grows; rw [h]; exact and_or_same _ _

theorem Grows.trans {s t u : State} (h : Grows s t) (k : Grows t u) : Grows s u := by
  unfold Grows at *
  rw [← h, BitVec.and_assoc, k]

theorem Grows.raise (s : State) (k : HaltCause) : Grows s (s.raise k) := .of_or rfl

theorem Grows.fifoData (s : State) (l : LaneId) (v : Word) : Grows s (s.fifoData l v) := by
  rcases s.fifoData_cases l v with ⟨_, h⟩ | ⟨_, _, h⟩ | ⟨_, _, h⟩ <;> rw [h]
  · exact .of_eq (s.copWrite_keeps l _).1
  · cases l <;> exact .of_eq rfl
  · exact .of_or (k := HaltCause.fault.mask) rfl

theorem Grows.busWrite (s : State) (c : Nat) (v : Word) : Grows s (s.busWrite c v) := by
  unfold State.busWrite
  split
  · exact .refl s
  · exact .of_eq rfl
  · rename_i l _; cases l <;> exact .of_eq rfl
  · exact .fifoData s _ v
  · exact .of_eq rfl

theorem Grows.hcrAfter {s t : State} (ea : Operand) (h : t.hcr = s.hcrAfter ea) : Grows s t := by
  rcases hcrAfter_cases s ea with e | e <;> rw [e] at h
  · exact .of_eq h
  · exact .of_or h

/-- What every instruction keeps. -/
structure Executes (s t : State) : Prop where
  fixed : SameFixed s t
  stall : t.stall = 0
  grows : Grows s t
  data : s.DataOk → t.DataOk

/-- What every instruction but calls, RFN and the loads of SP and XM keeps. -/
structure Plain (s t : State) : Prop extends Executes s t where
  bp : t.bp = s.bp
  sp : t.sp = s.sp
  xm : t.xm = s.xm

theorem EaResult.plain {s t : State} {cls : BitVec 7} {ea : Operand} {res : Word} {ext : Option Word}
    (h : EaResult s t cls ea res ext) (hd : s.DataOk → t.DataOk) : Plain s t := by
  refine ⟨⟨h.frame.fixed, h.frame.stall, ?_, hd⟩, h.special.bp, h.special.sp, h.special.xm⟩
  cases hc : (resolve ea true s).wb.cell with
  | none => exact .hcrAfter ea (h.frame.bus hc).2.2.2.2
  | some c =>
    have e := (h.stored.bus c hc _ rfl).2.2.2.2.2
    have g : Grows s ((resolve ea true s).after.busWrite c ((resolve ea true s).wb.word res)) :=
      (Grows.hcrAfter ea (resolve_hcr ea true s)).trans (.busWrite _ _ _)
    unfold Grows at *
    rw [e]; exact g

theorem ReadFrame.plain {s t : State} {ea : Operand} {w : List Reg} (h : ReadFrame s t ea w)
    (k : SameSpecial s t ea false) (hd : s.DataOk → t.DataOk) : Plain s t :=
  ⟨⟨h.fixed, h.stall, .hcrAfter ea h.hcr, hd⟩, k.bp, k.sp, k.xm⟩

theorem aluEaR_plain (cls : BitVec 7) (op : AluOp) (ea : Operand) (r : Reg) (s : State) :
    Plain s (aluEaR cls op ea r s) :=
  (aluEaR_result cls op ea r s).plain fun h => (((h.resolve ea true).writeExt _).writeBack _ _).retire _ _

theorem aluREa_plain (cls : BitVec 7) (op : AluOp) (r : Reg) (ea : Operand) (s : State) :
    Plain s (aluREa cls op r ea s) :=
  (aluREa_result cls op r ea s).frame.plain (aluREa_result cls op r ea s).special
    fun h => (((h.resolve ea false).writeExt _).setReg _ _).retire _ _

theorem aluEa_plain (cls : BitVec 7) (op : Word → AluResult) (ea : Operand) (s : State) :
    Plain s (aluEa cls op ea s) :=
  (aluEa_result cls op ea s).plain fun h => (((h.resolve ea true).writeExt _).writeBack _ _).retire _ _

theorem storeEa_plain (cls : BitVec 7) (src : State → Word) (ea : Operand) (s : State) :
    Plain s (storeEa cls src ea s) :=
  (storeEa_result cls src ea s).plain fun h => ((h.resolve ea true).writeBack _ _).retire _ _

theorem loadReg_plain (cls : BitVec 7) (r : Reg) (ea : Operand) (s : State) :
    Plain s (loadEa cls (fun t v => t.setReg r v) ea s) :=
  (regForm_result cls r ea _ none s).frame.plain (regForm_result cls r ea _ none s).special
    fun h => ((h.resolve ea false).setReg _ _).retire _ _

theorem retire_plain (ea : Operand) (s : State) (next : Word) (cycles : Nat) :
    Plain s ((resolve ea false s).after.retire next cycles) :=
  (readForm_frame ea s next cycles).1.plain (readForm_frame ea s next cycles).2.1
    fun h => (h.resolve ea false).retire _ _

theorem skipWhen_plain (cls : BitVec 7) (cond : Word → Word → Bool) (r : Reg) (ea : Operand) (s : State) :
    Plain s (skipWhen cls cond r ea s) := by
  unfold skipWhen
  dsimp only
  split
  · exact retire_plain ea s _ _
  · exact retire_plain ea s _ _

theorem xch_plain (r : Reg) (ea : Operand) (s : State) : ∃ t, execXch r ea s = .next t ∧ Plain s t := by
  have h := storeEa_plain 0x03#7 (fun t => t.reg r) ea s
  have f := h.fixed
  refine ⟨_, rfl, ⟨⟨⟨f.code, f.sbot, f.stop, f.busMap, f.timers, f.bpmap, f.params, f.image, f.call, f.started,
    f.host, f.reply, f.lineCalls⟩, rfl, h.grows, fun hd => ?_⟩, h.bp, h.sp, h.xm⟩⟩
  exact (((hd.resolve ea true).writeBack _ _).setReg _ _).retire _ _

/-- A load of a special register. -/
theorem special_executes (cls : BitVec 7) (put : State → Word → State) (ea : Operand) (s : State)
    (hp : ∀ u v, SameFixed u (put u v) ∧ (put u v).hcr = u.hcr ∧ (u.DataOk → (put u v).DataOk)) :
    Executes s (loadEa cls put ea s) := by
  have hu := resolve_reads ea false s
  obtain ⟨a, b, c⟩ := hp (resolve ea false s).after (resolve ea false s).value
  have f := hu.fixed.trans a
  exact ⟨⟨f.code, f.sbot, f.stop, f.busMap, f.timers, f.bpmap, f.params, f.image, f.call, f.started,
    f.host, f.reply, f.lineCalls⟩, rfl, .hcrAfter ea (b.trans (resolve_hcr ea false s)),
    fun hd => (c (hd.resolve ea false)).retire _ _⟩

theorem callProc_executes (cls : BitVec 7) (rel : Bool) (size : Nat) (ea : Operand) (ps : List Operand) (s : State) :
    Executes s (callProc cls rel size ea ps s) ∧ (callProc cls rel size ea ps s).xm = s.xm := by
  have h := (((Pushes.resolve ea s).trans (.sWrite _ (resolve ea false s).after.sp (resolve ea false s).after.bp)).trans
    (pushParams_pushes ps ((resolve ea false s).after.sp + 2) _)).trans
    (.sWrite _ ((resolve ea false s).after.sp + 1) (s.pc + BitVec.ofNat 16 size))
  have f := h.fixed
  refine ⟨⟨⟨f.code, f.sbot, f.stop, f.busMap, f.timers, f.bpmap, f.params, f.image, f.call, f.started,
    f.host, f.reply, f.lineCalls⟩, rfl, ?_, fun hd => ?_⟩, h.xm⟩
  · rcases h.hcr with e | e
    · exact .of_eq e
    · exact .of_or e
  · refine State.DataOk.retire ?_ _ _
    exact ((((hd.resolve ea false).sWrite _ _).pushParams _ _).sWrite _ _).of_eq rfl rfl rfl rfl rfl rfl rfl

theorem rfn_executes (s : State) : ∃ t, execRfn s = .next t ∧ Executes s t ∧ t.xm = s.xm := by
  unfold execRfn
  dsimp only
  split
  · exact ⟨_, rfl, ⟨⟨rfl, rfl, rfl, rfl, rfl, rfl, rfl, rfl, rfl, rfl, rfl, rfl, rfl⟩, rfl, .of_or (k := HaltCause.exit.mask) rfl,
      fun h => (h.raise .exit).retire _ _⟩, rfl⟩
  · have h := (Reads.sRead s (s.bp - 1)).trans (Reads.sRead _ (s.bp - 2))
    have f := h.fixed
    refine ⟨_, rfl, ⟨⟨f.code, f.sbot, f.stop, f.busMap, f.timers, f.bpmap, f.params, f.image, f.call, f.started,
      f.host, f.reply, f.lineCalls⟩, rfl, ?_, fun hd => ?_⟩, h.xm⟩
    · have g : ∀ (u : State) (a : Word), Grows u (u.sRead a).2 := by
        intro u a
        rcases u.sRead_cases a with ⟨_, e⟩ | ⟨_, e⟩ <;> rw [e]
        · exact .refl u
        · exact .raise u _
      exact (g s (s.bp - 1)).trans (g _ (s.bp - 2))
    · refine State.DataOk.retire ?_ _ _
      exact ((hd.sRead _).sRead _).of_eq rfl rfl rfl rfl rfl rfl rfl

/-- What a kernel call leaves unchanged, whatever its shape (R350). -/
theorem kernelCall_keeps (s : State) (k : Dispatcher) (params : List Word) :
    SameFixed s (s.kernelCall k params).after ∧ Grows s (s.kernelCall k params).after ∧
      (s.kernelCall k params).after.bp = s.bp ∧ (s.kernelCall k params).after.sp = s.sp ∧
      (s.kernelCall k params).after.xm = s.xm := by
  have raised : ∀ (t : State) (c : HaltCause), AgentOnly s t → SameFixed s (t.raise c) ∧ Grows s (t.raise c) ∧
      (t.raise c).bp = s.bp ∧ (t.raise c).sp = s.sp ∧ (t.raise c).xm = s.xm := fun t c a =>
    ⟨a.fixed.raise c, (Grows.of_eq a.hcr).trans (.raise _ c), a.bp, a.sp, a.xm⟩
  have hn := AgentOnly.nextTick s
  rcases kernelCall_cases s k params with ⟨_, h⟩ | ⟨n, a, _, _, h⟩ | ⟨a, _, _, h⟩ | ⟨a, _, _, _, _, h⟩ |
    ⟨a, _, _, _, h⟩ <;> rw [h]
  · exact raised s _ (.refl s)
  · have a := hn.trans (kernelEffects_only _ a.effects)
    exact ⟨a.fixed, .of_eq a.hcr, a.bp, a.sp, a.xm⟩
  · exact raised _ _ (hn.trans (kernelEffects_only _ a.effects))
  · exact raised _ _ (hn.trans (.allocate _ _ _ _))
  · exact raised _ _ hn

theorem kernelReturn_keeps (pc0 : Word) (size : Nat) (k : KernelOutcome) :
    SameFixed k.after (kernelReturn pc0 size k) ∧ (kernelReturn pc0 size k).stall = 0 ∧
      (kernelReturn pc0 size k).hcr = k.after.hcr ∧ (k.after.DataOk → (kernelReturn pc0 size k).DataOk) ∧
      (kernelReturn pc0 size k).bp = k.after.bp ∧ (kernelReturn pc0 size k).sp = k.after.sp ∧
      (kernelReturn pc0 size k).xm = k.after.xm := by
  unfold kernelReturn
  split <;> exact ⟨⟨rfl, rfl, rfl, rfl, rfl, rfl, rfl, rfl, rfl, rfl, rfl, rfl, rfl⟩, rfl, rfl,
    fun h => h.of_eq rfl rfl rfl rfl rfl rfl rfl, rfl, rfl, rfl⟩

theorem supervisorCall_plain (k : Dispatcher) (ea : Operand) (ps : List Operand)
    (s : State) : Plain s (supervisorCall k ea ps s) := by
  have h := resolveAll_reads (ea :: ps) s
  obtain ⟨a, b, c, d, e⟩ := kernelCall_keeps (resolveAll (ea :: ps) s).2 k (resolveAll (ea :: ps) s).1
  obtain ⟨f, g, i, j, l, m, n⟩ := kernelReturn_keeps s.pc (1 + ea.words + paramsWords ps)
    ((resolveAll (ea :: ps) s).2.kernelCall k (resolveAll (ea :: ps) s).1)
  refine ⟨⟨(h.fixed.trans a).trans f, g, ?_, fun hd => j ((hd.resolveAll _).kernelCall k _)⟩,
    l.trans (c.trans h.bp), m.trans (d.trans h.sp), n.trans (e.trans h.xm)⟩
  have g1 : Grows s (resolveAll (ea :: ps) s).2 := by
    rcases resolveAll_hcr (ea :: ps) s with x | x
    · exact .of_eq x
    · exact .of_or x
  exact (g1.trans b).trans (.of_eq i)

theorem invalidOpcode_plain (cls : BitVec 7) (s : State) : Plain s (invalidOpcode cls s) :=
  ⟨⟨⟨rfl, rfl, rfl, rfl, rfl, rfl, rfl, rfl, rfl, rfl, rfl, rfl, rfl⟩, rfl, .of_or (k := HaltCause.invop.mask) rfl,
    fun h => (h.raise .invop).retire _ _⟩, rfl, rfl, rfl⟩

theorem nop_plain (s : State) : Plain s (s.fallThrough 0x00#7 0 0) :=
  ⟨⟨⟨rfl, rfl, rfl, rfl, rfl, rfl, rfl, rfl, rfl, rfl, rfl, rfl, rfl⟩, rfl, .of_eq rfl,
    fun h => h.retire _ _⟩, rfl, rfl, rfl⟩

theorem exec_executes (i : Instr) (s : State) : ∃ t, exec i s = .next t ∧ Executes s t := by
  cases i
  case nop => exact ⟨_, rfl, (nop_plain s).toExecutes⟩
  case xch r ea => obtain ⟨t, h, k⟩ := xch_plain r ea s; exact ⟨t, h, k.toExecutes⟩
  case rfn => obtain ⟨t, h, k, _⟩ := rfn_executes s; exact ⟨t, h, k⟩
  case jfr ea ps => exact ⟨_, rfl, (callProc_executes _ _ _ ea ps s).1⟩
  case jfa ea ps => exact ⟨_, rfl, (callProc_executes _ _ _ ea ps s).1⟩
  case jsv ea ps => exact ⟨_, rfl, (supervisorCall_plain kdispatch ea ps s).toExecutes⟩
  case movSpEa ea => exact ⟨_, rfl, special_executes _ _ ea s fun u v => ⟨by constructor <;> rfl, rfl,
    fun h => h.of_eq rfl rfl rfl rfl rfl rfl rfl⟩⟩
  case movXmEa ea => exact ⟨_, rfl, special_executes _ _ ea s fun u v => ⟨by constructor <;> rfl, rfl,
    fun h => h.of_eq rfl rfl rfl rfl rfl rfl rfl⟩⟩
  case movXbEa ea => exact ⟨_, rfl, special_executes _ _ ea s fun u v => ⟨by constructor <;> rfl, rfl,
    fun h => h.of_eq rfl rfl rfl rfl rfl rfl rfl⟩⟩
  all_goals first
    | exact ⟨_, rfl, (aluEaR_plain _ _ _ _ s).toExecutes⟩
    | exact ⟨_, rfl, (aluREa_plain _ _ _ _ s).toExecutes⟩
    | exact ⟨_, rfl, (aluEa_plain _ _ _ s).toExecutes⟩
    | exact ⟨_, rfl, (storeEa_plain _ _ _ s).toExecutes⟩
    | exact ⟨_, rfl, (loadReg_plain _ _ _ s).toExecutes⟩
    | exact ⟨_, rfl, (skipWhen_plain _ _ _ _ s).toExecutes⟩
    | exact ⟨_, rfl, (retire_plain _ s _ _).toExecutes⟩
    | exact ⟨_, rfl, (invalidOpcode_plain _ s).toExecutes⟩

end Sys2Proof.Machine
end

