-- ==== Sys2Proof/Laws/Flags.lean ====
section
/-! SUPPORT. What each operation computes, in terms of BitVec operations. -/
namespace Sys2Proof.Machine

theorem and_one_toNat (c : Word) : (c &&& 1).toNat = c.toNat % 2 := by
  simp [BitVec.toNat_and, Nat.and_one_is_mod]

theorem aluAdd_eq (a b c : Word) : aluAdd a b c = ⟨a + b, some (if 2 ^ 16 ≤ a.toNat + b.toNat then 1 else 0)⟩ := by
  simp [aluAdd, bitWord, BitVec.toNat_eq]

theorem aluAdc_eq (a b c : Word) :
    aluAdc a b c =
      ⟨a + b + (c &&& 1), some (if 2 ^ 16 ≤ a.toNat + b.toNat + (c &&& 1).toNat then 1 else 0)⟩ := by
  rw [and_one_toNat]
  simp only [aluAdc, bitWord, decide_eq_true_eq]
  congr 1
  apply BitVec.eq_of_toNat_eq
  simp [Nat.and_one_is_mod]

theorem aluSub_eq (a b c : Word) : aluSub a b c = ⟨a - b, some (if a < b then 1 else 0)⟩ := by
  simp only [aluSub, bitWord, BitVec.lt_def, decide_eq_true_eq]
  congr 1
  apply BitVec.eq_of_toNat_eq
  have := a.isLt; have := b.isLt
  rw [BitVec.toNat_sub, BitVec.toNat_ofInt]
  omega

theorem aluSbc_eq (a b c : Word) :
    aluSbc a b c =
      ⟨a - b - (c &&& 1), some (if a.toNat < b.toNat + (c &&& 1).toNat then 1 else 0)⟩ := by
  have h := and_one_toNat c
  simp only [aluSbc, bitWord, decide_eq_true_eq, h]
  congr 1
  apply BitVec.eq_of_toNat_eq
  have := a.isLt; have := b.isLt
  rw [BitVec.toNat_sub, BitVec.toNat_sub, h, BitVec.toNat_ofInt]
  omega

theorem aluNeg_eq (a : Word) : aluNeg a = ⟨-a, some (if a = 0 then 0 else 1)⟩ := by
  simp only [aluNeg, bitWord]
  congr 1
  · apply BitVec.eq_of_toNat_eq
    have := a.isLt
    rw [BitVec.toNat_neg, BitVec.toNat_ofInt]
    omega
  · by_cases h : a = 0 <;> simp [h]

theorem aluMul_eq (a b c : Word) :
    aluMul a b c =
      ⟨(a.zeroExtend 32 * b.zeroExtend 32).extractLsb' 0 16, some ((a.zeroExtend 32 * b.zeroExtend 32).extractLsb' 16 16)⟩ := by
  have hp : (a.zeroExtend 32 * b.zeroExtend 32 : BitVec 32).toNat = a.toNat * b.toNat := by
    have := a.isLt; have := b.isLt
    have h2 : a.toNat * b.toNat < 2^32 := by nlinarith
    rw [BitVec.toNat_mul, BitVec.toNat_setWidth, BitVec.toNat_setWidth,
      Nat.mod_eq_of_lt (by omega : a.toNat < 2 ^ 32), Nat.mod_eq_of_lt (by omega : b.toNat < 2 ^ 32), Nat.mod_eq_of_lt h2]
  simp only [aluMul]
  congr 1
  · apply BitVec.eq_of_toNat_eq
    simp only [BitVec.extractLsb'_toNat, hp, BitVec.toNat_ofNat, Nat.shiftRight_zero]
  · congr 1
    apply BitVec.eq_of_toNat_eq
    simp only [BitVec.extractLsb'_toNat, hp, BitVec.toNat_ofNat, Nat.shiftRight_eq_div_pow]

theorem aluMls_eq (a b c : Word) :
    aluMls a b c =
      ⟨(a.signExtend 32 * b.signExtend 32).extractLsb' 0 16, some ((a.signExtend 32 * b.signExtend 32).extractLsb' 16 16)⟩ := by
  have hp : (a.signExtend 32 * b.signExtend 32 : BitVec 32) = BitVec.ofInt 32 (a.toInt * b.toInt) := by
    apply BitVec.eq_of_toInt_eq
    rw [BitVec.toInt_mul, BitVec.toInt_ofInt, BitVec.toInt_signExtend_of_le (by omega), BitVec.toInt_signExtend_of_le (by omega)]
  simp only [aluMls, hp]

theorem aluDiv_eq (a b c : Word) : aluDiv a b c = ⟨if b = 0 then 0 else a / b, none⟩ := by
  simp only [aluDiv]
  congr 2
  apply BitVec.eq_of_toNat_eq
  simp
  exact Nat.lt_of_le_of_lt (Nat.div_le_self _ _) a.isLt

theorem aluMod_eq (a b c : Word) : aluMod a b c = ⟨if b = 0 then 0 else a % b, none⟩ := by
  simp only [aluMod]
  congr 2
  apply BitVec.eq_of_toNat_eq
  simp
  exact Nat.lt_of_le_of_lt (Nat.mod_le _ _) a.isLt

theorem aluDvs_eq (a b c : Word) : aluDvs a b c = ⟨if b = 0 then 0 else a.sdiv b, none⟩ := by
  simp only [aluDvs]
  congr 2
  apply BitVec.eq_of_toInt_eq
  rw [BitVec.toInt_sdiv, BitVec.toInt_ofInt]

theorem aluMds_eq (a b c : Word) : aluMds a b c = ⟨if b = 0 then 0 else a.srem b, none⟩ := by
  simp only [aluMds]
  congr 2
  apply BitVec.eq_of_toInt_eq
  rw [BitVec.toInt_srem, BitVec.toInt_ofInt, ← Int.tmod_def, ← BitVec.toInt_srem, ← BitVec.toInt_ofInt, BitVec.ofInt_toInt]

theorem aluNot_eq (a : Word) : aluNot a = ⟨~~~a, none⟩ := by
  simp only [aluNot]; congr 1
  ext i hi
  have : i < 16 := hi
  interval_cases i <;> simp

theorem aluShl_eq (a n c : Word) :
    aluShl a n c =
      ⟨(a.zeroExtend 32 <<< n.toNat).extractLsb' 0 16, some ((a.zeroExtend 32 <<< n.toNat).extractLsb' 16 16)⟩ := by
  have hp : (a.zeroExtend 32 <<< n.toNat : BitVec 32).toNat = (a.toNat * 2^n.toNat) % 2^32 := by
    have := a.isLt
    simp only [BitVec.toNat_shiftLeft, BitVec.toNat_setWidth, BitVec.zeroExtend, Nat.shiftLeft_eq]
    rw [Nat.mod_eq_of_lt (by omega : a.toNat < 2^32)]
  simp only [aluShl]
  generalize a.toNat * 2^n.toNat = w at *
  congr 1
  · apply BitVec.eq_of_toNat_eq
    simp only [BitVec.extractLsb'_toNat, hp, BitVec.toNat_ofNat, Nat.shiftRight_zero]
    omega
  · congr 1
    apply BitVec.eq_of_toNat_eq
    simp only [BitVec.extractLsb'_toNat, hp, BitVec.toNat_ofNat, Nat.shiftRight_eq_div_pow]
    omega

theorem append_zero_toNat (a : Word) : (a ++ 0#16 : BitVec 32).toNat = a.toNat * 2^16 := by
  rw [BitVec.toNat_append, Nat.shiftLeft_eq]; simp

theorem aluShr_eq (a n c : Word) :
    aluShr a n c =
      ⟨((a ++ 0#16) >>> n.toNat).extractLsb' 16 16, some (((a ++ 0#16) >>> n.toNat).extractLsb' 0 16)⟩ := by
  have hp : ((a ++ 0#16) >>> n.toNat : BitVec 32).toNat = a.toNat * 2^16 / 2^n.toNat := by
    rw [BitVec.toNat_ushiftRight, append_zero_toNat, Nat.shiftRight_eq_div_pow]
  simp only [aluShr]
  congr 1
  · apply BitVec.eq_of_toNat_eq
    simp only [BitVec.extractLsb'_toNat, hp, BitVec.toNat_ofNat, Nat.shiftRight_eq_div_pow]
  · congr 1
    apply BitVec.eq_of_toNat_eq
    simp only [BitVec.extractLsb'_toNat, hp, BitVec.toNat_ofNat, Nat.shiftRight_zero]

theorem append_zero_toInt (a : Word) : (a ++ 0#16 : BitVec 32).toInt = a.toInt * 2^16 := by
  have := a.isLt
  rw [BitVec.toInt_eq_toNat_cond, append_zero_toNat, BitVec.toInt_eq_toNat_cond]
  split <;> split <;> omega

theorem aluAsr_eq (a n c : Word) :
    aluAsr a n c =
      ⟨((a ++ 0#16).sshiftRight n.toNat).extractLsb' 16 16, some (((a ++ 0#16).sshiftRight n.toNat).extractLsb' 0 16)⟩ := by
  have hp : ((a ++ 0#16 : BitVec 32).sshiftRight n.toNat).toInt = a.toInt * 2^16 / ((2^n.toNat : Nat) : Int) := by
    rw [BitVec.toInt_sshiftRight, append_zero_toInt, Int.shiftRight_eq_div_pow]
  simp only [aluAsr, ← hp]
  generalize (a ++ 0#16 : BitVec 32).sshiftRight n.toNat = g
  have e : g.toInt = (g.toNat : Int) ∨ g.toInt = (g.toNat : Int) - 2^32 := by
    rw [BitVec.toInt_eq_toNat_cond]; split <;> simp
  have := g.isLt
  congr 1
  · apply BitVec.eq_of_toNat_eq
    simp only [BitVec.extractLsb'_toNat, BitVec.toNat_ofInt, Nat.shiftRight_eq_div_pow]
    rcases e with e | e <;> rw [e] <;> omega
  · congr 1
    apply BitVec.eq_of_toNat_eq
    simp only [BitVec.extractLsb'_toNat, BitVec.toNat_ofInt, Nat.shiftRight_zero]
    rcases e with e | e <;> rw [e] <;> omega

end Sys2Proof.Machine
end

