-- ==== Sys2Proof/Laws/RunLoop.lean ====
section
/-! SUPPORT. What the end of a burst and the scheduler can do, said once. -/
namespace Sys2Proof.Machine
open Sys2Proof.Config

/-! ### Timers (R342, R343) -/

/-- Only the timers, HCR and the count of line callbacks move, and HCR keeps its causes. -/
structure Ticks (s t : State) : Prop where
  only : t = { s with timers := t.timers, hcr := t.hcr, lineCalls := t.lineCalls }
  grows : Grows s t
  causes : causesOnly s.hcr → causesOnly t.hcr

theorem Ticks.refl (s : State) : Ticks s s := ⟨rfl, .refl s, id⟩

theorem Ticks.trans {s t u : State} (h : Ticks s t) (k : Ticks t u) : Ticks s u := by
  refine ⟨?_, h.grows.trans k.grows, fun c => k.causes (h.causes c)⟩
  rw [k.only, h.only]

theorem audioSample_ticks (s : State) : Ticks s s.audioSample := by
  unfold State.audioSample
  dsimp only
  split
  · exact ⟨rfl, .of_or (k := HaltCause.audio.mask) rfl, fun h => causesOnly_or h .audio⟩
  · exact ⟨rfl, .of_eq rfl, id⟩

theorem videoLine_ticks (s : State) : Ticks s s.videoLine := by
  unfold State.videoLine
  dsimp only
  split
  · exact ⟨rfl, .of_or (k := HaltCause.frame.mask) rfl, fun h => causesOnly_or h .frame⟩
  · exact ⟨rfl, .of_eq rfl, id⟩

theorem audioLoop_ticks (n : Nat) (s : State) : Ticks s (s.audioLoop n) := by
  induction n generalizing s with
  | zero => exact .refl s
  | succ n ih =>
    rw [State.audioLoop]
    split
    · exact (audioSample_ticks s).trans (ih _)
    · exact .refl s

theorem videoLoop_ticks (n : Nat) (s : State) : Ticks s (s.videoLoop n) := by
  induction n generalizing s with
  | zero => exact .refl s
  | succ n ih =>
    rw [State.videoLoop]
    split
    · exact (videoLine_ticks s).trans (ih _)
    · exact .refl s

/-- One sample leaves ACYC a sample shorter and ASMP below 512, and the line timer alone. -/
theorem audioSample_timers (s : State) (h : s.timers.asmp < 512) :
    s.audioSample.timers.acyc = s.timers.acyc - s.params.cyclesPerSample ∧ s.audioSample.timers.asmp < 512 ∧
      s.audioSample.timers.lcyc = s.timers.lcyc ∧ s.audioSample.timers.line = s.timers.line ∧
      s.audioSample.params = s.params := by
  unfold State.audioSample
  dsimp only
  split
  · exact ⟨rfl, show 0 < 512 by decide, rfl, rfl, rfl⟩
  · exact ⟨rfl, by dsimp only; omega, rfl, rfl, rfl⟩

theorem videoLine_timers (s : State) (h : s.timers.line < s.params.linesPerFrame) :
    s.videoLine.timers.lcyc = s.timers.lcyc - s.params.cyclesPerLine ∧
      s.videoLine.timers.line < s.params.linesPerFrame ∧ s.videoLine.timers.acyc = s.timers.acyc ∧
      s.videoLine.timers.asmp = s.timers.asmp ∧ s.videoLine.params = s.params := by
  unfold State.videoLine
  dsimp only
  split
  · exact ⟨rfl, s.params.linesPerFrame.pos, rfl, rfl, rfl⟩
  · exact ⟨rfl, by dsimp only; omega, rfl, rfl, rfl⟩

/-- The bound of the loop is never reached early: after it ACYC is below the period. -/
theorem audioLoop_timers (n : Nat) (s : State) (hn : s.timers.acyc ≤ n) (h : s.timers.asmp < 512) :
    (s.audioLoop n).timers.acyc < s.params.cyclesPerSample ∧ (s.audioLoop n).timers.asmp < 512 ∧
      (s.audioLoop n).timers.lcyc = s.timers.lcyc ∧ (s.audioLoop n).timers.line = s.timers.line := by
  have hp := s.params.cyclesPerSample.pos
  induction n generalizing s with
  | zero => exact ⟨by show s.timers.acyc < _; omega, h, rfl, rfl⟩
  | succ n ih =>
    rw [State.audioLoop]
    split
    · obtain ⟨a, b, c, d, e⟩ := audioSample_timers s h
      obtain ⟨a', b', c', d'⟩ := ih s.audioSample (by rw [a]; omega) b (by rw [e]; exact hp)
      rw [e] at a'
      exact ⟨a', b', c'.trans c, d'.trans d⟩
    · exact ⟨Nat.lt_of_not_le ‹_›, h, rfl, rfl⟩

theorem videoLoop_timers (n : Nat) (s : State) (hn : s.timers.lcyc ≤ n) (h : s.timers.line < s.params.linesPerFrame) :
    (s.videoLoop n).timers.lcyc < s.params.cyclesPerLine ∧ (s.videoLoop n).timers.line < s.params.linesPerFrame ∧
      (s.videoLoop n).timers.acyc = s.timers.acyc ∧ (s.videoLoop n).timers.asmp = s.timers.asmp := by
  have hp := s.params.cyclesPerLine.pos
  induction n generalizing s with
  | zero => exact ⟨by show s.timers.lcyc < _; omega, h, rfl, rfl⟩
  | succ n ih =>
    rw [State.videoLoop]
    split
    · obtain ⟨a, b, c, d, e⟩ := videoLine_timers s h
      obtain ⟨a', b', c', d'⟩ := ih s.videoLine (by rw [a]; omega) (by rw [e]; exact b) (by rw [e]; exact hp)
      rw [e] at a' b'
      exact ⟨a', b', c'.trans c, d'.trans d⟩
    · exact ⟨Nat.lt_of_not_le ‹_›, h, rfl, rfl⟩

theorem audioTick_ticks (s : State) (u : Nat) : Ticks s (s.audioTick u) :=
  (show Ticks s { s with timers := { s.timers with acyc := s.timers.acyc + u } } from ⟨rfl, .of_eq rfl, id⟩).trans
    (audioLoop_ticks _ _)

theorem videoTick_ticks (s : State) (u : Nat) : Ticks s (s.videoTick u) :=
  (show Ticks s { s with timers := { s.timers with lcyc := s.timers.lcyc + u } } from ⟨rfl, .of_eq rfl, id⟩).trans
    (videoLoop_ticks _ _)

/-- The two ticks of a pass keep the timers within their periods. -/
theorem ticks_ok (s : State) (u : Nat) (h : s.timers.Ok s.params) :
    ((s.audioTick u).videoTick u).timers.Ok s.params := by
  obtain ⟨a, b, c, d⟩ := audioLoop_timers (s.timers.acyc + u)
    { s with timers := { s.timers with acyc := s.timers.acyc + u } } (Nat.le_refl _) h.asmp
  have hp : (s.audioTick u).params = s.params := by rw [(audioTick_ticks s u).only]
  have hl : (s.audioTick u).timers.line < (s.audioTick u).params.linesPerFrame := by
    rw [hp]; exact d.trans_lt h.line
  obtain ⟨a', b', c', d'⟩ := videoLoop_timers ((s.audioTick u).timers.lcyc + u)
    { s.audioTick u with timers := { (s.audioTick u).timers with lcyc := (s.audioTick u).timers.lcyc + u } }
    (Nat.le_refl _) hl
  refine ⟨c'.trans_lt a, d'.trans_lt b, a'.trans_le ?_, b'.trans_le ?_⟩
  · exact Nat.le_of_eq (congrArg (fun p : Params => (p.cyclesPerLine : Nat)) hp)
  · exact Nat.le_of_eq (congrArg (fun p : Params => (p.linesPerFrame : Nat)) hp)

/-! ### FIFO drain (R346) -/

/-- A drain touches the lanes and peripheral memory. -/
theorem drainLoop_only (l : LaneId) (ring : List (BitVec 32)) (avail : Nat) (s : State) :
    s.drainLoop l ring avail = { s with
      laneA := (s.drainLoop l ring avail).laneA, laneB := (s.drainLoop l ring avail).laneB,
      pmem := (s.drainLoop l ring avail).pmem } := by
  have hs : ∀ (s : State) (x : Lane), s.setLane l x = { s with laneA := (s.setLane l x).laneA, laneB := (s.setLane l x).laneB, pmem := (s.setLane l x).pmem } := by
    intro s x; cases l <;> rfl
  induction ring generalizing avail s with
  | nil => exact hs s _
  | cons w rest ih =>
    rw [State.drainLoop]
    split
    · exact hs s _
    · rw [ih]
      have hc : ∀ s : State, s.copWrite l w = { s with laneA := (s.copWrite l w).laneA, laneB := (s.copWrite l w).laneB, pmem := (s.copWrite l w).pmem } := by
        intro s; unfold State.copWrite; dsimp only; split <;> cases l <;> rfl
      rw [hc (s.setLane l _), hs s]

theorem drain_only (s : State) (l : LaneId) (avail : Nat) :
    s.drain l avail = { s with
      laneA := (s.drain l avail).laneA, laneB := (s.drain l avail).laneB, pmem := (s.drain l avail).pmem } :=
  drainLoop_only l _ avail s

/-! ### The scheduler (R352, R353) -/

theorem slots_getElem_set (v : Vector TaskSlot 16) (i j : Fin 16) (x : TaskSlot) :
    (v.set i x)[j] = if i = j then x else v[j] := by
  simp only [Fin.getElem_fin, Vector.getElem_set]
  by_cases h : i = j
  · simp [h]
  · rw [if_neg h, if_neg (fun e => h (Fin.ext e))]

/-- What the scheduler does at a queued slot that is not marked yet. -/
theorem schedSlot_fresh (s : State) (i : Fin 16) (h : s.slots[i].status = .queued) (hd : s.slots[i].dispatched = false) :
    (s.schedSlot i).slots[i].dispatched = true ∧
    (taskValid s.slots[i].params = true → (s.schedSlot i).slots[i].status = .running) ∧
    (taskValid s.slots[i].params = false →
      (s.schedSlot i).slots[i].status = .queued ∧ (s.schedSlot i).hcr = s.hcr ||| 0x0010) := by
  have hq : (decide (s.slots[i].status = .queued) && !(s.slots[i].dispatched && markStands s.tick)) = true := by
    rw [h, hd]; rfl
  unfold State.schedSlot
  dsimp only
  rw [if_pos hq]
  by_cases hv : taskValid s.slots[i].params = true
  · rw [if_pos hv]
    have e := agentWrites_fields
      ((s.setSlot i { s.slots[i] with dispatched := true }).setSlot i
        { status := .running, dispatched := true, params := s.slots[i].params }) (taskMayWrite s.slots[i].params)
      (taskCallback s.slots[i] s.ram s.tick)
    have k : ((State.agentWrites ((s.setSlot i { s.slots[i] with dispatched := true }).setSlot i
        { status := .running, dispatched := true, params := s.slots[i].params }) (taskMayWrite s.slots[i].params)
        (taskCallback s.slots[i] s.ram s.tick)).nextTick.slots[i]) =
        ({ status := .running, dispatched := true, params := s.slots[i].params } : TaskSlot) := by
      show (State.agentWrites _ _ _).slots[i] = _
      rw [e]
      exact (slots_getElem_set _ i i _).trans (if_pos rfl)
    rw [k]
    exact ⟨rfl, fun _ => rfl, fun f => absurd (f.symm.trans hv) (by decide)⟩
  · rw [if_neg hv]
    have k : ((s.setSlot i { s.slots[i] with dispatched := true }).raise .fault).nextTick.slots[i] =
        { s.slots[i] with dispatched := true } := (slots_getElem_set _ i i _).trans (if_pos rfl)
    rw [k]
    exact ⟨rfl, fun f => absurd f hv, fun _ => ⟨h, rfl⟩⟩

/-- The three things the scheduler can do at a slot. -/
theorem schedSlot_cases (s : State) (i : Fin 16) :
    s.schedSlot i = s ∨
    (s.slots[i].status = .queued ∧ taskValid s.slots[i].params = false ∧
      s.schedSlot i = { s with slots := s.slots.set i { s.slots[i] with dispatched := true },
                               hcr := s.hcr ||| 0x0010, tick := s.tick + 1 }) ∨
    (s.slots[i].status = .queued ∧ taskValid s.slots[i].params = true ∧
      ∃ ram, s.schedSlot i = { s with
          slots := s.slots.set i { status := .running, dispatched := true, params := s.slots[i].params },
          ram := ram, tick := s.tick + 1 } ∧
        ∀ a : Word, taskMayWrite s.slots[i].params a = false → ram.read a.toNat = s.ramAt a) := by
  unfold State.schedSlot
  dsimp only
  split
  · rename_i hq
    rw [Bool.and_eq_true, decide_eq_true_eq] at hq
    split
    · rename_i hv
      refine .inr (.inr ⟨hq.1, hv, ?_⟩)
      have hset : (s.setSlot i { s.slots[i] with dispatched := true }).setSlot i
          { status := .running, dispatched := true, params := s.slots[i].params } =
          s.setSlot i { status := .running, dispatched := true, params := s.slots[i].params } := by
        unfold State.setSlot
        exact congrArg (fun v => ({ s with slots := v } : State)) (Vector.set_set ..)
      rw [hset]
      generalize hL : taskCallback s.slots[i] s.ram s.tick = L
      refine ⟨((s.setSlot i { status := .running, dispatched := true, params := s.slots[i].params }).agentWrites
        (taskMayWrite s.slots[i].params) L).ram, ?_, fun a ha => agentWrites_ram _ _ _ a ha⟩
      conv_lhs => rw [agentWrites_fields]
      rfl
    · rename_i hv
      exact .inr (.inl ⟨hq.1, Bool.eq_false_iff.2 hv, rfl⟩)
  · exact .inl rfl

/-- What the scheduler can do. -/
structure Sched (s t : State) : Prop where
  only : t = { s with ram := t.ram, hcr := t.hcr, slots := t.slots, tick := t.tick }
  grows : Grows s t

theorem Sched.trans {s t u : State} (h : Sched s t) (k : Sched t u) : Sched s u :=
  ⟨by rw [k.only, h.only], h.grows.trans k.grows⟩

theorem schedSlot_sched (s : State) (i : Fin 16) : Sched s (s.schedSlot i) := by
  rcases schedSlot_cases s i with e | ⟨_, _, e⟩ | ⟨_, _, _, e, _⟩ <;> rw [e]
  · exact ⟨rfl, .refl s⟩
  · exact ⟨rfl, .of_or rfl⟩
  · exact ⟨rfl, .of_eq rfl⟩

theorem taskSched_sched (s : State) : Sched s s.taskSched := by
  unfold State.taskSched
  generalize ([0, 1, 2, 3, 4, 5, 6, 7, 8, 9, 10, 11, 12, 13, 14, 15] : List (Fin 16)) = l
  induction l generalizing s with
  | nil => exact ⟨rfl, .refl s⟩
  | cons i l ih => exact (schedSlot_sched s i).trans (ih _)

/-! ### The end of a burst (R330) -/

/-- What the end of a burst leaves alone. -/
structure Passes (s t : State) : Prop where
  gpr : t.gpr = s.gpr
  xm : t.xm = s.xm
  xb : t.xb = s.xb
  pc : t.pc = s.pc
  sp : t.sp = s.sp
  bp : t.bp = s.bp
  sbot : t.sbot = s.sbot
  stop : t.stop = s.stop
  code : t.code = s.code
  cells : t.cells = s.cells
  ext : t.ext = s.ext
  busMap : t.busMap = s.busMap
  stall : t.stall = s.stall
  bpmap : t.bpmap = s.bpmap
  kernel : t.kernel = s.kernel
  image : t.image = s.image
  params : t.params = s.params
  started : t.started = s.started
  host : t.host = s.host
  cost : t.cost = s.cost
  grows : Grows s t

theorem Passes.trans {s t u : State} (h : Passes s t) (k : Passes t u) : Passes s u :=
  ⟨k.gpr.trans h.gpr, k.xm.trans h.xm, k.xb.trans h.xb, k.pc.trans h.pc, k.sp.trans h.sp, k.bp.trans h.bp,
    k.sbot.trans h.sbot, k.stop.trans h.stop, k.code.trans h.code, k.cells.trans h.cells, k.ext.trans h.ext,
    k.busMap.trans h.busMap, k.stall.trans h.stall, k.bpmap.trans h.bpmap, k.kernel.trans h.kernel,
    k.image.trans h.image, k.params.trans h.params, k.started.trans h.started, k.host.trans h.host,
    k.cost.trans h.cost, h.grows.trans k.grows⟩

theorem Passes.of_ticks {s t : State} (h : Ticks s t) : Passes s t := by
  constructor <;> first | exact h.grows | rw [h.only]

theorem Passes.of_sched {s t : State} (h : Sched s t) : Passes s t := by
  constructor <;> first | exact h.grows | rw [h.only]

theorem Passes.drain (s : State) (l : LaneId) (avail : Nat) : Passes s (s.drain l avail) := by
  have h := drain_only s l avail
  constructor <;> first | exact .of_eq (by rw [h]) | rw [h]

theorem Passes.hkSurcharge (s : State) : Passes s s.hkSurcharge.2 ∧ s.hkSurcharge.2.ram = s.ram := by
  unfold State.hkSurcharge
  split <;> exact ⟨⟨rfl, rfl, rfl, rfl, rfl, rfl, rfl, rfl, rfl, rfl, rfl, rfl, rfl, rfl, rfl, rfl, rfl, rfl, rfl, rfl,
    .of_eq rfl⟩, rfl⟩

/-- The surcharge is within HK_MAX and moves only the counter of free values. -/
theorem hkSurcharge_spec (s : State) :
    s.hkSurcharge.1 ≤ s.params.hkMax ∧ s.hkSurcharge.2 = { s with tick := s.hkSurcharge.2.tick } := by
  unfold State.hkSurcharge
  split
  · exact ⟨Nat.zero_le _, rfl⟩
  · rename_i m e
    exact ⟨by rw [e]; exact Nat.le_of_lt_succ (Nat.mod_lt _ (Nat.succ_pos _)), rfl⟩

/-- Steps 2 to 4 of a pass, which also leave data RAM alone. -/
theorem passTail_passes (s : State) (c : RunCall) :
    Passes s (s.passTail c).1 ∧ (s.passTail c).1.ram = s.ram ∧ (s.passTail c).1.slots = s.slots ∧
      (s.passTail c).1.call = s.call := by
  unfold State.passTail
  dsimp only
  generalize hu : c.used + s.hkSurcharge.1 = u
  have h1 := Passes.hkSurcharge s
  have hk : s.hkSurcharge.2.slots = s.slots ∧ s.hkSurcharge.2.call = s.call := by
    unfold State.hkSurcharge; split <;> exact ⟨rfl, rfl⟩
  have h2 := Passes.drain s.hkSurcharge.2 .laneA u
  have h3 := Passes.drain (s.hkSurcharge.2.drain .laneA u) .laneB u
  have h4 := Passes.of_ticks (audioTick_ticks ((s.hkSurcharge.2.drain .laneA u).drain .laneB u) u)
  have h5 := Passes.of_ticks (videoTick_ticks (((s.hkSurcharge.2.drain .laneA u).drain .laneB u).audioTick u) u)
  refine ⟨(((h1.1.trans h2).trans h3).trans h4).trans h5, ?_, ?_, ?_⟩ <;>
    rw [(videoTick_ticks _ u).only, (audioTick_ticks _ u).only, drain_only _ .laneB u, drain_only _ .laneA u]
  · exact h1.2
  · exact hk.1
  · exact hk.2

theorem passEnd_passes (s : State) (c : RunCall) : Passes s (s.passEnd c) := by
  have h : ∀ (s : State) (r : HostReply) (o : Option RunCall), Passes s { s with call := o, reply := r } := fun s r o =>
    ⟨rfl, rfl, rfl, rfl, rfl, rfl, rfl, rfl, rfl, rfl, rfl, rfl, rfl, rfl, rfl, rfl, rfl, rfl, rfl, rfl, .of_eq rfl⟩
  unfold State.passEnd
  split
  · exact h s _ _
  · dsimp only
    split
    · exact (Passes.of_sched (taskSched_sched s)).trans (h _ _ _)
    · exact (Passes.of_sched (taskSched_sched s)).trans (h _ _ _)

theorem endOfBurst_passes (s : State) (c : RunCall) : Passes s (s.endOfBurst c) :=
  (passTail_passes s c).1.trans (passEnd_passes _ _)

/-- The end of a burst is what R330 says of its pass. -/
theorem endOfBurst_passResult (t : State) (c : RunCall) (n : Nat) :
    PassResult c n t (t.endOfBurst { c with used := n, first := false }) := by
  unfold PassResult State.endOfBurst State.passTail
  dsimp only
  generalize (((t.hkSurcharge.2.drain .laneA (n + t.hkSurcharge.1)).drain .laneB (n + t.hkSurcharge.1)).audioTick
    (n + t.hkSurcharge.1)).videoTick (n + t.hkSurcharge.1) = p
  unfold State.passEnd
  refine ⟨fun h => ?_, fun h h' => ?_, fun h h' h'' => ?_⟩
  · rw [if_pos h]; rfl
  · rw [if_neg (not_not.2 h)]; dsimp only; rw [if_pos h']; rfl
  · rw [if_neg (not_not.2 h)]; dsimp only; rw [if_neg (by rintro (x | x); exact h' x; exact x h'')]; rfl

/-- A halt cause or SINGLE ends the call. -/
theorem passEnd_ends (s : State) (c : RunCall) (h : s.hcr ≠ 0 ∨ c.mode = .single) : (s.passEnd c).call = none := by
  unfold State.passEnd
  dsimp only
  by_cases h0 : s.hcr ≠ 0
  · rw [if_pos h0]; rfl
  · rw [if_neg h0, if_pos (.inl (h.resolve_left h0))]; rfl

theorem Grows.ne_zero {s t : State} (h : Grows s t) (k : s.hcr ≠ 0) : t.hcr ≠ 0 := by
  intro e
  unfold Grows at h
  rw [e] at h
  exact k (h.symm.trans BitVec.and_zero)

theorem endOfBurst_ends (s : State) (c : RunCall) (h : s.hcr ≠ 0 ∨ c.mode = .single) :
    (s.endOfBurst c).call = none :=
  passEnd_ends _ _ (h.imp (passTail_passes s c).1.grows.ne_zero id)

/-- With a cause set the scheduler is not reached, so data RAM and the slots stay. -/
theorem endOfBurst_halted (s : State) (c : RunCall) (h : s.hcr ≠ 0) :
    (s.endOfBurst c).ram = s.ram ∧ (s.endOfBurst c).slots = s.slots := by
  obtain ⟨p, a, b, _⟩ := passTail_passes s c
  unfold State.endOfBurst State.passEnd
  dsimp only
  rw [if_pos (p.grows.ne_zero h)]
  exact ⟨a, b⟩

theorem afterInstr_passes (s : State) (c : RunCall) : Passes s (s.afterInstr c) := by
  unfold State.afterInstr
  dsimp only
  split
  · exact endOfBurst_passes s _
  · exact ⟨rfl, rfl, rfl, rfl, rfl, rfl, rfl, rfl, rfl, rfl, rfl, rfl, rfl, rfl, rfl, rfl, rfl, rfl, rfl, rfl, .of_eq rfl⟩

theorem State.DataOk.passTail {s : State} (h : s.DataOk) (c : RunCall) : (s.passTail c).1.DataOk := by
  unfold State.passTail
  dsimp only
  generalize hu : c.used + s.hkSurcharge.1 = u
  have h1 : s.hkSurcharge.2.DataOk := by
    unfold State.hkSurcharge; split <;> exact h.of_eq rfl rfl rfl rfl rfl rfl rfl
  have ht : ∀ {s t : State}, Ticks s t → s.DataOk → t.DataOk := by
    intro s t k d
    refine ⟨?_, ?_, ?_, ?_, ?_, k.causes d.hcr, ?_⟩
    · rw [k.only]; exact d.ram
    · rw [k.only]; exact d.cells
    · rw [k.only]; exact d.ext
    · rw [k.only]; exact d.laneA
    · rw [k.only]; exact d.laneB
    · rw [k.only]; exact d.stored
  exact ht (videoTick_ticks _ u) (ht (audioTick_ticks _ u) ((h1.drain .laneA u).drain .laneB u))

/-- The timers after steps 2 to 4. -/
theorem passTail_timers (s : State) (c : RunCall) (h : s.timers.Ok s.params) :
    (s.passTail c).1.timers.Ok s.params := by
  unfold State.passTail
  dsimp only
  generalize hu : c.used + s.hkSurcharge.1 = u
  have hk : s.hkSurcharge.2.timers = s.timers ∧ s.hkSurcharge.2.params = s.params := by
    unfold State.hkSurcharge; split <;> exact ⟨rfl, rfl⟩
  have hd : ((s.hkSurcharge.2.drain .laneA u).drain .laneB u).timers = s.timers ∧
      ((s.hkSurcharge.2.drain .laneA u).drain .laneB u).params = s.params := by
    rw [drain_only _ .laneB u, drain_only _ .laneA u]; exact hk
  have := ticks_ok ((s.hkSurcharge.2.drain .laneA u).drain .laneB u) u (by rw [hd.1, hd.2]; exact h)
  rw [hd.2] at this
  exact this

end Sys2Proof.Machine
end

