-- ==== Sys2Proof/Tests/Slice0.lean ====
section
/-! SUPPORT. The model's own tests: the WellFormed smoke test, words written out from the spec's encodings, one step
of each instruction on the vectors of spec/95_test_vectors.md (its section numbers stand in the comments), and a
witness for every statement that has hypotheses. -/
namespace Sys2Proof.Tests
open Sys2Proof.Machine Sys2Proof.Config

/-! ### WellFormed (R108) -/

/-- Eight parameters do not fit the 3-bit count field; seven do. -/
theorem test_wellFormed_jfr : (Instr.jfr (.imm4 0) (List.replicate 8 (.imm4 0))).wellFormed = false ∧
    (Instr.jfr (.imm4 0) (List.replicate 7 (.imm4 0))).wellFormed = true := by decide
theorem test_wellFormed_jfa : (Instr.jfa (.imm4 0) (List.replicate 8 (.imm4 0))).wellFormed = false ∧
    (Instr.jfa (.imm4 0) (List.replicate 7 (.imm4 0))).wellFormed = true := by decide
theorem test_wellFormed_jsv : (Instr.jsv (.imm4 0) (List.replicate 8 (.imm4 0))).wellFormed = false ∧
    (Instr.jsv (.imm4 0) (List.replicate 7 (.imm4 0))).wellFormed = true := by decide

/-! ### Decoding: class in bits 15:9, `r` in bits 8:6, `m` in bits 5:0 (R101, R110) -/

theorem test_decode_move :
    decodeTableWord 16 0x0000 = some .nop ∧ decodeTableWord 16 0x01FF = some .nop ∧
    decodeTableWord 16 0x0228 = some (.movEaR (.ptr .msbFirst .x0) .a) ∧
    decodeTableWord 32 0x123404F4 = some (.movREa .d (.imm16 0x1234)) ∧
    decodeTableWord 16 0x0621 = some (.xch .a (.reg .b)) := by decide
theorem test_decode_special :
    decodeTableWord 32 0x02106834 = some (.movSpEa (.imm16 0x0210)) ∧
    decodeTableWord 16 0x6A10 = some (.movEaSp (.stack4 0)) ∧
    decodeTableWord 16 0x6C03 = some (.movXmEa (.imm4 3)) ∧
    decodeTableWord 16 0x6E21 = some (.movEaXm (.reg .b)) ∧
    decodeTableWord 32 0x00087034 = some (.movXbEa (.imm16 8)) ∧
    decodeTableWord 16 0x7220 = some (.movEaXb (.reg .a)) ∧
    decodeTableWord 16 0x7424 = some (.movEaBp (.reg .x0)) := by decide
theorem test_decode_add :
    decodeTableWord 16 0x0821 = some (.addEaR (.reg .b) .a) ∧ decodeTableWord 16 0x0AA0 = some (.addREa .c (.reg .a)) ∧
    decodeTableWord 16 0x0C21 = some (.adcEaR (.reg .b) .a) ∧ decodeTableWord 16 0x0E21 = some (.adcREa .a (.reg .b)) ∧
    decodeTableWord 16 0x1021 = some (.subEaR (.reg .b) .a) ∧ decodeTableWord 16 0x1241 = some (.subREa .b (.imm4 1)) ∧
    decodeTableWord 16 0x1421 = some (.sbcEaR (.reg .b) .a) ∧ decodeTableWord 16 0x1621 = some (.sbcREa .a (.reg .b)) ∧
    decodeTableWord 16 0x4A21 = some (.neg (.reg .b)) := by decide
theorem test_decode_logic :
    decodeTableWord 16 0x1821 = some (.andEaR (.reg .b) .a) ∧ decodeTableWord 16 0x1A21 = some (.andREa .a (.reg .b)) ∧
    decodeTableWord 16 0x1C21 = some (.orEaR (.reg .b) .a) ∧ decodeTableWord 16 0x1E21 = some (.orREa .a (.reg .b)) ∧
    decodeTableWord 16 0x2021 = some (.xorEaR (.reg .b) .a) ∧ decodeTableWord 16 0x2221 = some (.xorREa .a (.reg .b)) ∧
    decodeTableWord 16 0x4821 = some (.not (.reg .b)) := by decide
theorem test_decode_shift :
    decodeTableWord 16 0x2421 = some (.shlEaR (.reg .b) .a) ∧ decodeTableWord 16 0x2621 = some (.shlREa .a (.reg .b)) ∧
    decodeTableWord 16 0x2821 = some (.shrEaR (.reg .b) .a) ∧ decodeTableWord 16 0x2A21 = some (.shrREa .a (.reg .b)) ∧
    decodeTableWord 16 0x2C21 = some (.asrEaR (.reg .b) .a) ∧
    decodeTableWord 16 0x2E21 = some (.asrREa .a (.reg .b)) := by decide
theorem test_decode_mulDiv :
    decodeTableWord 16 0x3022 = some (.mulEaR (.reg .c) .a) ∧ decodeTableWord 16 0x32A0 = some (.mulREa .c (.reg .a)) ∧
    decodeTableWord 16 0x3421 = some (.mlsEaR (.reg .b) .a) ∧ decodeTableWord 16 0x3621 = some (.mlsREa .a (.reg .b)) ∧
    decodeTableWord 16 0x3821 = some (.divEaR (.reg .b) .a) ∧ decodeTableWord 16 0x3A00 = some (.divREa .a (.imm4 0)) ∧
    decodeTableWord 16 0x3C21 = some (.dvsEaR (.reg .b) .a) ∧ decodeTableWord 16 0x3E21 = some (.dvsREa .a (.reg .b)) ∧
    decodeTableWord 16 0x4021 = some (.modEaR (.reg .b) .a) ∧ decodeTableWord 16 0x4240 = some (.modREa .b (.imm4 0)) ∧
    decodeTableWord 16 0x4421 = some (.mdsEaR (.reg .b) .a) ∧
    decodeTableWord 16 0x4621 = some (.mdsREa .a (.reg .b)) := by decide
theorem test_decode_skip :
    decodeTableWord 16 0x4C40 = some (.xeq .b (.imm4 0)) ∧ decodeTableWord 16 0x4E21 = some (.xne .a (.reg .b)) ∧
    decodeTableWord 16 0x5021 = some (.xug .a (.reg .b)) ∧ decodeTableWord 16 0x5221 = some (.xul .a (.reg .b)) ∧
    decodeTableWord 16 0x5421 = some (.xsg .a (.reg .b)) ∧ decodeTableWord 16 0x5621 = some (.xsl .a (.reg .b)) ∧
    decodeTableWord 16 0x5821 = some (.xbs .a (.reg .b)) ∧
    decodeTableWord 16 0x5A21 = some (.xbc .a (.reg .b)) := by decide
theorem test_decode_control :
    decodeTableWord 16 0x5C08 = some (.jmr (.imm4 8)) ∧ decodeTableWord 32 0x00405E34 = some (.jma (.imm16 0x0040)) ∧
    decodeTableWord 16 0x6008 = some (.jfr (.imm4 8) []) ∧
    decodeTableWord 96 0x1234003400280020004062F4 =
      some (.jfa (.imm16 0x0040) [.reg .a, .ptr .msbFirst .x0, .imm16 0x1234]) ∧
    decodeTableWord 16 0x65FF = some .rfn ∧ decodeTableWord 32 0x00016643 = some (.jsv (.imm4 3) [.imm4 1]) := by
  decide
theorem test_decode_reserved :
    decodeTableWord 16 0x7634 = some .reserved3B ∧ decodeTableWord 16 0x7800 = some (.reserved3C 0) ∧
    decodeTableWord 16 0x7FFF = some (.reserved3C 3) ∧ decodeTableWord 16 0x8000 = some (.reserved40 0) := by decide
/-- The two-word operand: `s` in bits 7:4 and `f` in bits 3:0 of the spec word (R106). -/
theorem test_decode_absBit :
    decodeTableWord 48 0x0044008102FE = some (.movEaR (.absBit .msbFirst 0x0081 4 4) .d) ∧
    decodeTableWord 48 0x0020008004BF = some (.movREa .c (.absBit .lsbFirst 0x0080 2 0)) := by decide

/-! ### One instruction on a small state -/

/-- The start of most vectors: pc 0x0100, HCR 0, the rest as at reset. -/
def start : State := { State.reset with pc := 0x0100, hcr := 0 }

/-- The state after the instruction whose words are `ws`, placed at pc. -/
def ran (s : State) (ws : List Word) : State :=
  let s1 := s.placeWords s.pc ws
  match s1.fetch with
  | .error _ => s
  | .ok (i, _) =>
    match exec i s1 with
    | .next t => t
    | _ => s

def regs (a b c : Word) : State := { start with gpr := { start.gpr with a := a, b := b, c := c } }

/-- A, B, C and the cost after a one-word instruction with A, B and C before. -/
def abc (w a b c : Word) : Word × Word × Word × Nat :=
  let t := ran (regs a b c) [w]
  (t.reg .a, t.reg .b, t.reg .c, t.cost)

/-- pc and the cost of the skip `w` with A and B before, a two-word instruction after it (2.8). -/
def skip (w a b : Word) : Word × Nat :=
  let t := ran (regs a b 0) [w, 0x0434, 0x1234]
  (t.pc, t.cost)

-- section 2.5, `OP A, B`
theorem test_addREa : abc 0x0A21 0xFFFF 1 0 = (0, 1, 1, 1) := by decide
theorem test_adcREa : abc 0x0E21 1 1 0xFFFE = (2, 1, 0, 1) := by decide
theorem test_subREa : abc 0x1221 0 1 0 = (0xFFFF, 1, 1, 1) := by decide
theorem test_sbcREa : abc 0x1621 0 0xFFFF 1 = (0, 0xFFFF, 1, 1) := by decide
theorem test_andREa : abc 0x1A21 0xF0F0 0x3C3C 0x1111 = (0x3030, 0x3C3C, 0x1111, 1) := by decide
theorem test_orREa : abc 0x1E21 0xF0F0 0x3C3C 0x1111 = (0xFCFC, 0x3C3C, 0x1111, 1) := by decide
theorem test_xorREa : abc 0x2221 0xF0F0 0x3C3C 0x1111 = (0xCCCC, 0x3C3C, 0x1111, 1) := by decide
theorem test_shlREa : abc 0x2621 0x1234 0x14 0 = (0, 0x14, 0x2340, 1) := by decide
theorem test_shrREa : abc 0x2A21 0x8001 1 0 = (0x4000, 1, 0x8000, 1) := by decide
theorem test_asrREa : abc 0x2E21 0x8000 0x14 0 = (0xFFFF, 0x14, 0xF800, 1) := by decide
theorem test_mulREa : abc 0x3221 0xFFFF 0xFFFF 0 = (1, 0xFFFF, 0xFFFE, 2) := by decide
theorem test_mlsREa : abc 0x3621 0x7FFF 0x8000 0 = (0x8000, 0x8000, 0xC000, 2) := by decide
theorem test_divREa : abc 0x3A21 0x64 7 0x1111 = (0xE, 7, 0x1111, 4) := by decide
theorem test_divREa_zero : abc 0x3A21 0x64 0 0x1111 = (0, 0, 0x1111, 4) := by decide
theorem test_dvsREa : abc 0x3E21 0x8000 0xFFFF 0x1111 = (0x8000, 0xFFFF, 0x1111, 4) := by decide
theorem test_modREa : abc 0x4221 0x64 7 0x1111 = (2, 7, 0x1111, 4) := by decide
theorem test_mdsREa : abc 0x4621 0xFF9C 7 0x1111 = (0xFFFE, 7, 0x1111, 4) := by decide

-- section 2.6, `OP B, A`
theorem test_addEaR : abc 0x0821 1 0xFFFF 0 = (1, 0, 1, 1) := by decide
theorem test_adcEaR : abc 0x0C21 1 0xFFFF 1 = (1, 1, 1, 1) := by decide
theorem test_subEaR : abc 0x1021 1 5 0 = (1, 4, 0, 1) := by decide
theorem test_sbcEaR : abc 0x1421 5 5 1 = (5, 0xFFFF, 1, 1) := by decide
theorem test_andEaR : abc 0x1821 0x0FF0 0xFF0F 9 = (0x0FF0, 0x0F00, 9, 1) := by decide
theorem test_orEaR : abc 0x1C21 0x0F00 0x00F0 9 = (0x0F00, 0x0FF0, 9, 1) := by decide
theorem test_xorEaR : abc 0x2021 0x00FF 0xFFFF 9 = (0x00FF, 0xFF00, 9, 1) := by decide
theorem test_shlEaR : abc 0x2421 3 1 9 = (3, 8, 0, 1) := by decide
theorem test_shrEaR : abc 0x2821 4 0x1234 9 = (4, 0x0123, 0x4000, 1) := by decide
theorem test_asrEaR : abc 0x2C21 4 0xF234 9 = (4, 0xFF23, 0x4000, 1) := by decide
theorem test_mulEaR : abc 0x3021 0x100 0x1234 9 = (0x100, 0x3400, 0x12, 2) := by decide
theorem test_mlsEaR : abc 0x3421 2 0xFFFF 9 = (2, 0xFFFE, 0xFFFF, 2) := by decide
theorem test_divEaR : abc 0x3821 2 9 0x1111 = (2, 4, 0x1111, 4) := by decide
theorem test_dvsEaR : abc 0x3C21 2 0xFFF9 0x1111 = (2, 0xFFFD, 0x1111, 4) := by decide
theorem test_modEaR : abc 0x4021 2 9 0x1111 = (2, 1, 0x1111, 4) := by decide
theorem test_mdsEaR : abc 0x4421 2 0xFFF9 0x1111 = (2, 0xFFFF, 0x1111, 4) := by decide

-- section 2.7
theorem test_not : abc 0x4821 0 0x8000 0x7777 = (0, 0x7FFF, 0x7777, 1) := by decide
theorem test_neg : abc 0x4A21 0 0x8000 0x7777 = (0, 0x8000, 1, 1) := by decide
theorem test_neg_zero : abc 0x4A21 0 0 0x7777 = (0, 0, 0, 1) := by decide

-- section 2.8; the taken XUL by R275
theorem test_xeq : skip 0x4C21 5 5 = (0x0103, 2) ∧ skip 0x4C21 5 3 = (0x0101, 1) := by decide
theorem test_xne : skip 0x4E21 5 5 = (0x0101, 1) ∧ skip 0x4E21 5 3 = (0x0103, 2) := by decide
theorem test_xug : skip 0x5021 5 5 = (0x0101, 1) ∧ skip 0x5021 0xFFFF 1 = (0x0103, 2) := by decide
theorem test_xul : skip 0x5221 0xFFFF 1 = (0x0101, 1) ∧ skip 0x5221 1 0xFFFF = (0x0103, 2) := by decide
theorem test_xsg : skip 0x5421 0xFFFF 1 = (0x0101, 1) ∧ skip 0x5421 4 2 = (0x0103, 2) := by decide
theorem test_xsl : skip 0x5621 4 2 = (0x0101, 1) ∧ skip 0x5621 0xFFFF 1 = (0x0103, 2) := by decide
theorem test_xbs : skip 0x5821 4 2 = (0x0101, 1) ∧ skip 0x5821 5 3 = (0x0103, 2) := by decide
theorem test_xbc : skip 0x5A21 5 3 = (0x0101, 1) ∧ skip 0x5A21 4 2 = (0x0103, 2) := by decide

/-- Sections 2.1 and 2.2: [0080] and [0081] hold words, X0 points there. -/
def pointing (xm xb : Word) : State :=
  { (start.setRam 0x80 0x1234).setRam 0x81 0x5678 with
    gpr := { start.gpr with a := 0xABCD, c := 0x7777, x0 := 0x80 }, xm := xm, xb := xb }

/-- [0080], X0, XB, A, C and the cost. -/
def pointed (xm xb : Word) (ws : List Word) : Word × Word × Word × Word × Word × Nat :=
  let t := ran (pointing xm xb) ws
  (t.ramAt 0x80, t.reg .x0, t.xb, t.reg .a, t.reg .c, t.cost)

-- section 2.2
theorem test_movEaR : pointed 5 0xC [0x0228] = (0x123D, 0x81, 0, 0xABCD, 0x7777, 2) := by decide
theorem test_movEaR_lsbFirst : pointed 5 4 [0x022C] = (0x12D4, 0x80, 8, 0xABCD, 0x7777, 2) := by decide
theorem test_movREa : pointed 0 0 [0x043E, 0x0080, 0x0093] = (0x1234, 0x80, 0, 1, 0x7777, 4) := by decide
theorem test_addEaR_element : pointed 3 0 [0x0828] = (0xDF34, 0x80, 8, 0xABCD, 0, 2) := by decide
theorem test_xch : pointed 3 0 [0x0628] = (0xCD34, 0x80, 8, 0x0012, 0x7777, 3) := by decide
-- section 2.9
theorem test_xch_registers : abc 0x0621 0x1111 0x2222 0 = (0x2222, 0x1111, 0, 2) := by decide
theorem test_addREa_carry_register : abc 0x0AA0 0xFFFF 0 3 = (0xFFFF, 0, 2, 1) := by decide
-- section 2.11
theorem test_movEaXb : pointed 3 0 [0x7228] = (0x0834, 0x80, 8, 0xABCD, 0x7777, 2) := by decide
theorem test_movXbEa : pointed 0 0 [0x7034, 8] = (0x1234, 0x80, 8, 0xABCD, 0x7777, 2) := by decide
theorem test_movSpEa : (let t := ran start [0x6834, 0x0210]; (t.sp, t.bp, t.pc, t.cost)) =
    (0x0210, 0x0200, 0x0102, 2) := by decide
theorem test_movEaSp : (let t := ran { start with sp := 0x0205 } [0x6A10]; (t.ramAt 0x0200, t.sp, t.cost)) =
    (0x0205, 0x0205, 2) := by decide
theorem test_movXmEa : (let t := ran start [0x6C34, 3]; (t.xm, t.pc, t.cost)) = (3, 0x0102, 2) := by decide
theorem test_movEaXm : (let t := ran { start with xm := 3 } [0x6E21]; (t.reg .b, t.xm, t.cost)) = (3, 3, 1) := by
  decide
theorem test_movEaBp : (let t := ran { start with bp := 0x0202 } [0x7424]; (t.reg .x0, t.cost)) = (0x0202, 1) := by
  decide
theorem test_nop : (let t := ran start [0x01FF]; (t.pc, t.hcr, t.cost)) = (0x0101, 0, 1) := by decide
theorem test_reserved3B : (let t := ran start [0x7634, 0x1234]; (t.pc, t.hcr, t.cost)) = (0x0100, 2, 1) := by
  decide
theorem test_reserved3C : (let t := ran start [0x7800]; (t.pc, t.hcr, t.cost)) = (0x0100, 2, 1) := by decide
theorem test_reserved40 : (let t := ran start [0xFFFF]; (t.pc, t.hcr, t.cost)) = (0x0100, 2, 1) := by decide

-- section 2.10: pc, SP, BP, HCR and the cost
def control (s : State) (ws : List Word) : Word × Word × Word × Word × Nat :=
  let t := ran s ws
  (t.pc, t.sp, t.bp, t.hcr, t.cost)

theorem test_jmr : control { start with pc := 0x20 } [0x5C34, 0xFFFE] = (0x001E, 0x0200, 0x0200, 0, 3) := by
  decide
theorem test_jma : control (start.setRam 0x0200 0x1234) [0x5E10] = (0x1234, 0x0200, 0x0200, 0, 3) := by decide
theorem test_jfr : control start [0x6008] = (0x0108, 0x0202, 0x0202, 0, 4) := by decide
theorem test_jfr_window : control { start with sp := 0x02FF, bp := 0x0250 } [0x6008] =
    (0x0108, 0x0301, 0x0301, 8, 4) := by decide
theorem test_jfa : (let t := ran { start.setRam 0x80 0x0BBB with
      gpr := { start.gpr with a := 0x00AA, x0 := 0x80 }, xm := 1 } [0x62F4, 0x0040, 0x0020, 0x0028, 0x0034, 0x1234]
    (t.pc, t.sp, t.reg .x0, t.cost, [0x200, 0x201, 0x202, 0x203, 0x204].map t.ramAt)) =
    (0x0040, 0x0205, 0x81, 10, [0x0200, 0x0106, 0x00AA, 0x0BBB, 0x1234]) := by decide
theorem test_rfn : control { (start.setRam 0x0200 0x0200).setRam 0x0201 3 with sp := 0x0203, bp := 0x0202 } [0x6400] =
    (3, 0x0200, 0x0200, 0, 3) := by decide
theorem test_rfn_outermost : control { start with bp := 0x01FF } [0x6400] = (0x0100, 0x0200, 0x01FF, 1, 3) := by
  decide

-- section 2.3: A, HCR and the cost
theorem test_stack_top : (let t := ran { start.setRam 0x02FF 0xAAAA with bp := 0x02FF } [0x0410]
    (t.reg .a, t.hcr, t.cost)) = (0xAAAA, 0, 2) := by decide
theorem test_stack_above : (let t := ran { start.setRam 0x0300 0xAAAA with bp := 0x0300 } [0x0410]
    (t.reg .a, t.hcr, t.cost)) = (0, 8, 2) := by decide

-- section 2.12, with that section's test dispatcher
def testDispatcher : Dispatcher where
  op selector := if selector = 3 then some ⟨1, .immediate 5⟩ else none
  immediate _ _ := ⟨1, 2, ⟨[], [], [], []⟩⟩
  callback _ _ := default
  task _ _ := default
theorem test_jsv : (let t := supervisorCall testDispatcher (.imm4 3) [] (regs 0x1111 0 0x2222)
    (t.reg .a, t.reg .c, t.hcr, t.cost, t.pc)) = (2, 1, 0, 5, 0x0101) := by decide
theorem test_jsv_invalid : (let t := supervisorCall testDispatcher (.imm4 3) [.imm4 1] (regs 0x1111 0 0x2222)
    (t.reg .a, t.reg .c, t.hcr, t.cost, t.pc)) = (0x1111, 0x2222, 4, 0, 0x0102) := by decide

/-! ### One step -/

/-- The fields a vector of section 2.13 or 3 names: pc, HCR, the answer of `run`, whether the call is over. -/
def stepped (s : State) : Option (Word × Word × HostReply × Bool) :=
  match step s with
  | .next t => some (t.pc, t.hcr, t.reply, t.call.isNone)
  | _ => none

-- program P7: the first run returns 3 with EXIT; the second returns 0 and changes nothing
theorem test_step_exit : stepped (State.reset.withFetchWord 16 0x6400) = some (0, 1, .cycles 3, true) := by
  decide +kernel
theorem test_run_blocked : stepped { State.reset with hcr := 1, host := [.run .free] } =
    some (0, 1, .cycles 0, true) := by decide
-- program P5: the second step of the first run stops at the breakpoint
theorem test_step_breakpoint : stepped { start with
      pc := 0x10, bpmap := [(0x10, true)]
      call := some ⟨.breakChecked, false, 400, 1, 0⟩ } = some (0x10, 0x80, .cycles 1, true) := by decide
-- section 2.13, third row: the last pass uses 6 cycles and raises FRAME with LCYC 1
theorem test_videoTick : (let s : State := { start with
      timers := ⟨0, 0, 0, 2⟩, params := { defaultParams with cyclesPerLine := 5, linesPerFrame := 3 } }
    let t := s.videoTick 6
    (t.timers.lcyc, t.timers.line, t.hcr)) = (1, 0, 0x0100) := by decide
-- section 2.13, second row: 800 samples give one wrap
theorem test_audioTick : (let t := ({ start with
      timers := ⟨0, 500, 0, 0⟩, params := { defaultParams with cyclesPerSample := 1 } } : State).audioTick 20
    (t.timers.acyc, t.timers.asmp, t.hcr)) = (0, 8, 0x0040) := by decide
-- section 2.13, ring overflow: queue with a stall, then drop with FAULT and the stall
def busy (ring : List (BitVec 32)) : State :=
  { start with
    laneA := { Lane.reset with latch := 0x001F, busy := 1000, ring := ring }
    params := { defaultParams with fifoDepth := 2 } }
theorem test_fifo_queue : (let t := (busy [1]).fifoData .laneA 7; (t.laneA.ring, t.stall, t.hcr)) =
    ([1, 0x001F0007], 4, 0) := by decide
theorem test_fifo_full : (let t := (busy [1, 2]).fifoData .laneA 7; (t.laneA.ring, t.stall, t.hcr)) =
    ([1, 2], 4, 0x0010) := by decide
-- program P4: 26 cycles drained from a busy counter of 100
theorem test_drain : (let s : State := { start with laneB := { Lane.reset with busy := 100, ring := [1, 2] } }
    let t := s.drain .laneB 26
    (t.laneB.busy, t.laneB.ring)) = (74, [1, 2]) := by decide

/-! ### Witnesses: concrete states and operands that meet a statement's hypotheses

A statement whose hypothesis is membership in a written list has a witness that applies it. -/

/-- A run call in progress at pc 0x0100 with the words `ws` there. -/
def running (mode : RunMode) (used : Nat) (ws : List Word) : State :=
  { start.placeWords 0x0100 ws with started := true, call := some ⟨mode, used = 0, 400, used, 0⟩ }

/-- A handler table with every kind of cell. -/
def table : List Registration :=
  State.reset.busMap ++ [⟨0, 8, .store⟩, ⟨8, 8, .ext 1⟩, ⟨4, 1, .null⟩]

theorem witness_DecodeOfEncode : (Instr.jfa (.absBit .lsbFirst 0xFFFF 15 15)
    [.imm4 15, .reg .x3, .ptr .msbFirst .x3, .stackIdx .x3, .stack16 1, .abs 2, .imm16 3]).wellFormed = true := by decide

theorem witness_EveryWordDecodes : 23 ≤ (List.replicate 23 (0 : Word)).length ∧ 0x3B#7 ≤ fieldClass 0x7600 ∧
    0x3B#7 ≤ fieldClass 0xFFFF ∧ ¬(0x3B#7 ≤ fieldClass 0x7400) := by decide

theorem witness_LenIsDecodedLength :
    ∃ rest, (start.placeWords 0x0100 [0x6274, 0x0010, 7]).fetch = .ok (.jfa (.imm16 0x10) [.imm4 7], rest) := ⟨_, rfl⟩

theorem witness_AliasesAndIgnoredFields (h : Obligations.AliasesAndIgnoredFields) :
    decodeOperand 0x3B#6 [7] = decodeOperand 0x38#6 [7] ∧
    decode [instrWord 0x3A#7 0#3 0x20#6] = decode [instrWord 0x3A#7 7#3 0x20#6] ∧
    decode [instrWord 0x32#7 0#3 0#6] = decode [instrWord 0x32#7 7#3 0x3F#6] ∧
    decodeParams 1 [0x0020] = decodeParams 1 [0xFFE0] ∧
    decodeOperand 0x3F#6 [5, 0x0028] = decodeOperand 0x3F#6 [5, 0xFF28] :=
  ⟨(h.1 [7] 0x3B#6 0x38#6 (by decide)).1, h.2.1 0x3A#7 0#3 7#3 0x20#6 [] (by decide),
    h.2.2.1 0x32#7 0#3 7#3 0#6 0x3F#6 [] (by decide), h.2.2.2.1 0 0x0020 0xFFE0 [] (by decide),
    h.2.2.2.2 0x3F#6 5 0x0028 0xFF28 [] (by decide) (by decide)⟩

theorem witness_RegisterFormsAgree (h : Obligations.RegisterFormsAgree) :
    ∃ t, exec (.mulEaR (.reg .b) .a) start = .next t ∧ exec (.mulREa .b (.reg .a)) start = .next t := by
  obtain ⟨t, u, h1, h2, _, h3⟩ := h .b .a start (.mulEaR (.reg .b) .a, .mulREa .b (.reg .a)) (by simp)
  exact ⟨t, h1, (h3 rfl rfl) ▸ h2⟩

theorem witness_PseudoInstructions : (Reg.a ≠ .c ∧ (regs 0xFFFF 0 0).reg .a = 0xFFFF ∧ (regs 0 0 0).reg .a = 0) ∧
    Reg.b ≠ Reg.a := by decide

theorem witness_StackOperands (h : Obligations.StackOperands) :
    (resolve (.stack4 0) false start).value = 0 ∧ (resolve (.stack16 0x00FF) false start).after = start ∧
    (resolve (.stackIdx .x0) false { start with bp := 0x01FF }).after = { start with bp := 0x01FF, hcr := 8 } ∧
    (resolve (.stack16 0x0100) false start).value = 0 :=
  ⟨((h 0 .x0 0 false start _ (List.mem_cons_self ..)).2.1 (by decide)).1,
    ((h 0 .x0 0x00FF false start (.stack16 0x00FF, 0x0200 + 0x00FF) (by simp [start, State.reset])).2.1 (by decide)).2,
    ((h 0 .x0 0 false { start with bp := 0x01FF } (.stackIdx .x0, _)
      (List.mem_cons_of_mem _ (List.mem_cons_self ..))).2.2 (by decide)).2,
    ((h 0 .x0 0x0100 false start (.stack16 0x0100, 0x0200 + 0x0100) (by simp [start, State.reset])).2.2 (by decide)).1⟩

/-- Sub-modes with and without increment, and a bit address at the end of the 20-bit range. -/
theorem witness_PointerOperands :
    (subMode ((pointing 2 0).xm.extractLsb' 0 4)).inc = false ∧ (subMode ((pointing 9 0xF).xm.extractLsb' 0 4)).inc = true ∧
    (0xFFFF * 16 + 15 + 2 ^ (subMode 9).ish) % 2 ^ 20 = 0 ∧ Reg.a ≠ Ptr.x0.toReg ∧ Ptr.x1 ≠ Ptr.x0 := by decide

theorem witness_ElementMerge : (subMode 0).width = 16 ∧ elemShift (subMode 3).width (8 &&& (subMode 3).fmask) .lsbFirst = 8 ∧
    (7 < 8 ∨ 8 + (subMode 3).width ≤ 7) ∧ (16 < 8 ∨ 8 + (subMode 3).width ≤ 16) := by decide

theorem witness_ResolvingFrame : incBase (.ptr .msbFirst .x0) ≠ some .a ∧ incBase (.ptr .msbFirst .x0) ≠ some Ptr.x1.toReg ∧
    start.extGroup (.abs 0xFC08) = none ∧ ({ start with busMap := table } : State).extGroup (.abs 0xFC08) = some 1 ∧
    ({ start with busMap := table } : State).extGroup (.abs 0xFC08) ≠ some 2 := by decide

theorem witness_StackWindow : (start.sbot ≤ 0x0200 ∧ 0x0200 < start.stop) ∧ (start.sbot ≤ 0x02FF ∧ 0x02FF < start.stop) ∧
    ¬(start.sbot ≤ 0x01FF ∧ 0x01FF < start.stop) ∧ ¬(start.sbot ≤ 0x0300 ∧ 0x0300 < start.stop) := by decide

theorem witness_DataRouter : ((0x0000 : Word) < 0xFC00 ∧ (0xFBFF : Word) < 0xFC00) ∧
    (0xFC00 : Word) ≤ 0xFC00 ∧ (0xFC00 : Word) ≤ 0xFFFF := by decide

theorem witness_HandlerTable : State.reset.started = false ∧ (running .free 0 [0]).started = true ∧ 1024 ≤ 1024 ∧
    ¬(1024 ≤ 1023) := by decide

/-- The word of a STORE cell that becomes NULL is gone, and is not there again when the cell is STORE once more (R51). -/
theorem test_cell_words : ((({ start with busMap := [⟨7, 2, .store⟩], cells := [(7, 5), (8, 6)], started := false } : State).hostCall
      (.registerHandlers 7 1 .null)).hostCall (.registerHandlers 7 1 .store)).cells = [(8, 6)] := by decide

/-- Each kind, the overriding registration, and a cell outside the bus. -/
theorem witness_BusAccess : (List.map (cellKind table) [4, 7, 8, 0x3F8, 0x3F9, 0x3FA, 0x3FB, 0x3FF]) =
    [.null, .store, .ext 1, .fifoAdr .laneA, .fifoDat .laneA, .fifoAdr .laneB, .fifoDat .laneB, .null] ∧
    1024 ≤ 1024 ∧ 2 ≠ 1 := by decide

/-- An idle lane, a busy lane with room (an empty ring, then the last place), a full ring. -/
theorem witness_FifoDataWrite : LaneId.laneB ≠ .laneA ∧
    (start.laneA.ring = [] ∧ start.laneA.busy = 0) ∧
    (¬((busy []).laneA.ring = [] ∧ (busy []).laneA.busy = 0) ∧ (busy []).laneA.ring.length < (busy []).params.fifoDepth) ∧
    (busy [1]).laneA.ring.length < (busy [1]).params.fifoDepth ∧
    (¬((busy [1, 2]).laneA.ring = [] ∧ (busy [1, 2]).laneA.busy = 0) ∧
      (busy [1, 2]).params.fifoDepth ≤ (busy [1, 2]).laneA.ring.length) := by decide

theorem witness_CoprocessorWrite :
    (((0x001F0007#32).extractLsb' 16 16).toNat &&& (2 ^ start.params.copRegsLog - 1)) = start.params.copTrigger ∧
    (((0x001E0007#32).extractLsb' 16 16).toNat &&& (2 ^ start.params.copRegsLog - 1)) ≠ start.params.copTrigger := by
  decide

theorem witness_MemoryLaws : Memory.wf 65536 [(0, 1), (65535, 2)] ∧ 65535 < 65536 ∧
    Memory.wf 65536 (Memory.write [(65535, 2)] 0 1) ∧ ¬Memory.wf 65536 [(65536, 1)] := by decide

theorem witness_ExchangeResult : Operand.reg .b = .reg .b ∧ Reg.b ≠ Reg.a := by decide

theorem witness_SkipResult (h : Obligations.SkipResult) :
    (∃ t, exec (.xug .a (.imm4 4)) (regs 5 0 0) = .next t ∧ t.cost = 2) ∧
    (∃ t, exec (.xug .a (.imm4 4)) (regs 4 0 0) = .next t ∧ t.pc = 0x0101) := by
  obtain ⟨t, ht, _, _, h1, _⟩ := h .a (.imm4 4) (regs 5 0 0) (.xug .a (.imm4 4), 0x28#7, true) (by decide)
  obtain ⟨u, hu, _, _, _, h2⟩ := h .a (.imm4 4) (regs 4 0 0) (.xug .a (.imm4 4), 0x28#7, false) (by decide)
  exact ⟨⟨t, ht, (h1 rfl).2⟩, ⟨u, hu, (h2 rfl).1⟩⟩

/-- The vector of section 2.9: the first slot is the last word of the window, the second is outside. -/
theorem witness_CallFrame (h : Obligations.CallFrame) :
    ∃ t, exec (.jfr (.imm4 8) [.imm4 7]) { start with sp := 0x02FF, bp := 0x0250 } = .next t ∧ t.ramAt 0x02FF = 0x0250 ∧
      t.hcr = 8 := by
  obtain ⟨t, ht, _, _, _, h0, _, _, _, _, _, _, _, _, _, _, _, h8, _⟩ :=
    h (.imm4 8) [.imm4 7] { start with sp := 0x02FF, bp := 0x0250 } (by decide) _ (List.mem_cons_self ..)
  exact ⟨t, ht, h0 (by decide), h8 (.inl ⟨1, by decide, by decide⟩)⟩

/-- A call with every push and every read inside the window, and a parameter read outside it. -/
theorem witness_CallFrame_quiet :
    (∀ k, k < 3 → start.inWindow (start.sp + BitVec.ofNat 16 k) = true) ∧ ¬start.readFaults (.imm4 8) ∧
    ¬start.readFaults (.imm4 7) ∧ ({ start with bp := 0x0300 } : State).readFaults (.stack4 0) :=
  ⟨by decide, fun ⟨_, h, _⟩ => (by cases h), fun ⟨_, h, _⟩ => (by cases h), _, rfl, by decide⟩

theorem witness_ReturnResult :
    start.bp ≤ start.sbot ∧ (0x01FF : Word) ≤ start.sbot ∧ start.sbot < 0x0201 ∧
    (start.sbot ≤ (0x0202 : Word) - 2 ∧ (0x0202 : Word) - 1 < start.stop) ∧
    ¬(start.sbot ≤ (0x0201 : Word) - 2 ∧ (0x0201 : Word) - 2 < start.stop) ∧
    ¬(start.sbot ≤ (0x0301 : Word) - 1 ∧ (0x0301 : Word) - 1 < start.stop) := by decide

theorem witness_CallThenReturn : ([Operand.reg .a].length ≤ 7 ∧ start.inWindow start.sp = true ∧
      start.inWindow (start.sp + 1) = true) ∧
    ∃ t, exec (.jfa (.imm16 0x40) [.reg .a]) start = .next t ∧ t.sbot = start.sbot ∧ t.stop = start.stop :=
  ⟨by decide, _, rfl, rfl, rfl⟩

/-- An unknown selector, and an operation of every shape whose count is the call's or is not; a task answer can ask for
an empty slot and for one in use. Whether the pointers of a call are valid is not decidable in Lean (the ranges are
opaque): one of the two clauses applies. -/
theorem witness_SupervisorCall (a : ImmediateAnswer) (b : CallbackAnswer) (c : TaskAnswer) :
    (∀ o ∈ [none, some ⟨1, .immediate 5⟩, some ⟨1, .callback⟩, some ⟨1, .task⟩, some ⟨2, .callback⟩],
      ∃ k : Dispatcher, k.op (resolve (.imm4 3) false start).value = o ∧ ∀ p v, k.immediate p v = a ∧
        k.callback p v = b ∧ k.task p v = c) ∧
    (1 = ([] : List Operand).length + 1 ∧ 2 ≠ ([] : List Operand).length + 1) ∧
    start.slots[c.slot].status = .empty ∧
    (start.setSlot c.slot { status := .running, dispatched := true, params := [] }).slots[c.slot].status ≠ .empty := by
  refine ⟨fun o _ => ⟨⟨fun _ => o, fun _ _ => a, fun _ _ => b, fun _ _ => c⟩, rfl, fun _ _ => ⟨rfl, rfl, rfl⟩⟩,
    by decide, ?_, ?_⟩
  · simp [start, State.reset]
  · simp [State.setSlot]

theorem witness_InstructionsKeep :
    (∃ t, exec .rfn { start with bp := 0x0202 } = .next t ∧ t.bp ≠ 0x0202 ∧ t.sp ≠ 0x0202) ∧
    (∃ t, exec (.movXmEa (.imm4 3)) start = .next t ∧ t.xm ≠ start.xm) :=
  ⟨⟨_, rfl, by decide, by decide⟩, ⟨_, rfl, by decide⟩⟩

theorem witness_StepRunsTheDecoded : ∃ c rest, (running .free 0 [0x0A21]).call = some c ∧
    (running .free 0 [0x0A21]).breakHit c = false ∧
    (running .free 0 [0x0A21]).fetch = .ok (.addREa .a (.reg .b), rest) := ⟨_, _, rfl, rfl, rfl⟩

/-- An instruction that raises EXIT, and a breakpoint that fires. -/
theorem witness_HaltCausesOnlyAdd :
    (∃ c i rest, (running .single 0 [0x6400]).call = some c ∧ (running .single 0 [0x6400]).breakHit c = false ∧
      (running .single 0 [0x6400]).fetch = .ok (i, rest) ∧ ∃ t, exec i (running .single 0 [0x6400]) = .next t ∧ t.hcr = 1) ∧
    (let s : State := { running .breakChecked 1 [0x0401] with bpmap := [(0x0100, true)] }
     ∃ c, s.call = some c ∧ s.breakHit c = true) :=
  ⟨⟨_, .rfn, _, rfl, rfl, rfl, _, rfl, by decide⟩, ⟨_, rfl, by decide⟩⟩

theorem witness_RunEntry : (start.call = none ∧ ({ start with host := [.run .free] } : State).host = .run .free :: []) ∧
    (0x0040 : Word) &&& 0x007F ≠ 0 ∧ (0x0380 : Word) &&& 0x007F = 0 := by decide

/-- A burst that goes on with one cycle to spare, one ended by EXIT, one by SINGLE, one by its budget. -/
theorem witness_BurstRules :
    (∃ t c, exec .nop (running .free 398 [0]) = .next t ∧ (running .free 398 [0]).call = some c ∧ t.hcr = 0 ∧
      c.mode ≠ .single ∧ c.used + t.cost < c.budget) ∧
    (∃ t, exec .rfn (running .free 0 [0x6400]) = .next t ∧ t.hcr ≠ 0) ∧
    (∃ c, (running .single 0 [0]).call = some c ∧ c.mode = .single) ∧
    (∃ t c, exec .nop (running .free 399 [0]) = .next t ∧ (running .free 399 [0]).call = some c ∧ t.hcr = 0 ∧
      c.mode ≠ .single ∧ c.budget ≤ c.used + t.cost) :=
  ⟨⟨_, _, rfl, rfl, by decide, by decide, by decide⟩, ⟨_, rfl, by decide⟩, ⟨_, rfl, rfl⟩,
    ⟨_, _, rfl, rfl, by decide, by decide, by decide⟩⟩

theorem witness_BreakpointStops :
    let s : State := { running .breakChecked 1 [0x0401] with bpmap := [(0x0100, true)] }
    ∃ c, s.call = some c ∧ c.mode = .breakChecked ∧ c.first = false ∧ sparseGet false s.bpmap s.pc.toNat = true :=
  ⟨_, rfl, rfl, rfl, rfl⟩

theorem witness_TimerTicks : 511 < 512 ∧ 399 < defaultParams.linesPerFrame ∧ 512 ≤ 511 + 1 ∧
    (defaultParams.linesPerFrame : Nat) ≤ 399 + 1 := by decide

/-- A busy counter above the cycles, one equal to them with nothing queued, one equal to them with a word queued. -/
theorem witness_DrainRule : 999 < (busy []).laneA.busy ∧ ((busy []).laneA.busy ≤ 1000 ∧ (busy []).laneA.ring = []) ∧
    ((busy [1]).laneA.busy ≤ 1000 ∧ (busy [1]).laneA.ring = 1 :: []) := by decide

/-- Slots that are not queued, and one that is and is not yet marked. With none queued the premise of the clause on
HCR holds. -/
theorem witness_SchedulerFrame : (∀ i : Fin 16, start.slots[i].status ≠ .queued) ∧
    (let x := (start.setSlot 15 { status := .queued, dispatched := false, params := [] }).slots[(15 : Fin 16)]
     x.status = .queued ∧ x.dispatched = false) := by
  decide

/-- A store of code during initialisation, and one after it, which is turned away (R91). -/
theorem test_write_code : (State.reset.hostCall (.writeCode 0x0010 0x6400)).codeAt 0x0010 = 0x6400 ∧
    (start.hostCall (.writeCode 0x0010 0x6400)).code = start.code := by decide

theorem witness_CodeStoreChanges :
    (∃ t, step { State.reset with host := [.writeCode 0x0010 0x6400] } = .next t ∧ t.code ≠ State.reset.code) ∧
    State.reset.hcr &&& 0x0020 ≠ 0 ∧ start.hcr &&& 0x0020 = 0 :=
  ⟨⟨_, rfl, by decide⟩, by decide, by decide⟩

/-- A word written during initialisation, and an unwritten one, as the host reads them (R94, R52). -/
theorem test_read_code :
    ((State.reset.hostCall (.writeCode 0x0010 0x6400)).hostCall (.readCode 0x0010)).reply = .word 0x6400 ∧
    (State.reset.hostCall (.readCode 0x0011)).reply = .word 0 := by decide

/-- A word written to data RAM, read back whole, in the last word of the store (R61, R94). -/
theorem test_read_ram :
    ((start.hostCall (.writeRam 0xFFFF 0x8001)).hostCall (.readRam 0xFFFF)).reply = .word 0x8001 := by decide

/-- An idle machine with a call to serve, one that initialises, and one within a `run` call. -/
theorem witness_HostMemoryAccess :
    (let s : State := { State.reset with host := [.readCode 0x0010] }
     s.call = none ∧ s.host = .readCode 0x0010 :: [] ∧ s.hcr &&& 0x0020 ≠ 0) ∧
    ∃ c, (running .free 399 [0x0A21, 0x6400]).call = some c :=
  ⟨by decide, _, rfl⟩

theorem witness_LoaderPath : State.reset.hcr &&& 0x0020 ≠ 0 ∧ start.hcr &&& 0x0020 = 0 ∧
    Memory.wf 65536 [(0, 0x6400), (65535, 1)] := by decide

/-- A machine in the middle of a `run` call meets the invariant. -/
theorem witness_StepKeepsInv : (running .free 399 [0x0A21, 0x6400]).Inv where
  code := by decide
  ram := by decide
  cells := by decide
  stored := by decide
  imageCode := by decide
  imageRam := by decide
  bpmap := by decide
  ext := ⟨0, by decide⟩
  laneA := ⟨by decide, by decide⟩
  laneB := ⟨by decide, by decide⟩
  stall := rfl
  timers := ⟨by decide, by decide, by decide, by decide⟩
  hcr := by decide
  call := fun c h => by cases h; exact ⟨rfl, rfl, by decide⟩

/-- Contents at the ends of their ranges, contents just outside them, and a state of the invariant. -/
theorem witness_ExportImport :
    (let x : Snapshot := { start.exported with hcr := 0x03FF, timers := ⟨399, 511, 399, 399⟩ }
     x.hcr &&& 0xFC00 = 0 ∧ x.laneA.ring.length ≤ start.params.fifoDepth ∧
      x.timers.acyc < start.params.cyclesPerSample ∧ x.timers.asmp < 512 ∧ x.timers.lcyc < start.params.cyclesPerLine ∧
      x.timers.line < start.params.linesPerFrame) ∧
    (0x0400 : Word) &&& 0xFC00 ≠ 0 ∧ ¬(400 < start.params.cyclesPerLine) ∧ ¬(512 < 512) ∧
    (let x : Snapshot := { start.exported with ram := [(0, 1), (65535, 2)], cells := [(7, 3)] }
     x.ram.wf 65536 ∧ x.cells.wf 1024 ∧ x.laneA.regs.wf (2 ^ start.params.copRegsLog) ∧
       x.laneB.regs.wf (2 ^ start.params.copRegsLog)) ∧
    (∀ e ∈ [((7 : Nat), (3 : Word))], cellKind table e.1 = .store) ∧ cellKind table 4 ≠ .store ∧
    State.reset.params = (running .free 399 [0x0A21, 0x6400]).params ∧
    State.reset.busMap = (running .free 399 [0x0A21, 0x6400]).busMap ∧
    (running .free 399 [0x0A21, 0x6400]).Inv :=
  ⟨by decide, by decide, by decide, by decide, by decide, by decide, by decide, rfl, rfl, witness_StepKeepsInv⟩

end Sys2Proof.Tests
end

section
/-! PROOFS. The statements of 10_state.md: the handler table, what instructions keep, halt causes, the machine at
reset, the invariant, and contents taken out of a machine and back in. -/
namespace Sys2Proof.Machine
open Sys2Proof.Config

/-! ### One step, by its three cases (R330, R336, R337, R356) -/

/-- A fetch always decodes, since no instruction is longer than the words fetched (R109, R115). -/
theorem fetch_decodes (s : State) : ∃ i rest, s.fetch = .ok (i, rest) := by
  have hcons : s.fetchWords = s.codeAt (s.pc + BitVec.ofNat 16 0) :: s.fetchWords.drop 1 := drop_fetch s 0 (by decide)
  have hlen : 23 ≤ (s.fetchWords.drop 1).length := by simp [fetchWords_length]
  obtain ⟨i, hi, -⟩ := decodeClass_total (fieldClass (s.codeAt (s.pc + BitVec.ofNat 16 0)))
    (fieldR (s.codeAt (s.pc + BitVec.ofNat 16 0))) (fieldM (s.codeAt (s.pc + BitVec.ofNat 16 0))) 0 _ hlen
  refine ⟨i, (0 :: s.fetchWords.drop 1).drop i.size, ?_⟩
  rw [State.fetch, hcons]
  exact hi

theorem step_of_idle {s : State} (h : s.call = none) : step s = .next s.hostTurn := by
  simp only [step, h]

theorem step_of_breakHit {s : State} {c : RunCall} (h : s.call = some c) (hb : s.breakHit c = true) :
    step s = .next ((s.raise .brk).endOfBurst c) := by
  simp only [step, h, hb, if_true]

theorem step_of_exec {s t : State} {c : RunCall} {i : Instr} {rest : List Word} (h : s.call = some c)
    (hb : s.breakHit c = false) (hf : s.fetch = .ok (i, rest)) (he : exec i s = .next t) :
    step s = .next (t.afterInstr c) := by
  simp [step, h, hb, hf, he]

/-- Every step is a turn of the host, a breakpoint that ends the burst, or an instruction of the burst. -/
theorem step_cases (s : State) :
    (s.call = none ∧ step s = .next s.hostTurn) ∨
    (∃ c, s.call = some c ∧ s.breakHit c = true ∧ step s = .next ((s.raise .brk).endOfBurst c)) ∨
    ∃ c i t, s.call = some c ∧ exec i s = .next t ∧ Executes s t ∧ step s = .next (t.afterInstr c) := by
  cases hc : s.call with
  | none => exact .inl ⟨rfl, step_of_idle hc⟩
  | some c =>
    right
    cases hb : s.breakHit c with
    | true => exact .inl ⟨c, rfl, hb, step_of_breakHit hc hb⟩
    | false =>
      obtain ⟨i, rest, hf⟩ := fetch_decodes s
      obtain ⟨t, he, hx⟩ := exec_executes i s
      exact .inr ⟨c, i, t, rfl, he, hx, step_of_exec hc hb hf he⟩

/-! ### The handler table (R70) -/

theorem covers_iff (g : Registration) (c : Nat) :
    covers g c = true ↔ g.base ≤ c ∧ c < g.base + g.length ∧ c < busCells := by
  simp [covers, and_assoc]

/-- The last registration that covers a cell gives its kind. -/
theorem cellKind_append (table : List Registration) (g : Registration) (c : Nat) :
    cellKind (table ++ [g]) c = if covers g c = true then g.kind else cellKind table c := by
  unfold cellKind
  rw [List.reverse_append, List.reverse_singleton, List.singleton_append, List.find?_cons]
  cases covers g c <;> rfl

theorem cellKind_nil (c : Nat) : cellKind [] c = .null := rfl

theorem cellKind_outside (table : List Registration) {c : Nat} (h : busCells ≤ c) : cellKind table c = .null := by
  by_contra hk
  exact absurd (cellKind_lt hk) (Nat.not_lt.2 h)

theorem registerHandlers_started {s : State} (h : s.started = true) (g : Registration) :
    s.registerHandlers g = { s with reply := .rejected .tableFixed } := if_pos h

theorem registerHandlers_startUp {s : State} (h : s.started = false) (g : Registration) :
    s.registerHandlers g =
      { s with busMap := s.busMap ++ [g], cells := storeCells (s.busMap ++ [g]) s.cells, reply := .done } :=
  if_neg (ne_true_of_eq_false h)

/-- Settles O17, by the last registration of the table and by what a cell table keeps. -/
theorem handlerTable : Obligations.HandlerTable := by
  refine ⟨fun table g c => ?_, cellKind_nil, fun table c h => cellKind_outside table h, fun s base length kind => ?_⟩
  · rw [cellKind_append]
    exact if_congr (covers_iff g c) rfl rfl
  · refine ⟨fun h => ?_, fun h => registerHandlers_started h _⟩
    have e : s.hostCall (.registerHandlers base length kind) = _ := registerHandlers_startUp h _
    generalize s.hostCall (.registerHandlers base length kind) = t at e
    subst e
    exact ⟨rfl, fun c => storeCells_read _ _ c⟩

/-! ### What instructions keep (R25, R28, R29) -/

/-- The instructions that may change SP, BP or XM: calls, RFN, and the loads of SP and of XM. -/
def loadsSpecial : Instr → Bool
  | .jfr .. | .jfa .. | .rfn | .movSpEa _ | .movXmEa _ => true
  | _ => false

theorem movXbEa_plain (ea : Operand) (s : State) :
    Plain s (loadEa 0x38#7 (fun t v => { t with xb := v }) ea s) := by
  have hu := resolve_reads ea false s
  refine ⟨special_executes _ _ ea s fun u v => ⟨by constructor <;> rfl, rfl, fun h => ?_⟩, hu.bp, hu.sp, hu.xm⟩
  exact h.of_eq rfl rfl rfl rfl rfl rfl rfl

/-- Every instruction but those keeps SP, BP and XM. -/
theorem exec_plain (i : Instr) (s : State) (h : loadsSpecial i = false) : ∃ t, exec i s = .next t ∧ Plain s t := by
  cases i with
  | nop => exact ⟨_, rfl, nop_plain s⟩
  | movEaR ea | movEaSp ea | movEaXm ea | movEaXb ea | movEaBp ea => exact ⟨_, rfl, storeEa_plain _ _ ea s⟩
  | movREa r ea => exact ⟨_, rfl, loadReg_plain _ r ea s⟩
  | xch r ea => exact xch_plain r ea s
  | movXbEa ea => exact ⟨_, rfl, movXbEa_plain ea s⟩
  | addEaR ea r | adcEaR ea r | subEaR ea r | sbcEaR ea r | andEaR ea r | orEaR ea r | xorEaR ea r | shlEaR ea r
  | shrEaR ea r | asrEaR ea r | mulEaR ea r | mlsEaR ea r | divEaR ea r | dvsEaR ea r | modEaR ea r | mdsEaR ea r =>
    exact ⟨_, rfl, aluEaR_plain _ _ ea r s⟩
  | addREa r ea | adcREa r ea | subREa r ea | sbcREa r ea | andREa r ea | orREa r ea | xorREa r ea | shlREa r ea
  | shrREa r ea | asrREa r ea | mulREa r ea | mlsREa r ea | divREa r ea | dvsREa r ea | modREa r ea | mdsREa r ea =>
    exact ⟨_, rfl, aluREa_plain _ _ r ea s⟩
  | not ea | neg ea => exact ⟨_, rfl, aluEa_plain _ _ ea s⟩
  | xeq r ea | xne r ea | xug r ea | xul r ea | xsg r ea | xsl r ea | xbs r ea | xbc r ea =>
    exact ⟨_, rfl, skipWhen_plain _ _ r ea s⟩
  | jmr ea | jma ea => exact ⟨_, rfl, retire_plain ea s _ _⟩
  | jsv ea ps => exact ⟨_, rfl, supervisorCall_plain kdispatch ea ps s⟩
  | reserved3B | reserved3C low | reserved40 low => exact ⟨_, rfl, invalidOpcode_plain _ s⟩
  | jfr ea ps | jfa ea ps | rfn | movSpEa ea | movXmEa ea => cases h

/-- `MOV SP` keeps BP and XM. -/
theorem movSpEa_keeps (ea : Operand) (s : State) :
    ∃ t, exec (.movSpEa ea) s = .next t ∧ Executes s t ∧ t.bp = s.bp ∧ t.xm = s.xm := by
  have hu := resolve_reads ea false s
  obtain ⟨t, he, hx⟩ := exec_executes (.movSpEa ea) s
  cases he
  exact ⟨_, rfl, hx, hu.bp, hu.xm⟩

/-- `MOV XM` keeps BP and SP. -/
theorem movXmEa_keeps (ea : Operand) (s : State) :
    ∃ t, exec (.movXmEa ea) s = .next t ∧ Executes s t ∧ t.bp = s.bp ∧ t.sp = s.sp := by
  have hu := resolve_reads ea false s
  obtain ⟨t, he, hx⟩ := exec_executes (.movXmEa ea) s
  cases he
  exact ⟨_, rfl, hx, hu.bp, hu.sp⟩

/-- Settles O43: calls, RFN, `MOV SP` and `MOV XM` one by one, and every other instruction at once. -/
theorem instructionsKeep : Obligations.InstructionsKeep := by
  intro i s
  cases hi : loadsSpecial i with
  | false =>
    obtain ⟨t, he, hp⟩ := exec_plain i s hi
    exact ⟨t, he, hp.fixed, hp.stall, hp.grows, (absurd hp.bp ·), (absurd hp.sp ·), (absurd hp.xm ·)⟩
  | true =>
    cases i with
    | jfr ea ps =>
      obtain ⟨hx, hxm⟩ := callProc_executes 0x30#7 true (1 + ea.words + paramsWords ps) ea ps s
      exact ⟨_, rfl, hx.fixed, hx.stall, hx.grows, fun _ => .inl ⟨ea, ps, .inl rfl⟩,
        fun _ => .inl ⟨ea, ps, .inl rfl⟩, (absurd hxm ·)⟩
    | jfa ea ps =>
      obtain ⟨hx, hxm⟩ := callProc_executes 0x31#7 false (1 + ea.words + paramsWords ps) ea ps s
      exact ⟨_, rfl, hx.fixed, hx.stall, hx.grows, fun _ => .inl ⟨ea, ps, .inr rfl⟩,
        fun _ => .inl ⟨ea, ps, .inr rfl⟩, (absurd hxm ·)⟩
    | rfn =>
      obtain ⟨t, he, hx, hxm⟩ := rfn_executes s
      exact ⟨t, he, hx.fixed, hx.stall, hx.grows, fun _ => .inr rfl, fun _ => .inr (.inl rfl), (absurd hxm ·)⟩
    | movSpEa ea =>
      obtain ⟨t, he, hx, hbp, hxm⟩ := movSpEa_keeps ea s
      exact ⟨t, he, hx.fixed, hx.stall, hx.grows, (absurd hbp ·), fun _ => .inr (.inr ⟨ea, rfl⟩), (absurd hxm ·)⟩
    | movXmEa ea =>
      obtain ⟨t, he, hx, hbp, hsp⟩ := movXmEa_keeps ea s
      exact ⟨t, he, hx.fixed, hx.stall, hx.grows, (absurd hbp ·), (absurd hsp ·), fun _ => ⟨ea, rfl⟩⟩
    | _ => cases hi

/-! ### Halt causes within a run call (R43) -/

/-- Settles O46: an instruction, the drains, the timers and the scheduler each keep the causes set before them. -/
theorem haltCausesOnlyAdd : Obligations.HaltCausesOnlyAdd := by
  intro s c hc
  refine ⟨fun hb => ?_, fun hb i rest hf => ?_⟩
  · have hgrows : Grows (s.raise .brk) ((s.raise .brk).endOfBurst c) := (endOfBurst_passes _ c).grows
    exact ⟨_, step_of_breakHit hc hb, hgrows⟩
  · obtain ⟨t, he, hx⟩ := exec_executes i s
    exact ⟨t, t.afterInstr c, he, step_of_exec hc hb hf he, hx.grows, (afterInstr_passes t c).grows⟩

/-! ### The machine at reset (R52) -/

/-- Settles O54: R52's values, both lanes being `Lane.reset` and every slot the same empty one. -/
theorem resetValues : Obligations.ResetValues := by
  have hlane : ∀ l, State.reset.lane l = Lane.reset := by rintro (_ | _) <;> rfl
  refine ⟨fun q => ?_, rfl, rfl, rfl, rfl, rfl, rfl, fun _ => ⟨rfl, rfl⟩, fun _ => rfl, fun l => ?_, rfl, rfl,
    fun _ => rfl, fun i => ?_⟩
  · cases q <;> rfl
  · rw [hlane]
    exact ⟨rfl, rfl, rfl, fun _ => rfl⟩
  · exact congrArg TaskSlot.status (Vector.getElem_replicate i.isLt)

/-! ### The invariant apart from the call in progress -/

/-- The invariant but for its clause on a `run` call in progress, which does not hold amid the end of a pass. -/
structure State.BaseOk (s : State) : Prop extends s.DataOk where
  code : s.code.wf memoryWords
  imageCode : s.image.code.wf memoryWords
  imageRam : s.image.ram.wf memoryWords
  bpmap : sparseWf false memoryWords s.bpmap
  stall : s.stall = 0
  timers : s.timers.Ok s.params

theorem State.inv_iff (s : State) : s.Inv ↔ s.BaseOk ∧ ∀ c, s.call = some c → c.Ok s := by
  constructor
  · intro h
    exact ⟨⟨⟨h.ram, h.cells, h.ext, h.laneA, h.laneB, h.hcr, h.stored⟩, h.code, h.imageCode, h.imageRam, h.bpmap,
      h.stall, h.timers⟩, h.call⟩
  · rintro ⟨b, hcall⟩
    exact ⟨b.code, b.ram, b.cells, b.stored, b.imageCode, b.imageRam, b.bpmap, b.ext, b.laneA, b.laneB, b.stall,
      b.timers, b.hcr, hcall⟩

theorem State.BaseOk.idle {s : State} (b : s.BaseOk) (h : s.call = none) : s.Inv :=
  s.inv_iff.2 ⟨b, fun c hc => by rw [h] at hc; cases hc⟩

/-- What is left to show once the data is known to be good and the rest is unchanged. -/
theorem State.BaseOk.of_data {s t : State} (b : s.BaseOk) (d : t.DataOk) (code : t.code = s.code := by rfl)
    (image : t.image = s.image := by rfl) (bpmap : t.bpmap = s.bpmap := by rfl) (stall : t.stall = s.stall := by rfl)
    (timers : t.timers.Ok t.params) : t.BaseOk :=
  ⟨d, code ▸ b.code, image ▸ b.imageCode, image ▸ b.imageRam, bpmap ▸ b.bpmap, stall.trans b.stall, timers⟩

/-- A state that differs only in registers, slots, replies and the model's own counters is as good. -/
theorem State.BaseOk.of_eq {s t : State} (b : s.BaseOk) (ram : t.ram = s.ram := by rfl)
    (cells : t.cells = s.cells := by rfl) (ext : t.ext = s.ext := by rfl) (laneA : t.laneA = s.laneA := by rfl)
    (laneB : t.laneB = s.laneB := by rfl) (hcr : t.hcr = s.hcr := by rfl) (busMap : t.busMap = s.busMap := by rfl)
    (params : t.params = s.params := by rfl) (code : t.code = s.code := by rfl) (image : t.image = s.image := by rfl)
    (bpmap : t.bpmap = s.bpmap := by rfl) (stall : t.stall = s.stall := by rfl)
    (timers : t.timers = s.timers := by rfl) : t.BaseOk :=
  b.of_data (b.toDataOk.of_eq ram cells ext laneA laneB hcr params busMap) code image bpmap stall
    (by rw [timers, params]; exact b.timers)

/-- An instruction keeps it (R45, R48, R60). -/
theorem State.BaseOk.executes {s t : State} (b : s.BaseOk) (h : Executes s t) : t.BaseOk :=
  b.of_data (h.data b.toDataOk) h.fixed.code h.fixed.image h.fixed.bpmap (h.stall.trans b.stall.symm)
    (by rw [h.fixed.timers, h.fixed.params]; exact b.timers)

/-! ### The end of a burst keeps the invariant (R330, R332) -/

theorem State.BaseOk.passTail {s : State} (b : s.BaseOk) (c : RunCall) : (s.passTail c).1.BaseOk := by
  have hp := (passTail_passes s c).1
  refine b.of_data (b.toDataOk.passTail c) hp.code hp.image hp.bpmap hp.stall ?_
  rw [hp.params]
  exact passTail_timers s c b.timers

theorem State.BaseOk.taskSched {s : State} (b : s.BaseOk) : s.taskSched.BaseOk := by
  have hs := taskSched_sched s
  have hp := Passes.of_sched hs
  have htimers : s.taskSched.timers = s.timers := by rw [hs.only]
  refine b.of_data b.toDataOk.taskSched hp.code hp.image hp.bpmap hp.stall ?_
  rw [htimers, hp.params]
  exact b.timers

theorem State.BaseOk.finishCall {s : State} (b : s.BaseOk) (total : Nat) : (s.finishCall total).Inv :=
  (b.of_eq (t := s.finishCall total)).idle rfl

/-- With no cause set a new pass has cycles left, since the line timer is within its line. -/
theorem State.BaseOk.startPass {s : State} (b : s.BaseOk) (h : s.hcr = 0) (c : RunCall) : (s.startPass c).Inv := by
  refine (State.inv_iff _).2 ⟨b.of_eq, fun c' hc' => ?_⟩
  cases hc'
  exact ⟨h, rfl, Nat.sub_pos_of_lt b.timers.lcyc⟩

/-- A pass ends the call at once, or the scheduler runs and then the call ends or a new pass begins. -/
theorem passEnd_cases (s : State) (c : RunCall) :
    s.passEnd c = s.finishCall c.total ∨ s.passEnd c = s.taskSched.finishCall c.total ∨
      (s.taskSched.hcr = 0 ∧ s.passEnd c = s.taskSched.startPass c) := by
  unfold State.passEnd
  dsimp only
  split
  · exact .inl rfl
  · split
    · exact .inr (.inl rfl)
    · rename_i h
      exact .inr (.inr ⟨Decidable.not_not.1 (not_or.1 h).2, rfl⟩)

theorem State.BaseOk.endOfBurst {s : State} (b : s.BaseOk) (c : RunCall) : (s.endOfBurst c).Inv := by
  have hb := b.passTail c
  unfold State.endOfBurst
  dsimp only
  rcases passEnd_cases (s.passTail c).1 { c with total := c.total + (s.passTail c).2 } with e | e | ⟨h, e⟩ <;> rw [e]
  · exact hb.finishCall _
  · exact hb.taskSched.finishCall _
  · exact hb.taskSched.startPass h _

/-- After an instruction the burst goes on only with no cause set and cycles left, so the budget stays consistent
with the display line, whose timer no instruction moves (R336). -/
theorem afterInstr_inv {s t : State} {c : RunCall} (b : s.BaseOk) (hc : c.Ok s) (h : Executes s t) :
    (t.afterInstr c).Inv := by
  have bt := b.executes h
  unfold State.afterInstr
  dsimp only
  split
  · exact bt.endOfBurst _
  · rename_i hgo
    obtain ⟨hquiet, -, hused⟩ := not_or.1 hgo |>.imp_right not_or.1
    refine (State.inv_iff _).2 ⟨bt.of_eq, fun c' hc' => ?_⟩
    cases hc'
    refine ⟨Decidable.not_not.1 hquiet, hc.budget.trans ?_, Nat.lt_of_not_le hused⟩
    simp only [State.passBudget, h.fixed.params, h.fixed.timers]

/-! ### The host's calls keep the invariant (R355) -/

theorem State.BaseOk.reply {s : State} (b : s.BaseOk) (r : HostReply) : ({ s with reply := r } : State).BaseOk := b.of_eq

theorem causesOnly_and {w : Word} (h : causesOnly w) (m : Word) : causesOnly (w &&& m) := by
  show w &&& m &&& 0xFC00 = 0
  rw [BitVec.and_assoc, BitVec.and_comm m, ← BitVec.and_assoc, h]
  exact BitVec.zero_and

theorem State.BaseOk.clearHalt {s : State} (b : s.BaseOk) (mask : Word) : (s.clearHalt mask).BaseOk :=
  b.of_data ⟨b.ram, b.cells, b.ext, b.laneA, b.laneB, causesOnly_and b.hcr _, b.stored⟩ (timers := b.timers)

theorem State.BaseOk.setBreakBit {s : State} (b : s.BaseOk) (a : Word) (on : Bool) : (s.setBreakBit a on).BaseOk :=
  ⟨b.toDataOk.of_eq rfl rfl rfl rfl rfl rfl rfl, b.code, b.imageCode, b.imageRam,
    sparseSet_wf b.bpmap (toNat_lt_memoryWords a) on, b.stall, b.timers⟩

theorem State.BaseOk.taskEnd {s : State} (b : s.BaseOk) (i : Fin 16) (res : Word) : (s.taskEnd i res).BaseOk := by
  unfold State.taskEnd
  split
  · exact b.of_eq
  · exact b

theorem State.BaseOk.busSet {s : State} (b : s.BaseOk) (c : Nat) (v : Word) : (s.busSet c v).BaseOk := by
  have hf := (s.busSet_busOnly c v).fixed
  refine b.of_data (b.toDataOk.busSet c v) hf.code hf.image hf.bpmap (s.busSet_keeps c v).2.1 ?_
  rw [hf.timers, hf.params]
  exact b.timers

theorem State.BaseOk.setRam {s : State} (b : s.BaseOk) (a v : Word) : (s.setRam a v).BaseOk :=
  b.of_data (b.toDataOk.setRam a v) (timers := b.timers)

theorem Lane.canonical_ok {p : Params} {x : Lane} (h : x.ring.length ≤ p.fifoDepth) : (x.canonical p).Ok p :=
  ⟨h, Memory.canonical_wf _ _⟩

/-- Contents that the checks of an import accept meet the invariant (R360). -/
theorem State.BaseOk.imported {s : State} (b : s.BaseOk) {x : Snapshot} (h : importFault s.params x = none) :
    (s.imported x).BaseOk := by
  obtain ⟨hhcr, hringA, hringB, hacyc, hasmp, hlcyc, hline⟩ := (importFault_none_iff s.params x).2 h
  refine b.of_data ⟨Memory.canonical_wf _ _, storeCells_wf (Memory.canonical_wf _ _) _, b.ext,
    Lane.canonical_ok hringA, Lane.canonical_ok hringB, hhcr, storeCells_stored _ _⟩ (timers := ?_)
  exact ⟨hacyc, hasmp, hlcyc, hline⟩

theorem State.BaseOk.importState {s : State} (b : s.BaseOk) (x : Snapshot) : (s.importState x).BaseOk := by
  unfold State.importState
  split
  · exact b.reply _
  · exact (b.imported ‹_›).reply _

theorem resetExt_wf (tick : Nat) (table : List Registration) {ext : List (Nat × List Word)}
    (h : ∃ bound, sparseWf [] bound ext) : ∃ bound, sparseWf [] bound (resetExt tick table ext) := by
  induction table generalizing ext with
  | nil => exact h
  | cons g gs ih =>
    obtain ⟨bound, hwf⟩ := h
    unfold resetExt
    split
    · rename_i k _
      exact ih ⟨max bound (k + 1), sparseSet_wf (sparseWf_mono hwf (Nat.le_max_left _ _)) (Nat.le_max_right _ _) _⟩
    · exact ih ⟨bound, hwf⟩

theorem Lane.reset_ok (p : Params) : Lane.reset.Ok p := ⟨Nat.zero_le _, sparseWf_nil _ _⟩

theorem causesOnly_mask (k : HaltCause) : causesOnly k.mask := by cases k <;> decide

theorem Timers.zero_ok (p : Params) : State.reset.timers.Ok p :=
  ⟨p.cyclesPerSample.pos, by decide, p.cyclesPerLine.pos, p.linesPerFrame.pos⟩

theorem State.BaseOk.resetInPlace {s : State} (b : s.BaseOk) : s.resetInPlace.BaseOk :=
  ⟨⟨b.imageRam, sparseWf_nil _ _, resetExt_wf _ _ b.ext, Lane.reset_ok _, Lane.reset_ok _, causesOnly_mask .init, nofun⟩,
    b.imageCode, b.imageCode, b.imageRam, b.bpmap, rfl, Timers.zero_ok _⟩

theorem State.BaseOk.launch {s : State} (b : s.BaseOk) (img : AppImage) : (s.launch img).BaseOk := by
  obtain ⟨hcode, hram⟩ := img.canonical_wf
  exact ⟨⟨hram, b.cells, b.ext, b.laneA, b.laneB, causesOnly_and b.hcr _, b.stored⟩, hcode, hcode, hram, b.bpmap,
    b.stall, b.timers⟩

theorem State.BaseOk.load {s : State} (b : s.BaseOk) (r : LoadResult) : (s.load r).BaseOk := by
  unfold State.load
  split
  · exact b.reply _
  · cases r with
    | pending => exact b.reply _
    | failed code => exact b.reply _
    | loaded img => exact (b.launch img).reply _

theorem State.BaseOk.registerHandlers {s : State} (b : s.BaseOk) (g : Registration) : (s.registerHandlers g).BaseOk := by
  cases h : s.started with
  | true =>
    rw [registerHandlers_started h]
    exact b.reply _
  | false =>
    rw [registerHandlers_startUp h]
    exact b.of_data ⟨b.ram, storeCells_wf b.cells _, b.ext, b.laneA, b.laneB, b.hcr, storeCells_stored _ _⟩
      (timers := b.timers)

theorem State.BaseOk.writeCode {s : State} (b : s.BaseOk) (a v : Word) : (s.writeCode a v).BaseOk := by
  unfold State.writeCode
  split
  · exact b.reply _
  · exact ⟨b.toDataOk.of_eq rfl rfl rfl rfl rfl rfl rfl, Memory.write_wf b.code (toNat_lt_memoryWords a) v,
      b.imageCode, b.imageRam, b.bpmap, b.stall, b.timers⟩

theorem beginRun_inv {s : State} (b : s.BaseOk) (hc : s.call = none) (mode : RunMode) : (s.beginRun mode).Inv := by
  unfold State.beginRun
  split
  · exact (b.reply _).idle hc
  · have b0 : ({ s with hcr := 0, started := true } : State).BaseOk :=
      b.of_data ⟨b.ram, b.cells, b.ext, b.laneA, b.laneB, BitVec.zero_and, b.stored⟩ (timers := b.timers)
    exact b0.startPass rfl _

theorem State.BaseOk.hostCall {s : State} (b : s.BaseOk) {k : HostCall} (h : ∀ mode, k ≠ .run mode) :
    (s.hostCall k).BaseOk := by
  cases k with
  | run mode => exact absurd rfl (h mode)
  | getHaltCause | isBreakpoint a | busGet c | exportState | readRam a | readCode a => exact b.reply _
  | clearHaltCause mask => exact (b.clearHalt mask).reply _
  | setBreakpoint a | clearBreakpoint a => exact (b.setBreakBit a _).reply _
  | taskEnd i res => exact (b.taskEnd i res).reply _
  | busSet c v => exact (b.busSet c v).reply _
  | importState x => exact b.importState x
  | reset => exact b.resetInPlace.reply _
  | load r => exact b.load r
  | registerHandlers base length kind => exact b.registerHandlers _
  | writeRam a v => exact (b.setRam a v).reply _
  | writeCode a v => exact b.writeCode a v

/-- Only `run` begins a call. -/
theorem hostCall_call (s : State) {k : HostCall} (h : ∀ mode, k ≠ .run mode) : (s.hostCall k).call = s.call := by
  cases k with
  | run mode => exact absurd rfl (h mode)
  | taskEnd i res =>
    show (s.taskEnd i res).call = s.call
    unfold State.taskEnd
    split <;> rfl
  | busSet c v => exact (s.busSet_busOnly c v).fixed.call
  | importState x =>
    show (s.importState x).call = s.call
    unfold State.importState
    split <;> rfl
  | load r =>
    show (s.load r).call = s.call
    unfold State.load
    split
    · rfl
    · cases r <;> rfl
  | registerHandlers base length kind =>
    show (s.registerHandlers _).call = s.call
    unfold State.registerHandlers
    split <;> rfl
  | writeCode a v =>
    show (s.writeCode a v).call = s.call
    unfold State.writeCode
    split <;> rfl
  | getHaltCause | clearHaltCause mask | setBreakpoint a | clearBreakpoint a | isBreakpoint a | busGet c
  | exportState | reset | readRam a | readCode a | writeRam a v => rfl

theorem hostCall_inv {s : State} (b : s.BaseOk) (hc : s.call = none) (k : HostCall) : (s.hostCall k).Inv := by
  by_cases h : ∃ mode, k = .run mode
  · obtain ⟨mode, rfl⟩ := h
    exact beginRun_inv b hc mode
  · have hk : ∀ mode, k ≠ .run mode := fun mode e => h ⟨mode, e⟩
    exact (b.hostCall hk).idle ((hostCall_call s hk).trans hc)

theorem hostTurn_inv {s : State} (h : s.Inv) (hc : s.call = none) : s.hostTurn.Inv := by
  unfold State.hostTurn
  split
  · exact h
  · rename_i k rest _
    have b : ({ s with host := rest } : State).BaseOk := (s.inv_iff.1 h).1.of_eq
    exact hostCall_inv b hc k

/-! ### The invariant -/

theorem reset_baseOk : State.reset.BaseOk :=
  ⟨reset_dataOk, sparseWf_nil _ _, sparseWf_nil _ _, sparseWf_nil _ _, sparseWf_nil _ _, rfl, Timers.zero_ok _⟩

/-- Settles O58: every table is empty, every timer 0, and no call executes. -/
theorem resetMeetsInv : Obligations.ResetMeetsInv := reset_baseOk.idle rfl

/-- Settles O59, by the three cases of a step: a turn of the host, a breakpoint, an instruction. -/
theorem stepKeepsInv : Obligations.StepKeepsInv := by
  intro s h
  obtain ⟨b, hcall⟩ := s.inv_iff.1 h
  rcases step_cases s with ⟨hc, e⟩ | ⟨c, hc, -, e⟩ | ⟨c, i, t, hc, -, hx, e⟩
  · exact ⟨_, e, hostTurn_inv h hc⟩
  · have braised : (s.raise .brk).BaseOk := b.of_data (b.toDataOk.raise .brk) (timers := b.timers)
    exact ⟨_, e, braised.endOfBurst c⟩
  · exact ⟨_, e, afterInstr_inv b (hcall c hc) hx⟩

/-! ### Contents taken out and back in (R360) -/

/-- An import that the checks turn away changes the answer only. -/
theorem importState_of_bad {s : State} {x : Snapshot} (h : importFault s.params x ≠ none) :
    ∃ why, s.hostCall (.importState x) = { s with reply := .rejected why } := by
  obtain ⟨why, e⟩ := Option.ne_none_iff_exists'.1 h
  refine ⟨why, ?_⟩
  show s.importState x = _
  unfold State.importState
  rw [e]

theorem Lane.canonical_of_wf {p : Params} {x : Lane} (h : x.regs.wf (copRegs p)) : x.canonical p = x := by
  unfold Lane.canonical
  rw [Memory.canonical_of_wf h]

/-- Contents in canonical form, as R360's memories and register files are exported. -/
structure Snapshot.Canonical (p : Params) (x : Snapshot) : Prop where
  ram : x.ram.wf memoryWords
  cells : x.cells.wf busCells
  laneA : x.laneA.regs.wf (copRegs p)
  laneB : x.laneB.regs.wf (copRegs p)

/-- Canonical contents are taken in as they are, but for words of cells that are not of kind STORE. -/
theorem imported_of_canonical {s : State} {x : Snapshot} (h : x.Canonical s.params) :
    s.imported x = { s with
      gpr := x.gpr, xm := x.xm, xb := x.xb, pc := x.pc, sp := x.sp, bp := x.bp, sbot := x.sbot, stop := x.stop,
      hcr := x.hcr, laneA := x.laneA, laneB := x.laneB, timers := x.timers, cells := storeCells s.busMap x.cells,
      ram := x.ram, pmem := x.pmem } := by
  unfold State.imported
  rw [Lane.canonical_of_wf h.laneA, Lane.canonical_of_wf h.laneB, Memory.canonical_of_wf h.cells,
    Memory.canonical_of_wf h.ram]

theorem exported_importState {s : State} {x : Snapshot} (hgood : importFault s.params x = none)
    (h : x.Canonical s.params) :
    (s.hostCall (.importState x)).exported = { x with cells := storeCells s.busMap x.cells } := by
  rw [importState_of_good hgood, imported_of_canonical h]
  rfl

theorem exported_importState_stored {s : State} {x : Snapshot} (hgood : importFault s.params x = none)
    (h : x.Canonical s.params) (hs : ∀ e ∈ x.cells, cellKind s.busMap e.1 = .store) :
    (s.hostCall (.importState x)).exported = x := by
  rw [exported_importState hgood h, storeCells_of_stored hs]

/-- What a machine in a state of the invariant exports passes the checks of an import. -/
theorem State.Inv.exported_good {s : State} (h : s.Inv) : importFault s.params s.exported = none :=
  (importFault_none_iff _ _).1
    ⟨h.hcr, h.laneA.ring, h.laneB.ring, h.timers.acyc, h.timers.asmp, h.timers.lcyc, h.timers.line⟩

theorem State.Inv.exported_canonical {s : State} (h : s.Inv) : s.exported.Canonical s.params :=
  ⟨h.ram, h.cells, h.laneA.regs, h.laneB.regs⟩

/-- A machine takes back what it exported as it was. -/
theorem importState_exported {s : State} (h : s.Inv) :
    s.hostCall (.importState s.exported) = { s with reply := .done } := by
  rw [importState_of_good h.exported_good, imported_of_canonical h.exported_canonical]
  show ({ s with cells := storeCells s.busMap s.cells, reply := .done } : State) = _
  rw [storeCells_of_stored h.stored]

/-- Settles O56, from the checks of an import and from canonical contents being taken in as they are. -/
theorem exportImport : Obligations.ExportImport := by
  intro s x
  dsimp only
  rw [importFault_none_iff]
  refine ⟨importState_of_good, fun hgood hram hcells hA hB => ?_, importState_of_bad, rfl, fun hinv => ?_⟩
  · have hx : x.Canonical s.params := ⟨hram, hcells, hA, hB⟩
    exact ⟨exported_importState hgood hx, exported_importState_stored hgood hx⟩
  · refine ⟨importState_exported hinv, fun u hp => ?_⟩
    have hgood : importFault u.params s.exported = none := hp ▸ hinv.exported_good
    have hx : s.exported.Canonical u.params := hp ▸ hinv.exported_canonical
    refine ⟨exported_importState hgood hx, fun hmap => exported_importState_stored hgood hx ?_⟩
    rw [hmap]
    exact hinv.stored

end Sys2Proof.Machine
end

section
/-! PROOFS. The statements of 20_memory.md: the memories, the stack window, the data router, the bus and its lanes,
what resolving an operand leaves unchanged, and the host's access to memory. -/
namespace Sys2Proof.Machine
open Sys2Proof.Config

/-! ### Canonical tables are determined by their reads -/

section Canonical
variable {α : Type} {d : α} {m m' : List (Nat × α)}

theorem sparseGet_of_mem (h : m.Pairwise fun e f => e.1 < f.1) {a : Nat} {v : α} (hm : (a, v) ∈ m) :
    sparseGet d m a = v := by
  induction m with
  | nil => cases hm
  | cons e rest ih =>
    obtain ⟨hlt, hrest⟩ := List.pairwise_cons.1 h
    rcases List.mem_cons.1 hm with rfl | hm
    · exact if_pos rfl
    · exact (if_neg (Nat.ne_of_lt (hlt _ hm))).trans (ih hrest hm)

theorem mem_of_sparseGet_ne {a : Nat} (h : sparseGet d m a ≠ d) : (a, sparseGet d m a) ∈ m := by
  induction m with
  | nil => exact absurd rfl h
  | cons e rest ih =>
    obtain ⟨k, w⟩ := e
    simp only [sparseGet] at h ⊢
    split
    · rename_i hk
      exact hk ▸ List.mem_cons_self
    · rename_i hk
      rw [if_neg hk] at h
      exact List.mem_cons_of_mem _ (ih h)

/-- The entries of a canonical table are its addresses that do not read as `d`, with what they read as. -/
theorem mem_iff_sparseGet {bound : Nat} (h : sparseWf d bound m) (a : Nat) (v : α) :
    (a, v) ∈ m ↔ v ≠ d ∧ sparseGet d m a = v := by
  constructor
  · intro hm
    exact ⟨(h.2 _ hm).2, sparseGet_of_mem h.1 hm⟩
  · rintro ⟨hv, rfl⟩
    exact mem_of_sparseGet_ne hv

theorem sparseWf_ext {bound : Nat} (h : sparseWf d bound m) (h' : sparseWf d bound m')
    (hget : ∀ a, sparseGet d m' a = sparseGet d m a) : m' = m := by
  have hanti : Std.Antisymm fun e f : Nat × α => e.1 < f.1 := ⟨fun _ _ hef hfe => absurd hfe (Nat.lt_asymm hef)⟩
  have hirrefl : Std.Irrefl fun e f : Nat × α => e.1 < f.1 := ⟨fun e => Nat.lt_irrefl e.1⟩
  refine h'.1.eq_of_mem_iff h.1 fun e => ?_
  rw [mem_iff_sparseGet h', mem_iff_sparseGet h, hget]

end Canonical

theorem Memory.read_write (m : Memory) (a b : Nat) (v : Word) :
    (m.write a v).read b = if b = a then v else m.read b := by
  by_cases h : b = a
  · rw [if_pos h, h, Memory.read_write_same]
  · rw [if_neg h, Memory.read_write_other m a b v h]

/-- Settles O22, from a canonical table's entries being what it reads as. -/
theorem memoryLaws : Obligations.MemoryLaws := by
  intro bound m h
  refine ⟨fun a v ha => ⟨Memory.write_wf h ha v, fun b => m.read_write a b v⟩, fun m' h' hread => ?_⟩
  exact sparseWf_ext h h' hread

/-! ### The stack window and the data router -/

theorem State.sRead_inside {s : State} {a : Word} (h : s.inWindow a = true) : s.sRead a = (s.ramAt a, s) := if_pos h

theorem State.sRead_outside {s : State} {a : Word} (h : ¬s.inWindow a = true) : s.sRead a = (0, s.raise .stack) :=
  if_neg h

theorem State.sWrite_inside {s : State} {a : Word} (h : s.inWindow a = true) (v : Word) :
    s.sWrite a v = s.setRam a v := if_pos h

theorem State.sWrite_outside {s : State} {a : Word} (h : ¬s.inWindow a = true) (v : Word) :
    s.sWrite a v = s.raise .stack := if_neg h

/-- Settles O15, on both sides of the window's bounds. -/
theorem stackWindow : Obligations.StackWindow := by
  intro s a v
  rw [← s.inWindow_iff a]
  refine ⟨fun h => ?_, fun h => ?_, rfl⟩
  · rw [State.sWrite_inside h]
    exact ⟨State.sRead_inside h, rfl, fun b => s.ramAt_setRam a b v⟩
  · exact ⟨State.sRead_outside h, State.sWrite_outside h v⟩

theorem State.dRead_ram {s : State} {a : Word} (h : a.toNat < 0xFC00) (rmw : Bool) :
    s.dRead a rmw = (s.ramAt a, s) := if_pos h

theorem State.dRead_bus {s : State} {a : Word} (h : 0xFC00 ≤ a.toNat) (rmw : Bool) :
    s.dRead a rmw = s.busRead (a.toNat - 0xFC00) rmw := if_neg (Nat.not_lt.2 h)

theorem State.dWrite_ram {s : State} {a : Word} (h : a.toNat < 0xFC00) (v : Word) : s.dWrite a v = s.setRam a v :=
  if_pos h

theorem State.dWrite_bus {s : State} {a : Word} (h : 0xFC00 ≤ a.toNat) (v : Word) :
    s.dWrite a v = s.busWrite (a.toNat - 0xFC00) v := if_neg (Nat.not_lt.2 h)

/-- Settles O16, on both sides of PERIPH_BASE. -/
theorem dataRouter : Obligations.DataRouter := by
  intro s a v rmw
  refine ⟨fun h => ?_, fun h => ⟨State.dRead_bus h rmw, State.dWrite_bus h v⟩⟩
  rw [State.dWrite_ram h]
  exact ⟨State.dRead_ram h rmw, rfl, fun b => s.ramAt_setRam a b v⟩

/-! ### Bus accesses, by the kind of the cell (R71 to R75) -/

section Cells
variable {s : State} {c : Nat}

/-- A cell that is neither STORE nor EXT reads as 0. -/
theorem State.busRead_silent (hstore : cellKind s.busMap c ≠ .store) (hext : ∀ k, cellKind s.busMap c ≠ .ext k)
    (rmw : Bool) : s.busRead c rmw = (0, s) := by
  unfold State.busRead
  cases hk : cellKind s.busMap c with
  | null | fifoAdr l | fifoDat l => rfl
  | store => exact absurd hk hstore
  | ext k => exact absurd hk (hext k)

theorem State.busRead_store (h : cellKind s.busMap c = .store) (rmw : Bool) :
    s.busRead c rmw = (s.cells.read c, s) := by
  simp only [State.busRead, h]

theorem State.busRead_ext {k : Nat} (h : cellKind s.busMap c = .ext k) (rmw : Bool) :
    s.busRead c rmw = ((extRead k c rmw (s.extState k) s.tick).1,
      (s.setExt k (extRead k c rmw (s.extState k) s.tick).2).nextTick) := by
  simp only [State.busRead, h]

theorem State.busWrite_null (h : cellKind s.busMap c = .null) (v : Word) : s.busWrite c v = s := by
  simp only [State.busWrite, h]

theorem State.busWrite_store (h : cellKind s.busMap c = .store) (v : Word) :
    s.busWrite c v = { s with cells := s.cells.write c v } := by
  simp only [State.busWrite, h]

theorem State.busWrite_fifoAdr {l : LaneId} (h : cellKind s.busMap c = .fifoAdr l) (v : Word) :
    s.busWrite c v = s.setLane l { s.lane l with latch := v } := by
  simp only [State.busWrite, h]

theorem State.busWrite_fifoDat {l : LaneId} (h : cellKind s.busMap c = .fifoDat l) (v : Word) :
    s.busWrite c v = s.fifoData l v := by
  simp only [State.busWrite, h]

theorem State.busWrite_ext {k : Nat} (h : cellKind s.busMap c = .ext k) (v : Word) :
    s.busWrite c v = (s.setExt k (extWrite k c v (s.extState k) s.tick)).nextTick := by
  simp only [State.busWrite, h]

/-- Debug access to a cell without a word or a latch of its own answers 0 and changes nothing. -/
theorem State.busDebug_silent (h : cellKind s.busMap c = .null ∨ ∃ l, cellKind s.busMap c = .fifoDat l) (v : Word) :
    s.busGet c = 0 ∧ s.busSet c v = s := by
  rcases h with h | ⟨l, h⟩ <;> simp only [State.busGet, State.busSet, h, and_self]

theorem State.busGet_store (h : cellKind s.busMap c = .store) : s.busGet c = s.cells.read c := by
  simp only [State.busGet, h]

theorem State.busSet_store (h : cellKind s.busMap c = .store) (v : Word) :
    s.busSet c v = { s with cells := s.cells.write c v } := by
  simp only [State.busSet, h]

theorem State.busGet_fifoAdr {l : LaneId} (h : cellKind s.busMap c = .fifoAdr l) : s.busGet c = (s.lane l).latch := by
  simp only [State.busGet, h]

theorem State.busSet_fifoAdr {l : LaneId} (h : cellKind s.busMap c = .fifoAdr l) (v : Word) :
    s.busSet c v = s.setLane l { s.lane l with latch := v } := by
  simp only [State.busSet, h]

theorem State.busGet_ext {k : Nat} (h : cellKind s.busMap c = .ext k) : s.busGet c = extGet k c (s.extState k) := by
  simp only [State.busGet, h]

theorem State.busSet_ext {k : Nat} (h : cellKind s.busMap c = .ext k) (v : Word) :
    s.busSet c v = s.setExt k (extSet k c v (s.extState k)) := by
  simp only [State.busSet, h]

end Cells

theorem State.extState_setExt_same (s : State) (k : Nat) (st : List Word) : (s.setExt k st).extState k = st :=
  (s.extState_setExt k k st).trans (if_pos rfl)

theorem State.extState_setExt_other (s : State) {k j : Nat} (h : j ≠ k) (st : List Word) :
    (s.setExt k st).extState j = s.extState j := (s.extState_setExt k j st).trans (if_neg h.symm)

/-- Settles O18, by the kind of the cell. -/
theorem busAccess : Obligations.BusAccess := by
  intro s c v rmw
  have hnull (h : cellKind s.busMap c = .null) : s.busRead c rmw = (0, s) ∧ s.busWrite c v = s :=
    ⟨State.busRead_silent (by simp [h]) (by simp [h]) rmw, State.busWrite_null h v⟩
  refine ⟨fun h => hnull (cellKind_outside s.busMap h), ?_⟩
  cases hk : cellKind s.busMap c with
  | null => exact hnull hk
  | store =>
    rw [State.busWrite_store hk]
    exact ⟨State.busRead_store hk rmw, rfl, fun d => s.cells.read_write c d v⟩
  | fifoAdr l =>
    have hread : s.busRead c rmw = (0, s) := State.busRead_silent (by simp [hk]) (by simp [hk]) rmw
    have hwrite := State.busWrite_fifoAdr hk v
    cases l <;> exact ⟨hread, hwrite⟩
  | fifoDat l => exact ⟨State.busRead_silent (by simp [hk]) (by simp [hk]) rmw, State.busWrite_fifoDat hk v⟩
  | ext k =>
    dsimp only
    rw [State.busRead_ext hk, State.busWrite_ext hk]
    exact ⟨rfl, s.extState_setExt_same k _, rfl, s.extState_setExt_same k _, rfl,
      fun j hj => ⟨s.extState_setExt_other hj _, s.extState_setExt_other hj _⟩⟩

/-- Settles O19, by the kind of the cell. -/
theorem busDebugAccess : Obligations.BusDebugAccess := by
  intro s c v
  refine ⟨rfl, rfl, fun h => State.busDebug_silent (.inl (cellKind_outside s.busMap h)) v, ?_⟩
  cases hk : cellKind s.busMap c with
  | null => exact State.busDebug_silent (.inl hk) v
  | store =>
    rw [State.busSet_store hk]
    exact ⟨State.busGet_store hk, rfl, fun d => s.cells.read_write c d v⟩
  | fifoAdr l =>
    have hget := State.busGet_fifoAdr hk
    have hset := State.busSet_fifoAdr hk v
    cases l <;> exact ⟨hget, hset⟩
  | fifoDat l => exact State.busDebug_silent (.inr ⟨l, hk⟩) v
  | ext k =>
    dsimp only
    rw [State.busSet_ext hk]
    exact ⟨State.busGet_ext hk, s.extState_setExt_same k _, rfl, fun j hj => s.extState_setExt_other hj _⟩

/-! ### FIFO lanes and coprocessors (R83 to R87, R347) -/

/-- The word queued for a coprocessor, its two halves side by side, as a number. -/
theorem append_eq_ofNat (x v : Word) : x ++ v = BitVec.ofNat 32 (x.toNat * 2 ^ 16 + v.toNat) := by
  apply BitVec.eq_of_toNat_eq
  rw [BitVec.toNat_append, ← Nat.shiftLeft_add_eq_or_of_lt v.isLt, Nat.shiftLeft_eq, BitVec.toNat_ofNat,
    Nat.mod_eq_of_lt (by omega)]

/-- Settles O20, by the three cases of a FIFO data write. -/
theorem fifoDataWrite : Obligations.FifoDataWrite := by
  intro s l other v hother
  dsimp only
  rw [← append_eq_ofNat]
  rcases s.fifoData_cases l v with ⟨hidle, e⟩ | ⟨hbusy, hroom, e⟩ | ⟨hbusy, hfull, e⟩ <;> rw [e]
  · obtain ⟨hhcr, hstall, -⟩ := s.copWrite_keeps l ((s.lane l).latch ++ v)
    exact ⟨fun _ => ⟨rfl, hstall, hhcr⟩, (absurd hidle ·), (absurd hidle ·)⟩
  · refine ⟨(absurd · hbusy), fun _ _ => ⟨?_, ?_, ?_⟩, fun _ h => absurd hroom (Nat.not_lt.2 h)⟩
    · rw [State.chargeStall_lane, State.lane_setLane_same]
    · rw [State.chargeStall_lane, State.lane_setLane_other _ _ _ _ hother]
    · cases l <;> rfl
  · exact ⟨(absurd · hbusy), fun _ h => absurd h (Nat.not_lt.2 hfull), fun _ _ => rfl⟩

theorem copIndex_eq_and (p : Params) (w : BitVec 32) :
    copIndex p w = (w.extractLsb' 16 16).toNat &&& (2 ^ p.copRegsLog - 1) :=
  (Nat.and_two_pow_sub_one_eq_mod _ _).symm

/-- The lane's register file with the word's low half in the register its high half selects. -/
def State.copStored (s : State) (l : LaneId) (w : BitVec 32) : Memory :=
  (s.lane l).regs.write (copIndex s.params w) (w.extractLsb' 0 16)

theorem State.copWrite_plain {s : State} {w : BitVec 32} (h : copIndex s.params w ≠ s.params.copTrigger)
    (l : LaneId) :
    s.copWrite l w = s.setLane l { s.lane l with regs := s.copStored l w } := if_neg h

theorem State.copWrite_trigger {s : State} {w : BitVec 32} (h : copIndex s.params w = s.params.copTrigger)
    (l : LaneId) :
    s.copWrite l w =
      { s.setLane l { s.lane l with
          regs := Memory.canonical (copRegs s.params) (execCop l (s.copStored l w) s.pmem).regs,
          busy := (execCop l (s.copStored l w) s.pmem).cycles }
        with pmem := (execCop l (s.copStored l w) s.pmem).pmem } := if_pos h

/-- Settles O21, by whether the register selected is the trigger. -/
theorem coprocessorWrite : Obligations.CoprocessorWrite := by
  intro s l w
  dsimp only
  rw [← copIndex_eq_and]
  refine ⟨fun j => Memory.read_write _ _ j _, fun h => State.copWrite_plain h l, fun h => ?_⟩
  rw [State.copWrite_trigger h l]
  cases l <;> exact ⟨rfl, rfl, rfl⟩

/-! ### What resolving an operand leaves unchanged -/

/-- Whether an access is a read-modify-write matters only to an EXT cell (R80). -/
theorem State.busRead_rmw {s : State} {c : Nat} (h : ∀ k, cellKind s.busMap c ≠ .ext k) :
    s.busRead c true = s.busRead c false := by
  by_cases hstore : cellKind s.busMap c = .store
  · rw [State.busRead_store hstore, State.busRead_store hstore]
  · rw [State.busRead_silent hstore h, State.busRead_silent hstore h]

/-- An operand that reaches no EXT group is read alike for a read-modify-write. -/
theorem dRead_rmw {s : State} {ea : Operand} (h : s.extGroup ea = none) {a : Word} (ha : s.dataAddress ea = some a) :
    s.dRead a true = s.dRead a false := by
  rcases Nat.lt_or_ge a.toNat 0xFC00 with hlow | hbus
  · rw [State.dRead_ram hlow, State.dRead_ram hlow]
  · rw [State.dRead_bus hbus, State.dRead_bus hbus]
    exact State.busRead_rmw fun k => extGroup_ne (by simp [h]) ha hbus

theorem resolve_rmw {s : State} {ea : Operand} (h : s.extGroup ea = none) : resolve ea true s = resolve ea false s := by
  cases ea with
  | imm4 | imm16 | reg | stack4 | stackIdx | stack16 => rfl
  | abs adr => simp only [resolve, dRead_rmw h rfl]
  | absBit order adr sub frac => simp only [resolve, State.elementOperand, dRead_rmw h rfl]
  | ptr order n => simp only [resolve, State.elementOperand, dRead_rmw h rfl]

/-- Settles O14, from what resolving an operand can do. -/
theorem resolvingFrame : Obligations.ResolvingFrame := by
  intro ea rmw s
  have hr := resolve_reads ea rmw s
  exact ⟨resolve_reg ea rmw s, resolve_xb ea rmw s, resolve_hcr ea rmw s, resolve_ext ea rmw s,
    fun a => congrArg (Memory.read · a.toNat) hr.ram, hr.cells, hr.laneA, hr.laneB, hr.pmem, hr.stall, hr.slots,
    hr.kernel, hr.xm, hr.pc, hr.sp, hr.bp, hr.fixed, resolve_rmw⟩

/-! ### The code store and the host's access to memory (R91, R94) -/

theorem load_notInitialising {s : State} (h : s.hcr &&& 0x0020 = 0) (r : LoadResult) :
    s.load r = { s with reply := .rejected .notInitialising } := if_pos h

theorem writeCode_initialising {s : State} (h : s.hcr &&& 0x0020 ≠ 0) (a v : Word) :
    s.hostCall (.writeCode a v) = { s with code := s.code.write a.toNat v, reply := .done } :=
  (hostCall_writeCode s a v).trans (if_neg h)

theorem writeCode_notInitialising {s : State} (h : s.hcr &&& 0x0020 = 0) (a v : Word) :
    s.hostCall (.writeCode a v) = { s with reply := .rejected .notInitialising } :=
  (hostCall_writeCode s a v).trans (if_pos h)

theorem codeAt_writeCode {s : State} (h : s.hcr &&& 0x0020 ≠ 0) (a b v : Word) :
    (s.hostCall (.writeCode a v)).codeAt b = if b = a then v else s.codeAt b := by
  rw [writeCode_initialising h]
  refine (s.code.read_write a.toNat b.toNat v).trans ?_
  simp only [BitVec.toNat_inj]
  rfl

/-- A load changes the code store only when it succeeds, while INIT is set (R381). -/
theorem load_code (s : State) (r : LoadResult) :
    (s.load r).code = s.code ∨ s.hcr &&& 0x0020 ≠ 0 ∧ ∃ img, r = .loaded img := by
  by_cases h : s.hcr &&& 0x0020 = 0
  · exact .inl (by rw [load_notInitialising h])
  · cases r with
    | loaded img => exact .inr ⟨h, img, rfl⟩
    | pending | failed code =>
      left
      unfold State.load
      split <;> rfl

/-- The calls that fill the code store during initialisation: a successful load, or a write of one word. -/
def HostCall.fillsCode (h : HostCall) : Prop := (∃ img, h = .load (.loaded img)) ∨ ∃ a v, h = .writeCode a v

/-- The calls that may change the code store: a successful load or a write while INIT is set, and the reset. -/
theorem hostCall_code (s : State) (h : HostCall) :
    (s.hostCall h).code = s.code ∨ (s.hcr &&& 0x0020 ≠ 0 ∧ h.fillsCode ∨ h = .reset) := by
  cases h with
  | reset => exact .inr (.inr rfl)
  | load r =>
    rcases load_code s r with e | ⟨hinit, img, rfl⟩
    · exact .inl e
    · exact .inr (.inl ⟨hinit, .inl ⟨img, rfl⟩⟩)
  | writeCode a v =>
    by_cases hinit : s.hcr &&& 0x0020 = 0
    · exact .inl (by rw [writeCode_notInitialising hinit])
    · exact .inr (.inl ⟨hinit, .inr ⟨a, v, rfl⟩⟩)
  | busSet c v => exact .inl (s.busSet_busOnly c v).fixed.code
  | run mode | taskEnd i res | importState x | registerHandlers base length kind =>
    left
    simp only [State.hostCall, State.beginRun, State.taskEnd, State.importState, State.registerHandlers]
    split <;> rfl
  | getHaltCause | clearHaltCause mask | setBreakpoint a | clearBreakpoint a | isBreakpoint a | busGet c
  | exportState | readRam a | readCode a | writeRam a v => exact .inl rfl

theorem hostTurn_nil {s : State} (h : s.host = []) : s.hostTurn = s := by
  simp only [State.hostTurn, h]

theorem hostTurn_cons {s : State} {h : HostCall} {rest : List HostCall} (hh : s.host = h :: rest) :
    s.hostTurn = ({ s with host := rest } : State).hostCall h := by
  simp only [State.hostTurn, hh]

/-- A turn of the host that changes the code store serves a load or a write while INIT is set, or the reset. -/
theorem hostTurn_code {s : State} (hcall : s.call = none) (hcode : s.hostTurn.code ≠ s.code) :
    s.hostTurn.call = none ∧ ∃ h rest, s.host = h :: rest ∧
      (s.hcr &&& 0x0020 ≠ 0 ∧ h.fillsCode ∨ h = .reset ∧ s.hostTurn.hcr &&& 0x0020 ≠ 0) := by
  cases hhost : s.host with
  | nil => exact absurd (by rw [hostTurn_nil hhost]) hcode
  | cons h rest =>
    rw [hostTurn_cons hhost] at hcode ⊢
    have hchange := (hostCall_code { s with host := rest } h).resolve_left hcode
    have hrun : ∀ mode, h ≠ .run mode := by
      rintro mode rfl
      simp [HostCall.fillsCode] at hchange
    refine ⟨(hostCall_call { s with host := rest } hrun).trans hcall, h, rest, rfl, ?_⟩
    refine hchange.imp_right ?_
    rintro rfl
    have hinit : HaltCause.init.mask &&& 0x0020 ≠ 0 := by decide
    exact ⟨rfl, hinit⟩

/-- What a step within a `run` call leaves to the host: its calls and the code store. -/
theorem step_within_run {s : State} {c : RunCall} (h : s.call = some c) :
    ∃ t, step s = .next t ∧ t.host = s.host ∧ t.code = s.code := by
  rcases step_cases s with ⟨hc, -⟩ | ⟨c', -, -, e⟩ | ⟨c', i, t, -, -, hx, e⟩
  · rw [h] at hc
    cases hc
  · have hp := endOfBurst_passes (s.raise .brk) c'
    exact ⟨_, e, hp.host, hp.code⟩
  · have hp := afterInstr_passes t c'
    exact ⟨_, e, hp.host.trans hx.fixed.host, hp.code.trans hx.fixed.code⟩

/-- Settles O57: within a `run` call no step changes the code store, and between calls the host's call decides. -/
theorem codeStoreChanges : Obligations.CodeStoreChanges := by
  refine ⟨fun s t hstep hcode => ?_, fun s a v => ⟨fun h => ⟨?_, fun b => codeAt_writeCode h a b v⟩,
    fun h => writeCode_notInitialising h a v⟩⟩
  · cases hcall : s.call with
    | none =>
      rw [step_of_idle hcall] at hstep
      cases hstep
      exact ⟨rfl, hostTurn_code hcall hcode⟩
    | some c =>
      obtain ⟨u, hu, -, hsame⟩ := step_within_run hcall
      rw [hu] at hstep
      cases hstep
      exact absurd hsame hcode
  · rw [writeCode_initialising h]

/-- Settles O60: one call's effect and reply, and when a call is served. -/
theorem hostMemoryAccess : Obligations.HostMemoryAccess := by
  refine ⟨fun s a v => ⟨rfl, rfl, rfl, fun b => ⟨?_, fun h => ?_⟩⟩, fun s h rest hcall hhost => ?_, fun s c hcall => ?_⟩
  · exact congrArg HostReply.word (s.ramAt_setRam a b v)
  · exact congrArg HostReply.word (codeAt_writeCode h a b v)
  · rw [step_of_idle hcall, hostTurn_cons hhost]
  · obtain ⟨t, e, hhost, -⟩ := step_within_run hcall
    exact ⟨t, e, hhost⟩

end Sys2Proof.Machine
end

section
/-! PROOFS. The statements of 30_encoding.md: encoder and decoder agree, the decoder is total, lengths, aliased
modes and ignored fields, the two register forms, and the assembler's pseudo-instructions. -/
namespace Sys2Proof.Machine
open Sys2Proof.Config

/-! ### Decoding an encoding (R100 to R110) -/

/-- An instruction "r, ea" decodes from its words. -/
theorem decode_regEa {c : BitVec 7} {f : Reg → Operand → Instr}
    (hc : ∀ r m ws, decodeClass c r m ws = withEa m ws (f (Reg.ofCode r))) (r : Reg) (ea : Operand)
    (rest : List Word) : decode (eaWords c r.code ea ++ rest) = .ok (f r ea, rest) := by
  rw [eaWords, List.cons_append, decode_instrWord, hc, ofCode_code, withEa, decodeOperand_mode]

/-- The same for the form "ea, r". -/
theorem decode_eaReg {c : BitVec 7} {f : Operand → Reg → Instr}
    (hc : ∀ r m ws, decodeClass c r m ws = withEa m ws fun ea => f ea (Reg.ofCode r)) (ea : Operand) (r : Reg)
    (rest : List Word) : decode (eaWords c r.code ea ++ rest) = .ok (f ea r, rest) :=
  decode_regEa (f := fun r ea => f ea r) hc r ea rest

/-- An instruction with one operand, whose field `r` is ignored, decodes from its words. -/
theorem decode_ea {c : BitVec 7} {f : Operand → Instr} (hc : ∀ r m ws, decodeClass c r m ws = withEa m ws f)
    (ea : Operand) (rest : List Word) : decode (eaWords c 0#3 ea ++ rest) = .ok (f ea, rest) := by
  rw [eaWords, List.cons_append, decode_instrWord, hc, withEa, decodeOperand_mode]

/-- A call-class instruction decodes from its words when the count field can hold the number of parameters. -/
theorem decode_call {c : BitVec 7} {f : Operand → List Operand → Instr}
    (hc : ∀ r m ws, decodeClass c r m ws = withParams m r ws f) (ea : Operand) (ps : List Operand) (rest : List Word)
    (h : paramsOk ps = true) : decode (callWords c ea ps ++ rest) = .ok (f ea ps, rest) := by
  have hlen : ps.length ≤ 7 := of_decide_eq_true h
  have hcount : (BitVec.ofNat 3 ps.length).toNat = ps.length := by
    rw [BitVec.toNat_ofNat, Nat.mod_eq_of_lt (by omega)]
  rw [callWords, List.cons_append, decode_instrWord, hc, List.append_assoc, withParams, decodeOperand_mode]
  simp only [hcount, decodeParams_encode]

theorem decodeClass_reserved3C {c : BitVec 7} (h : 0x3C ≤ c.toNat) (h' : c.toNat < 0x40) (r : BitVec 3) (m : BitVec 6)
    (ws : List Word) : decodeClass c r m ws = .ok (.reserved3C (c.extractLsb' 0 2), ws) := by
  unfold decodeClass
  generalize c.toNat = n at h h'
  interval_cases n <;> rfl

theorem decodeClass_reserved40 {c : BitVec 7} (h : 0x40 ≤ c.toNat) (r : BitVec 3) (m : BitVec 6) (ws : List Word) :
    decodeClass c r m ws = .ok (.reserved40 (c.extractLsb' 0 6), ws) := by
  have h' := c.isLt
  unfold decodeClass
  generalize c.toNat = n at h h'
  interval_cases n <;> rfl

/-- The reserved classes and the low bits kept of them (R111). -/
theorem reserved3C_class (low : BitVec 2) :
    0x3C ≤ (0xF#5 ++ low : BitVec 7).toNat ∧ (0xF#5 ++ low : BitVec 7).toNat < 0x40 ∧
      (0xF#5 ++ low : BitVec 7).extractLsb' 0 2 = low := by
  revert low
  decide

theorem reserved40_class (low : BitVec 6) :
    0x40 ≤ (1#1 ++ low : BitVec 7).toNat ∧ (1#1 ++ low : BitVec 7).extractLsb' 0 6 = low := by
  revert low
  decide

/-- Settles O1, by the shape of the instruction's words. -/
theorem decodeOfEncode : Obligations.DecodeOfEncode := by
  intro i rest h
  cases i with
  | nop | rfn | reserved3B => exact decode_instrWord _ _ _ rest
  | movEaR ea r | addEaR ea r | adcEaR ea r | subEaR ea r | sbcEaR ea r | andEaR ea r | orEaR ea r | xorEaR ea r
  | shlEaR ea r | shrEaR ea r | asrEaR ea r | mulEaR ea r | mlsEaR ea r | divEaR ea r | dvsEaR ea r | modEaR ea r
  | mdsEaR ea r => exact decode_eaReg (fun _ _ _ => rfl) ea r rest
  | movREa r ea | xch r ea | addREa r ea | adcREa r ea | subREa r ea | sbcREa r ea | andREa r ea | orREa r ea
  | xorREa r ea | shlREa r ea | shrREa r ea | asrREa r ea | mulREa r ea | mlsREa r ea | divREa r ea | dvsREa r ea
  | modREa r ea | mdsREa r ea | xeq r ea | xne r ea | xug r ea | xul r ea | xsg r ea | xsl r ea | xbs r ea
  | xbc r ea => exact decode_regEa (fun _ _ _ => rfl) r ea rest
  | not ea | neg ea | jmr ea | jma ea | movSpEa ea | movEaSp ea | movXmEa ea | movEaXm ea | movXbEa ea | movEaXb ea
  | movEaBp ea => exact decode_ea (fun _ _ _ => rfl) ea rest
  | jfr ea ps | jfa ea ps | jsv ea ps => exact decode_call (fun _ _ _ => rfl) ea ps rest h
  | reserved3C low =>
    obtain ⟨hlow, hhigh, hbits⟩ := reserved3C_class low
    rw [encode, List.singleton_append, decode_instrWord, decodeClass_reserved3C hlow hhigh, hbits]
  | reserved40 low =>
    obtain ⟨hlow, hbits⟩ := reserved40_class low
    rw [encode, List.singleton_append, decode_instrWord, decodeClass_reserved40 hlow, hbits]

/-! ### The decoder is total (R115) -/

/-- An instruction of a reserved class executes as the invalid-opcode function (R312). -/
theorem exec_reserved {i : Instr} (h : 0x3B#7 ≤ i.cls) (s : State) : exec i s = .next (invalidOpcode i.cls s) := by
  cases i with
  | reserved3B | reserved3C low | reserved40 low => rfl
  | _ => simp [Instr.cls] at h

/-- Settles O2, from the decoder being total and what a reserved class executes as. -/
theorem everyWordDecodes : Obligations.EveryWordDecodes := by
  intro w ws h
  obtain ⟨i, hi, hwf, hcls, -⟩ := decodeClass_total (fieldClass w) (fieldR w) (fieldM w) w ws h
  refine ⟨i, hi, hwf, hcls, fun hres s => ?_⟩
  rw [← hcls] at hres
  exact ⟨_, exec_reserved hres s, rfl, rfl⟩

/-- Settles O45, by the three cases of a step. -/
theorem everyStepAnswers : Obligations.EveryStepAnswers := by
  intro s
  rcases step_cases s with ⟨-, e⟩ | ⟨c, -, -, e⟩ | ⟨c, i, t, -, -, -, e⟩ <;> exact ⟨_, e⟩

/-! ### Lengths (R109) -/

theorem modeWords_le (m : BitVec 6) : modeWords m ≤ 2 := by
  unfold modeWords
  split
  · exact Nat.zero_le _
  · split <;> omega

/-- The parameter groups that `Len` steps over are those decoded there. -/
theorem paramsEnd_of_decodeParams (s : State) {n k : Nat} {ps : List Operand} {rest : List Word}
    (hk : k + 3 * n ≤ 24) (h : decodeParams n (s.fetchWords.drop k) = .ok (ps, rest)) :
    paramsEnd s s.pc n k = k + paramsWords ps ∧ ps.length = n := by
  induction n generalizing k ps rest with
  | zero =>
    cases h
    exact ⟨rfl, rfl⟩
  | succ n ih =>
    have hlen : 2 ≤ (s.fetchWords.drop (k + 1)).length := by
      rw [List.length_drop, fetchWords_length]
      omega
    obtain ⟨o, ho, hwords⟩ := decodeOperand_total (fieldM (s.codeAt (s.pc + BitVec.ofNat 16 k))) _ hlen
    have hw := Laws.words_le o
    rw [drop_fetch s k (by omega), decodeParams, ho, List.drop_drop] at h
    dsimp only at h
    cases hrec : decodeParams n (s.fetchWords.drop (k + 1 + o.words)) with
    | error e => rw [hrec] at h; cases h
    | ok r =>
      obtain ⟨os, rest'⟩ := r
      rw [hrec] at h
      cases h
      obtain ⟨hend, hcount⟩ := ih (by omega) hrec
      rw [paramsEnd, ← hwords, hend, paramsWords, List.length_cons, hcount]
      exact ⟨by omega, rfl⟩

/-- Settles O3: in each kind of class both lengths are counted from the same words. -/
theorem lenIsDecodedLength : Obligations.LenIsDecodedLength := by
  intro s i rest h
  have hpc : s.pc + BitVec.ofNat 16 0 = s.pc := BitVec.add_zero _
  have hcons : s.fetchWords = s.codeAt s.pc :: s.fetchWords.drop 1 := by
    have e := drop_fetch s 0 (by decide)
    rwa [hpc] at e
  obtain ⟨j, hj, -, -, hsize⟩ := decodeClass_total (fieldClass (s.codeAt s.pc)) (fieldR (s.codeAt s.pc))
    (fieldM (s.codeAt s.pc)) (s.codeAt s.pc) (s.fetchWords.drop 1) (by simp [fetchWords_length])
  obtain rfl : j = i := by
    rw [State.fetch, hcons, decode, hj] at h
    cases h
    rfl
  have hm := modeWords_le (fieldM (s.codeAt s.pc))
  have hr : (fieldR (s.codeAt s.pc)).toNat < 8 := (fieldR (s.codeAt s.pc)).isLt
  unfold instrLen
  dsimp only
  split at hsize
  · rw [if_pos ‹_›, hsize]
    decide
  · rw [if_neg ‹_›]
    split at hsize
    · obtain ⟨ps, rest', hps, hsize⟩ := hsize
      rw [List.drop_drop] at hps
      obtain ⟨hend, hcount⟩ := paramsEnd_of_decodeParams s (by omega) hps
      have hwords := Laws.paramsWords_le ps
      rw [if_pos ‹_›, hend, hsize]
      omega
    · rw [if_neg ‹_›, hsize]
      omega

/-! ### Examples, aliased modes and ignored fields (R112, R113) -/

/-- Settles O4: thirteen closed words decoded. -/
theorem exampleWordsDecode : Obligations.ExampleWordsDecode := by
  unfold Obligations.ExampleWordsDecode
  decide

/-- A mode encoding is read through the operand decoder only. -/
theorem decodeClass_congr_mode {m m' : BitVec 6} {ws : List Word} (h : decodeOperand m ws = decodeOperand m' ws)
    (c : BitVec 7) (r : BitVec 3) : decodeClass c r m ws = decodeClass c r m' ws := by
  have hea (f : Operand → Instr) : withEa m ws f = withEa m' ws f := by rw [withEa, h, withEa]
  have hcall (f : Operand → List Operand → Instr) : withParams m r ws f = withParams m' r ws f := by
    rw [withParams, h, withParams]
  simp only [decodeClass, hea, hcall]

/-- The mode encodings that stand for another mode, each with that mode (R113). -/
def aliasModes : List (BitVec 6 × BitVec 6) :=
  [(0x35#6, 0x34#6), (0x36#6, 0x34#6), (0x37#6, 0x34#6), (0x39#6, 0x38#6), (0x3A#6, 0x38#6), (0x3B#6, 0x38#6),
    (0x3D#6, 0x3C#6)]

/-- Both encodings of a pair take the same branch of the operand decoder. -/
theorem decodeOperand_aliasModes {m m' : BitVec 6} (h : (m, m') ∈ aliasModes) (ws : List Word) :
    decodeOperand m ws = decodeOperand m' ws := by
  simp only [aliasModes, List.mem_cons, List.not_mem_nil, or_false, Prod.mk.injEq] at h
  rcases h with ⟨rfl, rfl⟩ | ⟨rfl, rfl⟩ | ⟨rfl, rfl⟩ | ⟨rfl, rfl⟩ | ⟨rfl, rfl⟩ | ⟨rfl, rfl⟩ | ⟨rfl, rfl⟩ <;>
    cases ws <;> rfl

/-- A class with one operand and no register ignores the field `r` (R112). -/
theorem decodeClass_ignores_r {c : BitVec 7}
    (h : c ∈ [0x24#7, 0x25#7, 0x2E#7, 0x2F#7, 0x34#7, 0x35#7, 0x36#7, 0x37#7, 0x38#7, 0x39#7, 0x3A#7])
    (r r' : BitVec 3) (m : BitVec 6) (ws : List Word) : decodeClass c r m ws = decodeClass c r' m ws := by
  simp only [List.mem_cons, List.not_mem_nil, or_false] at h
  rcases h with rfl | rfl | rfl | rfl | rfl | rfl | rfl | rfl | rfl | rfl | rfl <;> rfl

/-- NOP and RFN ignore both fields (R112). -/
theorem decodeClass_ignores_fields {c : BitVec 7} (h : c ∈ [0x00#7, 0x32#7]) (r r' : BitVec 3) (m m' : BitVec 6)
    (ws : List Word) : decodeClass c r m ws = decodeClass c r' m' ws := by
  simp only [List.mem_cons, List.not_mem_nil, or_false] at h
  rcases h with rfl | rfl <;> rfl

/-- A parameter word is read through its mode field only (R108). -/
theorem decodeParams_congr {p p' : Word} (h : fieldM p = fieldM p') (n : Nat) (ws : List Word) :
    decodeParams (n + 1) (p :: ws) = decodeParams (n + 1) (p' :: ws) := by
  rw [decodeParams, h, decodeParams]

/-- The two bit-addressed modes: `s` and `f` are the halves of the spec word's low byte (R106). -/
theorem decodeOperand_bitAddressed (adr spec : Word) (ws : List Word) :
    decodeOperand 0x3E#6 (adr :: spec :: ws) =
        .ok (.absBit .msbFirst adr (spec.extractLsb' 4 4) (spec.extractLsb' 0 4), ws) ∧
      decodeOperand 0x3F#6 (adr :: spec :: ws) =
        .ok (.absBit .lsbFirst adr (spec.extractLsb' 4 4) (spec.extractLsb' 0 4), ws) := ⟨rfl, rfl⟩

theorem extractLsb'_of_lowByte (w : Word) {k : Nat} (h : k ≤ 4) :
    w.extractLsb' k 4 = (w.extractLsb' 0 8).extractLsb' k 4 := by
  ext i hi
  simp only [BitVec.getElem_extractLsb', BitVec.getLsbD_extractLsb', Nat.zero_add]
  rw [decide_eq_true (by omega), Bool.true_and]

/-- The high byte of the spec word is ignored (R112). -/
theorem decodeOperand_spec_congr {m : BitVec 6} (hm : m ∈ [0x3E#6, 0x3F#6]) {spec spec' : Word}
    (h : spec.extractLsb' 0 8 = spec'.extractLsb' 0 8) (adr : Word) (ws : List Word) :
    decodeOperand m (adr :: spec :: ws) = decodeOperand m (adr :: spec' :: ws) := by
  have hbits {k : Nat} (hk : k ≤ 4) : spec.extractLsb' k 4 = spec'.extractLsb' k 4 := by
    rw [extractLsb'_of_lowByte spec hk, h, ← extractLsb'_of_lowByte spec' hk]
  obtain ⟨hmsb, hlsb⟩ := decodeOperand_bitAddressed adr spec ws
  obtain ⟨hmsb', hlsb'⟩ := decodeOperand_bitAddressed adr spec' ws
  simp only [List.mem_cons, List.not_mem_nil, or_false] at hm
  rcases hm with rfl | rfl
  · rw [hmsb, hmsb', hbits (Nat.le_refl 4), hbits (Nat.zero_le 4)]
  · rw [hlsb, hlsb', hbits (Nat.le_refl 4), hbits (Nat.zero_le 4)]

/-- Settles O5, from what each part of the decoder reads of its words. -/
theorem aliasesAndIgnoredFields : Obligations.AliasesAndIgnoredFields := by
  refine ⟨fun ws m m' h => ⟨decodeOperand_aliasModes h ws, fun c r => ?_⟩, fun c r r' m ws h => ?_,
    fun c r r' m m' ws h => ?_, fun n p p' ws h => decodeParams_congr h n ws,
    fun m adr spec spec' ws hm h => decodeOperand_spec_congr hm h adr ws⟩
  · rw [decode_instrWord, decode_instrWord, decodeClass_congr_mode (decodeOperand_aliasModes h ws)]
  · rw [decode_instrWord, decode_instrWord, decodeClass_ignores_r h]
  · rw [decode_instrWord, decode_instrWord, decodeClass_ignores_fields h]

/-- Settles O8, row by row of the table. -/
theorem subModeTable : Obligations.SubModeTable := by
  unfold Obligations.SubModeTable
  decide

/-! ### The two forms on registers (R117, R162) -/

/-- `u` is `t` but for the cost, and the same cost under the default cycle tables. -/
def AgreeButCost (s t u : State) : Prop :=
  u = { t with cost := u.cost } ∧
    (s.params.cycBase = defaultParams.cycBase → s.params.cycMode = defaultParams.cycMode → u = t)

/-- A register operand takes no cycles under the default table (R104). -/
theorem defaultCycMode_reg (q : Reg) :
    defaultParams.cycMode[(Operand.reg q).mode.toNat]'(Operand.reg q).mode.isLt = 0 := by
  cases q <;> rfl

/-- States that differ in the cost, each at its class's and its register operand's cycles, agree under the default
tables if these charge both classes alike. -/
theorem AgreeButCost.of_falls {s t u : State} {c c' : BitVec 7} {q r : Reg} (h : u = { t with cost := u.cost })
    (ht : Falls s t c (.reg q)) (hu : Falls s u c' (.reg r))
    (hc : defaultParams.cycBase[c.toNat]'c.isLt = defaultParams.cycBase[c'.toNat]'c'.isLt) : AgreeButCost s t u := by
  refine ⟨h, fun hbase hmode => ?_⟩
  have hcost : u.cost = t.cost := by
    rw [ht.cost, hu.cost]
    simp only [hbase, hmode, defaultCycMode_reg, hc]
  rw [h, hcost]

/-- A register written by the "ea, r" form is no bus cell, so the form falls through at its own cycles. -/
theorem Stored.falls_reg {s t : State} {c : BitVec 7} {q : Reg} {x : Word} (h : Stored s t c (.reg q) x) :
    Falls s t c (.reg q) := ⟨h.pc, h.cost⟩

theorem aluForms_agree {c c' : BitVec 7}
    (hc : defaultParams.cycBase[c.toNat]'c.isLt = defaultParams.cycBase[c'.toNat]'c'.isLt) (op : AluOp) (q r : Reg)
    (s : State) : AgreeButCost s (aluEaR c op (.reg q) r s) (aluREa c' op q (.reg r) s) :=
  .of_falls rfl (aluEaR_result c op (.reg q) r s).stored.falls_reg (aluREa_result c' op q (.reg r) s).falls hc

theorem movForms_agree (q r : Reg) (s : State) :
    AgreeButCost s (storeEa 0x01#7 (fun t => t.reg r) (.reg q) s)
      (loadEa 0x02#7 (fun t v => t.setReg q v) (.reg r) s) :=
  .of_falls rfl (storeEa_result 0x01#7 (fun t => t.reg r) (.reg q) s).stored.falls_reg
    (regForm_result 0x02#7 q (.reg r) _ none s).falls rfl

/-- Settles O6: MOV, and the sixteen operations, whose two forms apply one operation to the same values. -/
theorem registerFormsAgree : Obligations.RegisterFormsAgree := by
  intro q r s p hp
  simp only [List.mem_cons, List.not_mem_nil, or_false] at hp
  rcases hp with rfl | rfl | rfl | rfl | rfl | rfl | rfl | rfl | rfl | rfl | rfl | rfl | rfl | rfl | rfl |
    rfl | rfl
  · exact ⟨_, _, rfl, rfl, movForms_agree q r s⟩
  all_goals exact ⟨_, _, rfl, rfl, aluForms_agree (by rfl) _ q r s⟩

/-! ### The assembler (R117, R118) -/

/-- A constant that fits in 4 bits is the same in the short form. -/
theorem zeroExtend_ofInt4 {k : Int} (h : 0 ≤ k ∧ k ≤ 15) : (BitVec.ofInt 4 k).zeroExtend 16 = BitVec.ofInt 16 k := by
  apply BitVec.eq_of_toNat_eq
  rw [BitVec.zeroExtend, BitVec.toNat_setWidth, BitVec.toNat_ofInt, BitVec.toNat_ofInt]
  omega

theorem asmImmediate_cases (k : Int) :
    (0 ≤ k ∧ k ≤ 15) ∧ asmImmediate k = .imm4 (BitVec.ofInt 4 k) ∨
      ¬(0 ≤ k ∧ k ≤ 15) ∧ asmImmediate k = .imm16 (BitVec.ofInt 16 k) := by
  by_cases h : 0 ≤ k ∧ k ≤ 15
  · exact .inl ⟨h, if_pos h⟩
  · exact .inr ⟨h, if_neg h⟩

theorem asmStack_cases (k : Int) :
    (0 ≤ k ∧ k ≤ 15) ∧ asmStack k = .stack4 (BitVec.ofInt 4 k) ∨
      ¬(0 ≤ k ∧ k ≤ 15) ∧ asmStack k = .stack16 (BitVec.ofInt 16 k) := by
  by_cases h : 0 ≤ k ∧ k ≤ 15
  · exact .inl ⟨h, if_pos h⟩
  · exact .inr ⟨h, if_neg h⟩

/-- Both forms of an immediate have its value modulo 2^16 and no side effect. -/
theorem resolve_asmImmediate (k : Int) (rmw : Bool) (s : State) :
    (resolve (asmImmediate k) rmw s).value = BitVec.ofInt 16 k ∧ (resolve (asmImmediate k) rmw s).after = s := by
  rcases asmImmediate_cases k with ⟨h, e⟩ | ⟨-, e⟩ <;> rw [e]
  · exact ⟨zeroExtend_ofInt4 h, rfl⟩
  · exact ⟨rfl, rfl⟩

theorem words_asmImmediate (k : Int) : (asmImmediate k).words = 0 ↔ 0 ≤ k ∧ k ≤ 15 := by
  rcases asmImmediate_cases k with ⟨h, e⟩ | ⟨h, e⟩ <;> simp [e, Operand.words, h]

theorem stackAddress_asmStack (s : State) (k : Int) :
    s.stackAddress (asmStack k) = some (s.bp + BitVec.ofInt 16 k) := by
  rcases asmStack_cases k with ⟨h, e⟩ | ⟨-, e⟩ <;> rw [e, State.stackAddress]
  rw [zeroExtend_ofInt4 h]

theorem words_asmStack (k : Int) : (asmStack k).words = 0 ↔ 0 ≤ k ∧ k ≤ 15 := by
  rcases asmStack_cases k with ⟨h, e⟩ | ⟨h, e⟩ <;> simp [e, Operand.words, h]

/-- An immediate made of a word has that word as its value. -/
theorem resolve_asmImmediate_word (t : Word) (rmw : Bool) (s : State) :
    (resolve (asmImmediate t.toNat) rmw s).value = t := by
  rw [(resolve_asmImmediate _ _ _).1]
  simp

theorem asmJmp_pc (s : State) (t : Word) : ∃ u, exec (asmJmp t) s = .next u ∧ u.pc = t :=
  ⟨_, rfl, resolve_asmImmediate_word t false s⟩

theorem asmBra_pc (s : State) (t : Word) : ∃ u, exec (asmBra s.pc t) s = .next u ∧ u.pc = t := by
  refine ⟨_, rfl, ?_⟩
  show s.pc + (resolve (asmImmediate (t - s.pc).toNat) false s).value = t
  rw [resolve_asmImmediate_word, add_sub_cancel]

theorem asmCall_pc (s : State) (t : Word) (ps : List Operand) : ∃ u, exec (asmCall t ps) s = .next u ∧ u.pc = t :=
  ⟨_, rfl, resolve_asmImmediate_word t false s⟩

/-- A register equals itself, so `SKIP` always goes past the next instruction. -/
theorem asmSkip_pc (s : State) :
    ∃ u, exec asmSkip s = .next u ∧ u.pc = s.pc + 1 + BitVec.ofNat 16 (instrLen s (s.pc + 1)) := by
  refine ⟨_, rfl, ?_⟩
  have hself : condEq (s.reg .a) (s.reg .a) = true := decide_eq_true rfl
  have hwords : s.pc + 1 + BitVec.ofNat 16 (Operand.reg .a).words = s.pc + 1 := BitVec.add_zero _
  simp only [skipWhen, resolve, hself, if_true, hwords, State.retire_pc]

/-- What an operation between a register and an immediate leaves in the register and in C. -/
theorem aluREa_asmImmediate (c : BitVec 7) (op : AluOp) (x : Reg) (k : Int) (s : State) :
    (aluREa c op x (asmImmediate k) s).reg x = (op (s.reg x) (BitVec.ofInt 16 k) (s.reg .c)).res ∧
      ∀ e, (op (s.reg x) (BitVec.ofInt 16 k) (s.reg .c)).ext = some e → x ≠ .c →
        (aluREa c op x (asmImmediate k) s).reg .c = e := by
  have h := aluREa_result c op x (asmImmediate k) s
  dsimp only at h
  rw [(resolve_asmImmediate k false s).1, (resolve_asmImmediate k false s).2] at h
  exact ⟨h.result, h.carry⟩

theorem asmInc_result (s : State) (x : Reg) : ∃ u, exec (asmInc x) s = .next u ∧ u.reg x = s.reg x + 1 ∧
    (x ≠ .c → u.reg .c = if s.reg x = 0xFFFF then 1 else 0) := by
  obtain ⟨hres, hcarry⟩ := aluREa_asmImmediate 0x05#7 aluAdd x 1 s
  rw [aluAdd_eq] at hres hcarry
  refine ⟨_, rfl, hres, fun hx => (hcarry _ rfl hx).trans (if_congr ?_ rfl rfl)⟩
  show 2 ^ 16 ≤ (s.reg x).toNat + 1 ↔ s.reg x = 0xFFFF#16
  bv_omega

theorem asmDec_result (s : State) (x : Reg) : ∃ u, exec (asmDec x) s = .next u ∧ u.reg x = s.reg x - 1 ∧
    (x ≠ .c → u.reg .c = if s.reg x = 0 then 1 else 0) := by
  obtain ⟨hres, hcarry⟩ := aluREa_asmImmediate 0x09#7 aluSub x 1 s
  rw [aluSub_eq] at hres hcarry
  refine ⟨_, rfl, hres, fun hx => (hcarry _ rfl hx).trans (if_congr ?_ rfl rfl)⟩
  show s.reg x < 1#16 ↔ s.reg x = 0#16
  bv_omega

theorem asmClr_result (s : State) (x : Reg) :
    ∃ u, exec (asmClr x) s = .next u ∧ u.reg x = 0 ∧ ∀ q, q ≠ x → u.reg q = s.reg q := by
  have h := aluREa_result 0x11#7 aluXor x (.reg x) s
  refine ⟨_, rfl, h.result.trans BitVec.xor_self, fun q hq => ?_⟩
  exact h.frame.regs q (by simpa [aluXor] using hq)

/-- Settles O7, one clause per operand kind and pseudo-instruction. -/
theorem pseudoInstructions : Obligations.PseudoInstructions :=
  ⟨fun k rmw s => ⟨(resolve_asmImmediate k rmw s).1, words_asmImmediate k, stackAddress_asmStack s k, words_asmStack k⟩,
    asmJmp_pc, asmBra_pc, asmCall_pc, rfl, asmSkip_pc, asmInc_result, asmDec_result, asmClr_result⟩

end Sys2Proof.Machine
end

section
/-! PROOFS. The statements of 40_execution_engine.md: the operands mode by mode, the elements of a data word, and
the instruction a step runs. -/
namespace Sys2Proof.Machine
open Sys2Proof.Config

/-! ### Immediates, registers and absolute addresses (R142, R144, R148, R150, R151) -/

/-- Settles O9: these modes reach nothing but the register file. -/
theorem immediateAndRegisterOperands : Obligations.ImmediateAndRegisterOperands :=
  fun _ _ => ⟨fun _ => ⟨rfl, rfl, rfl⟩, fun _ => ⟨rfl, rfl, rfl⟩, fun _ => ⟨rfl, rfl, rfl⟩⟩

/-- Settles O11: each mode is one access through the data router, which both element orders shift alike but for the
end they count from. -/
theorem absoluteOperands : Obligations.AbsoluteOperands :=
  fun _ _ _ _ _ => ⟨⟨rfl, rfl, rfl⟩, ⟨rfl, rfl, rfl⟩, ⟨rfl, rfl, rfl⟩⟩

/-! ### Stack operands (R143, R147, R149) -/

/-- An operand with a stack address is resolved by one checked read there, whichever mode forms the address. -/
theorem resolve_of_stackAddress {ea : Operand} {s : State} {a : Word} (h : s.stackAddress ea = some a) (rmw : Bool) :
    resolve ea rmw s = s.stackOperand a (s.modeCycles ea) := by
  cases ea with
  | stack4 | stackIdx | stack16 => cases h; rfl
  | imm4 | imm16 | reg | ptr | abs | absBit => cases h

theorem stackOperand_inside {s : State} {a : Word} (h : s.inWindow a = true) (cycles : Nat) :
    s.stackOperand a cycles = ⟨s.ramAt a, cycles, .stack a, s⟩ := by
  simp only [State.stackOperand, State.sRead_inside h]

theorem stackOperand_outside {s : State} {a : Word} (h : ¬s.inWindow a = true) (cycles : Nat) :
    s.stackOperand a cycles = ⟨0, cycles, .stack a, s.raise .stack⟩ := by
  simp only [State.stackOperand, State.sRead_outside h]

/-- Settles O10: the three modes have a stack address, and the rest is the checked read on the two sides of the
window's bounds. -/
theorem stackOperands : Obligations.StackOperands := by
  intro k n off rmw s p hp
  have haddr : s.stackAddress p.1 = some p.2 := by
    simp only [List.mem_cons, List.not_mem_nil, or_false] at hp
    rcases hp with rfl | rfl | rfl <;> rfl
  rw [resolve_of_stackAddress haddr, ← s.inWindow_iff p.2]
  refine ⟨rfl, fun h => ?_, fun h => ?_⟩
  · rw [stackOperand_inside h]
    exact ⟨rfl, rfl⟩
  · rw [stackOperand_outside h]
    exact ⟨rfl, rfl⟩

/-! ### Pointer operands (R146) -/

/-- The 20-bit bit address has the word's address in its upper 16 bits and the fraction in its lower 4. -/
theorem nextBitAddress_toNat (a : Word) (f : BitVec 4) (ish : Nat) :
    (nextBitAddress a f ish).toNat = (a.toNat * 16 + f.toNat + 2 ^ ish) % 2 ^ 20 := by
  have happend : (a ++ f).toNat = a.toNat * 16 + f.toNat := by
    rw [BitVec.toNat_append, ← Nat.shiftLeft_add_eq_or_of_lt f.isLt, Nat.shiftLeft_eq]
  rw [nextBitAddress, BitVec.toNat_add, BitVec.toNat_ofNat, happend, Nat.add_mod_mod]

theorem bitAddress_word_toNat (b : BitVec 20) : (b.extractLsb' 4 16).toNat = b.toNat / 16 := by
  rw [BitVec.extractLsb'_toNat, Nat.shiftRight_eq_div_pow]
  omega

theorem bitAddress_fraction_toNat (b : BitVec 20) : (b.extractLsb' 0 4).toNat = b.toNat % 16 := by
  rw [BitVec.extractLsb'_toNat, Nat.shiftRight_zero]

theorem postIncrement_disabled {sm : SubMode} (h : sm.inc = false) (s : State) (n : Ptr) (a : Word) (f : BitVec 4) :
    s.postIncrement n a f sm = s := if_neg (ne_true_of_eq_false h)

theorem postIncrement_enabled {sm : SubMode} (h : sm.inc = true) (s : State) (n : Ptr) (a : Word) (f : BitVec 4) :
    s.postIncrement n a f sm = { s.setReg n.toReg ((nextBitAddress a f sm.ish).extractLsb' 4 16) with
      xb := setNibble s.xb n ((nextBitAddress a f sm.ish).extractLsb' 0 4) } := if_pos h

/-- An enabled post-increment puts the next bit address into Xn and its nibble of XB. -/
theorem postIncrement_base {sm : SubMode} (h : sm.inc = true) (s : State) (n : Ptr) (a : Word) (f : BitVec 4) :
    ((s.postIncrement n a f sm).reg n.toReg).toNat = (a.toNat * 16 + f.toNat + 2 ^ sm.ish) % 2 ^ 20 / 16 ∧
      (nibble (s.postIncrement n a f sm).xb n).toNat = (a.toNat * 16 + f.toNat + 2 ^ sm.ish) % 2 ^ 20 % 16 := by
  rw [postIncrement_enabled h, ← nextBitAddress_toNat, ← bitAddress_word_toNat, ← bitAddress_fraction_toNat]
  refine ⟨congrArg BitVec.toNat (State.reg_setReg_same s _ _), congrArg BitVec.toNat ?_⟩
  exact (nibble_setNibble s.xb n n _).trans (if_pos rfl)

/-- A post-increment changes no part of the state but the general registers and XB. -/
theorem postIncrement_fields (s : State) (n : Ptr) (a : Word) (f : BitVec 4) (sm : SubMode) :
    s.postIncrement n a f sm =
      { s with gpr := (s.postIncrement n a f sm).gpr, xb := (s.postIncrement n a f sm).xb } := by
  cases h : sm.inc with
  | false => rw [postIncrement_disabled h]
  | true => rw [postIncrement_enabled h]; rfl

/-- Settles O12: the element is read before the increment, which moves the base and its nibble and nothing else. -/
theorem pointerOperands : Obligations.PointerOperands := by
  intro order n rmw s
  dsimp only
  have hread := dRead_busOnly s (s.reg n.toReg) rmw
  refine ⟨?_, ?_, fun h => postIncrement_disabled h _ _ _ _, fun h => ?_⟩
  · cases order <;> rfl
  · cases order <;> rfl
  · obtain ⟨hreg, hxb⟩ := postIncrement_base h (s.dRead (s.reg n.toReg) rmw).2 n (s.reg n.toReg)
      (nibble s.xb n &&& (subMode (nibble s.xm n)).fmask)
    exact ⟨hreg, hxb, fun q hq => (postIncrement_reg _ _ _ _ _ _ hq).trans (State.reg_congr _ _ hread.gpr q),
      fun k hk => (postIncrement_xb _ _ _ _ _ _ hk).trans (congrArg (nibble · k) hread.xb),
      postIncrement_fields _ _ _ _ _⟩

/-! ### Elements of a word (R145) -/

/-- The mask of the lowest `width` bits of a word. -/
def lowMask (width : Nat) : Word := BitVec.ofNat 16 (2 ^ width - 1)

theorem subMode_dmask (x : BitVec 4) : (subMode x).dmask = lowMask (subMode x).width := by
  revert x; decide

theorem subMode_fmask (x : BitVec 4) : (subMode x).fmask.toNat + (subMode x).width = 16 := by
  revert x; decide

theorem getLsbD_lowMask (width i : Nat) : (lowMask width).getLsbD i = (decide (i < 16) && decide (i < width)) := by
  rw [lowMask, BitVec.getLsbD_ofNat, Nat.testBit_two_pow_sub_one]

/-- A fraction aligned by FMASK leaves room for the element, from either end of the word. -/
theorem elemShift_fits (x f : BitVec 4) (order : ElemOrder) :
    elemShift (subMode x).width (f &&& (subMode x).fmask) order + (subMode x).width ≤ 16 := by
  have hmask := subMode_fmask x
  have hle : (f &&& (subMode x).fmask).toNat ≤ (subMode x).fmask.toNat := by
    rw [BitVec.toNat_and]
    exact Nat.and_le_right
  cases order with
  | msbFirst => simp only [elemShift]; omega
  | lsbFirst => simp only [elemShift]; omega

theorem getLsbD_extractElem (w : Word) (sh width i : Nat) :
    (extractElem w sh (lowMask width)).getLsbD i =
      (w.getLsbD (sh + i) && (decide (i < 16) && decide (i < width))) := by
  rw [extractElem, BitVec.getLsbD_and, BitVec.getLsbD_ushiftRight, getLsbD_lowMask]

/-- A merge takes the element's bits from the value and the others from the word. -/
theorem getLsbD_mergeElem {sh width : Nat} (hfit : sh + width ≤ 16) (w v : Word) (i : Nat) :
    (mergeElem w sh (lowMask width) v).getLsbD i =
      if sh ≤ i ∧ i < sh + width then v.getLsbD (i - sh) else w.getLsbD i := by
  rw [mergeElem, BitVec.getLsbD_or, BitVec.getLsbD_and, BitVec.getLsbD_not, BitVec.getLsbD_shiftLeft,
    BitVec.getLsbD_shiftLeft, BitVec.getLsbD_and, getLsbD_lowMask]
  by_cases hin : sh ≤ i ∧ i < sh + width
  · have h16 : i < 16 := by omega
    have hsub : i - sh < width := by omega
    simp [hin, h16, hsub, Nat.not_lt.2 hin.1, Nat.lt_of_le_of_lt (Nat.sub_le i sh) h16]
  · rw [if_neg hin]
    by_cases h16 : i < 16
    · have hout : i < sh ∨ ¬i - sh < width := by omega
      rcases hout with hlow | hhigh
      · simp [h16, hlow]
      · simp [h16, hhigh]
    · simp [h16, BitVec.getLsbD_of_ge w i (Nat.le_of_not_lt h16)]

/-- The merged element reads back as the value, masked. -/
theorem extractElem_mergeElem {sh width : Nat} (hfit : sh + width ≤ 16) (w v : Word) :
    extractElem (mergeElem w sh (lowMask width) v) sh (lowMask width) = v &&& lowMask width := by
  apply BitVec.eq_of_getLsbD_eq
  intro i hi
  rw [getLsbD_extractElem, getLsbD_mergeElem hfit, BitVec.getLsbD_and, getLsbD_lowMask]
  by_cases hin : i < width
  · rw [if_pos ⟨Nat.le_add_right sh i, Nat.add_lt_add_left hin sh⟩, Nat.add_sub_cancel_left]
  · simp [hin]

theorem getLsbD_mergeElem_outside {sh width : Nat} (hfit : sh + width ≤ 16) (w v : Word) {i : Nat}
    (h : i < sh ∨ sh + width ≤ i) : (mergeElem w sh (lowMask width) v).getLsbD i = w.getLsbD i := by
  rw [getLsbD_mergeElem hfit, if_neg (by omega)]

/-- A 16-bit element is the whole word: it is read as it stands and replaced whole. -/
theorem wholeWord_element (w v : Word) :
    extractElem w 0 (lowMask 16) = w ∧ mergeElem w 0 (lowMask 16) v = v := by
  constructor <;> apply BitVec.eq_of_getLsbD_eq <;> intro i hi
  · rw [getLsbD_extractElem, Nat.zero_add, decide_eq_true hi, Bool.and_self, Bool.and_true]
  · rw [getLsbD_mergeElem (Nat.le_refl 16), if_pos ⟨Nat.zero_le i, by omega⟩, Nat.sub_zero]

/-- Settles O13, bit by bit: DMASK is the mask of the element's width, and the shift leaves room for the element. -/
theorem elementMerge : Obligations.ElementMerge := by
  intro x f0 order W v
  have hfit := elemShift_fits x f0 order
  dsimp only
  rw [subMode_dmask x]
  refine ⟨hfit, extractElem_mergeElem hfit W v, fun i hi => getLsbD_mergeElem_outside hfit W v hi, fun h16 => ?_⟩
  have hsh : elemShift (subMode x).width (f0 &&& (subMode x).fmask) order = 0 := by omega
  rw [hsh, h16]
  exact wholeWord_element W v

/-! ### The instruction a step runs (R140, R330, R336) -/

/-- Settles O44: every instruction completes, so the step that decoded it goes on to the run loop's bookkeeping. -/
theorem stepRunsTheDecoded : Obligations.StepRunsTheDecoded := by
  intro s c i rest hcall hbreak hfetch
  obtain ⟨t, hexec, -⟩ := exec_executes i s
  exact ⟨t, hexec, step_of_exec hcall hbreak hfetch hexec⟩

end Sys2Proof.Machine
end

section
/-! PROOFS. The statements of 41_data_movement.md: NOP, the loads and stores of MOV, the loads of the special
registers, and the exchange. -/
namespace Sys2Proof.Machine

/-! ### Loads and stores of MOV (R202, R203, R206, R208, R210, R211) -/

/-- The general load writes its operand's value and no extended result. -/
theorem loadReg_result (cls : BitVec 7) (r : Reg) (ea : Operand) (s : State) :
    RegResult s (loadEa cls (fun t v => t.setReg r v) ea s) cls r ea (resolve ea false s).value none :=
  regForm_result cls r ea _ none s

/-- Settles O24: `MOV r, ea` is the general load of class 0x02. -/
theorem moveIntoRegister : Obligations.MoveIntoRegister :=
  fun r ea s => ⟨_, rfl, loadReg_result 0x02#7 r ea s⟩

/-- A store of a source that resolving the operand leaves as it was. -/
theorem storeEa_unmoved (cls : BitVec 7) {src : State → Word} {ea : Operand} {s : State}
    (h : src (resolve ea true s).after = src s) : EaResult s (storeEa cls src ea s) cls ea (src s) none :=
  h ▸ storeEa_result cls src ea s

/-- Settles O25: all five are one store form, and resolving the operand moves none of SP, XM and BP. -/
theorem moveIntoOperand : Obligations.MoveIntoOperand := by
  intro r ea s
  have hreads := resolve_reads ea true s
  exact ⟨⟨_, rfl, storeEa_result 0x01#7 (fun t => t.reg r) ea s⟩,
    ⟨_, rfl, storeEa_unmoved 0x35#7 hreads.sp⟩,
    ⟨_, rfl, storeEa_unmoved 0x37#7 hreads.xm⟩,
    ⟨_, rfl, storeEa_result 0x39#7 (fun t => t.xb) ea s⟩,
    ⟨_, rfl, storeEa_unmoved 0x3A#7 hreads.bp⟩⟩

/-! ### Loads of the special registers (R205, R207, R209) -/

/-- What an instruction of class `cls` does apart from its result: it resolves `ea` and falls through. -/
def readEa (cls : BitVec 7) (ea : Operand) (s : State) : State :=
  (resolve ea false s).after.fallThrough cls ea.words (resolve ea false s).cycles

theorem exec_movSpEa (ea : Operand) (s : State) :
    exec (.movSpEa ea) s = .next { readEa 0x34#7 ea s with sp := (resolve ea false s).value } := rfl

theorem exec_movXmEa (ea : Operand) (s : State) :
    exec (.movXmEa ea) s = .next { readEa 0x36#7 ea s with xm := (resolve ea false s).value } := rfl

theorem exec_movXbEa (ea : Operand) (s : State) :
    exec (.movXbEa ea) s = .next { readEa 0x38#7 ea s with xb := (resolve ea false s).value } := rfl

/-- Resolving an operand and falling through changes no special register but a pointer base's nibble of XB. -/
theorem readEa_result (cls : BitVec 7) (ea : Operand) (s : State) :
    ReadFrame s (readEa cls ea s) ea [] ∧ SameSpecial s (readEa cls ea s) ea false ∧
      Falls s (readEa cls ea s) cls ea := by
  have hreads := resolve_reads ea false s
  obtain ⟨frame, special, hcost⟩ := readForm_frame ea s
    ((resolve ea false s).after.pc + 1 + BitVec.ofNat 16 ea.words)
    ((resolve ea false s).after.baseCycles cls + (resolve ea false s).cycles)
  refine ⟨frame, special, congrArg (· + 1 + BitVec.ofNat 16 ea.words) hreads.pc, hcost.trans ?_⟩
  rw [resolve_cycles, State.baseCycles]
  simp only [hreads.fixed.params]

section SpecialRegisters
variable {s t : State} {ea : Operand}

/-- No reading frame speaks of SP, XM and XB. -/
theorem ReadFrame.setSpecial {w : List Reg} (h : ReadFrame s t ea w) (sp xm xb : Word) :
    ReadFrame s { t with sp := sp, xm := xm, xb := xb } ea w :=
  { h with fixed := { h.fixed with } }

theorem Falls.setSpecial {cls : BitVec 7} (h : Falls s t cls ea) (sp xm xb : Word) :
    Falls s { t with sp := sp, xm := xm, xb := xb } cls ea := ⟨h.pc, h.cost⟩

end SpecialRegisters

/-- Settles O26: each load is the reading form with one special register set after it. -/
theorem specialRegisterLoads : Obligations.SpecialRegisterLoads := by
  intro ea s
  refine ⟨?_, ?_, ?_⟩
  · obtain ⟨frame, special, falls⟩ := readEa_result 0x34#7 ea s
    exact ⟨_, exec_movSpEa ea s, rfl, special.xm, special.bp, special.xb, special.xbKept,
      frame.setSpecial _ _ _, falls.setSpecial _ _ _⟩
  · obtain ⟨frame, special, falls⟩ := readEa_result 0x36#7 ea s
    exact ⟨_, exec_movXmEa ea s, rfl, special.sp, special.bp, special.xb, special.xbKept,
      frame.setSpecial _ _ _, falls.setSpecial _ _ _⟩
  · obtain ⟨frame, special, falls⟩ := readEa_result 0x38#7 ea s
    exact ⟨_, exec_movXbEa ea s, rfl, special.sp, special.bp, special.xm,
      frame.setSpecial _ _ _, falls.setSpecial _ _ _⟩

/-! ### The exchange (R204) -/

section Exchange
variable {s t : State} {ea : Operand}

theorem Stored.setReg {cls : BitVec 7} {x : Word} (h : Stored s t cls ea x) (r : Reg) (v : Word) :
    Stored s (t.setReg r v) cls ea x := { h with }

theorem SameSpecial.setReg {rmw : Bool} (h : SameSpecial s t ea rmw) (r : Reg) (v : Word) :
    SameSpecial s (t.setReg r v) ea rmw := { h with }

/-- A register written after the operand joins those the frame leaves open. -/
theorem WriteFrame.setReg {w : List Reg} (h : WriteFrame s t ea w) (r : Reg) (v : Word) :
    WriteFrame s (t.setReg r v) ea (r :: w) :=
  { h with
    regs := fun q hq hea => by
      have hqr := List.ne_of_not_mem_cons hq
      have hqw := List.not_mem_of_not_mem_cons hq
      exact (State.reg_setReg_other t r q v hqr).trans (h.regs q hqw hea)
    fixed := h.fixed.trans (setReg_same t r v) }

end Exchange

/-- XCH is the store of its register with that register set after it. -/
theorem exec_xch (r : Reg) (ea : Operand) (s : State) :
    exec (.xch r ea) s =
      .next ((storeEa 0x03#7 (fun t => t.reg r) ea s).setReg r (resolve ea true s).value) := rfl

/-- Settles O27: the operand is written as by a store; the register set last changes nothing the store fixed but itself. -/
theorem exchangeResult : Obligations.ExchangeResult := by
  intro r ea s
  have hstore := storeEa_result 0x03#7 (fun t => t.reg r) ea s
  refine ⟨_, exec_xch r ea s, State.reg_setReg_same _ _ _, fun q hea hqr => ?_, hstore.stored.setReg r _,
    hstore.frame.setReg r _, hstore.special.setReg r _⟩
  exact (State.reg_setReg_other _ r q _ hqr).trans (hstore.result q hea)

/-! ### NOP (R201) -/

/-- Settles O23: NOP has no operand, so no words and no cycles join its own. -/
theorem nopResult : Obligations.NopResult := by
  intro s
  have hpc : s.pc + 1 + BitVec.ofNat 16 0 = s.pc + 1 := BitVec.add_zero _
  have hcost : s.baseCycles 0x00#7 + 0 + s.stall = s.params.cycBase[0] + s.stall := rfl
  show Host.Outcome.next (s.fallThrough 0x00#7 0 0) = _
  rw [State.fallThrough, State.retire, hpc, hcost]

end Sys2Proof.Machine
end

section
/-! PROOFS. The statements of 42_arithmetic.md: additions and subtractions, products, quotients and remainders, into
a register and into an operand. -/
namespace Sys2Proof.Machine

/-! ### An instruction that is one operation in a shared form (R162, R220) -/

section Forms
variable {i : Instr} {cls : BitVec 7} {op : AluOp} {r : Reg} {ea : Operand} {s : State} {res : Word}
  {ext : Option Word}

/-- An instruction of the "r, ea" form leaves what its operation computes of the register, the operand and C. -/
theorem exec_regForm_result (hexec : exec i s = .next (aluREa cls op r ea s))
    (hop : op ((resolve ea false s).after.reg r) (resolve ea false s).value ((resolve ea false s).after.reg .c) =
      ⟨res, ext⟩) :
    ∃ t, exec i s = .next t ∧ RegResult s t cls r ea res ext :=
  ⟨_, hexec, by simpa only [hop] using aluREa_result cls op r ea s⟩

/-- An instruction of the "ea, r" form leaves what its operation computes of the operand, the register and C. -/
theorem exec_eaForm_result (hexec : exec i s = .next (aluEaR cls op ea r s))
    (hop : op (resolve ea true s).value ((resolve ea true s).after.reg r) ((resolve ea true s).after.reg .c) =
      ⟨res, ext⟩) :
    ∃ t, exec i s = .next t ∧ EaResult s t cls ea res ext :=
  ⟨_, hexec, by simpa only [hop] using aluEaR_result cls op ea r s⟩

/-- A one-operand instruction leaves what its operation computes of the operand. -/
theorem exec_unaryForm_result {op : Word → AluResult} (hexec : exec i s = .next (aluEa cls op ea s))
    (hop : op (resolve ea true s).value = ⟨res, ext⟩) :
    ∃ t, exec i s = .next t ∧ EaResult s t cls ea res ext :=
  ⟨_, hexec, by simpa only [hop] using aluEa_result cls op ea s⟩

end Forms

/-! ### Additions and subtractions (R221 to R229) -/

/-- Settles O28: each instruction is the register form of its operation. -/
theorem addSubIntoRegister : Obligations.AddSubIntoRegister := by
  intro r ea s
  exact ⟨exec_regForm_result rfl (aluAdd_eq _ _ _), exec_regForm_result rfl (aluAdc_eq _ _ _),
    exec_regForm_result rfl (aluSub_eq _ _ _), exec_regForm_result rfl (aluSbc_eq _ _ _)⟩

/-- Settles O29: each instruction is the operand form of its operation, and NEG the one-operand form. -/
theorem addSubIntoOperand : Obligations.AddSubIntoOperand := by
  intro r ea s
  exact ⟨exec_eaForm_result rfl (aluAdd_eq _ _ _), exec_eaForm_result rfl (aluAdc_eq _ _ _),
    exec_eaForm_result rfl (aluSub_eq _ _ _), exec_eaForm_result rfl (aluSbc_eq _ _ _),
    exec_unaryForm_result rfl (aluNeg_eq _)⟩

/-! ### Products, quotients and remainders (R230 to R242) -/

/-- Settles O30: each instruction is the register form of its operation. -/
theorem mulDivIntoRegister : Obligations.MulDivIntoRegister := by
  intro r ea s
  exact ⟨exec_regForm_result rfl (aluMul_eq _ _ _), exec_regForm_result rfl (aluMls_eq _ _ _),
    exec_regForm_result rfl (aluDiv_eq _ _ _), exec_regForm_result rfl (aluDvs_eq _ _ _),
    exec_regForm_result rfl (aluMod_eq _ _ _), exec_regForm_result rfl (aluMds_eq _ _ _)⟩

/-- Settles O31: each instruction is the operand form of its operation. -/
theorem mulDivIntoOperand : Obligations.MulDivIntoOperand := by
  intro r ea s
  exact ⟨exec_eaForm_result rfl (aluMul_eq _ _ _), exec_eaForm_result rfl (aluMls_eq _ _ _),
    exec_eaForm_result rfl (aluDiv_eq _ _ _), exec_eaForm_result rfl (aluDvs_eq _ _ _),
    exec_eaForm_result rfl (aluMod_eq _ _ _), exec_eaForm_result rfl (aluMds_eq _ _ _)⟩

end Sys2Proof.Machine
end

section
/-! PROOFS. The statements of 43_logic_shift.md: bitwise logic and shifts, into a register and into an operand. -/
namespace Sys2Proof.Machine

/-! ### Bitwise logic (R251 to R257) -/

theorem aluAnd_eq (a b c : Word) : aluAnd a b c = ⟨a &&& b, none⟩ := rfl

theorem aluOr_eq (a b c : Word) : aluOr a b c = ⟨a ||| b, none⟩ := rfl

theorem aluXor_eq (a b c : Word) : aluXor a b c = ⟨a ^^^ b, none⟩ := rfl

/-- Settles O32: each instruction is the register form of its operation, and none has an extended result for C. -/
theorem logicIntoRegister : Obligations.LogicIntoRegister := by
  intro r ea s
  exact ⟨exec_regForm_result rfl (aluAnd_eq _ _ _), exec_regForm_result rfl (aluOr_eq _ _ _),
    exec_regForm_result rfl (aluXor_eq _ _ _)⟩

/-- Settles O33: each instruction is the operand form of its operation, and NOT the one-operand form, where the
exclusive or with all ones is the complement. -/
theorem logicIntoOperand : Obligations.LogicIntoOperand := by
  intro r ea s
  exact ⟨exec_eaForm_result rfl (aluAnd_eq _ _ _), exec_eaForm_result rfl (aluOr_eq _ _ _),
    exec_eaForm_result rfl (aluXor_eq _ _ _), exec_unaryForm_result rfl (aluNot_eq _)⟩

/-! ### Shifts (R258 to R263) -/

/-- Settles O34: each instruction is the register form of its operation; the model shifts an unbounded integer, which
agrees with the 32-bit double word for every count. -/
theorem shiftIntoRegister : Obligations.ShiftIntoRegister := by
  intro r ea s
  exact ⟨exec_regForm_result rfl (aluShl_eq _ _ _), exec_regForm_result rfl (aluShr_eq _ _ _),
    exec_regForm_result rfl (aluAsr_eq _ _ _)⟩

/-- Settles O35: each instruction is the operand form of its operation. -/
theorem shiftIntoOperand : Obligations.ShiftIntoOperand := by
  intro r ea s
  exact ⟨exec_eaForm_result rfl (aluShl_eq _ _ _), exec_eaForm_result rfl (aluShr_eq _ _ _),
    exec_eaForm_result rfl (aluAsr_eq _ _ _)⟩

end Sys2Proof.Machine
end

section
/-! PROOFS. The statement of 44_skip.md: the conditional skips. -/
namespace Sys2Proof.Machine

/-! ### Skip conditions (R272 to R279) -/

theorem condEq_eq (a b : Word) : condEq a b = decide (a = b) := rfl

theorem condNe_eq (a b : Word) : condNe a b = decide (a ≠ b) := rfl

theorem condUg_eq (a b : Word) : condUg a b = decide (b < a) := rfl

theorem condUl_eq (a b : Word) : condUl a b = decide (a < b) := rfl

theorem condSg_eq (a b : Word) : condSg a b = b.slt a := rfl

theorem condSl_eq (a b : Word) : condSl a b = a.slt b := rfl

theorem condBs_eq (a b : Word) : condBs a b = decide (a &&& b ≠ 0) := rfl

theorem condBc_eq (a b : Word) : condBc a b = decide (a &&& b = 0) := rfl

/-! ### The skip mechanism (R270) -/

/-- The state `t` that a skip of class `cls` over `ea` leaves of `s`, by whether its condition holds. -/
structure SkipEffect (s t : State) (cls : BitVec 7) (ea : Operand) (holds : Bool) : Prop where
  frame : ReadFrame s t ea []
  special : SameSpecial s t ea false
  taken : holds = true →
    t.pc = s.pc + 1 + BitVec.ofNat 16 ea.words + BitVec.ofNat 16 (instrLen s (s.pc + 1 + BitVec.ofNat 16 ea.words)) ∧
      t.cost = s.params.cycBase[cls.toNat]'cls.isLt + s.params.cycMode[ea.mode.toNat]'ea.mode.isLt + s.stall +
        s.params.cycSkip
  notTaken : holds = false →
    t.pc = s.pc + 1 + BitVec.ofNat 16 ea.words ∧
      t.cost = s.params.cycBase[cls.toNat]'cls.isLt + s.params.cycMode[ea.mode.toNat]'ea.mode.isLt + s.stall

/-- Either way a skip resolves its operand and retires. The length of the next instruction is counted in the code
store, which resolving the operand leaves as it was. -/
theorem skipWhen_effect (cls : BitVec 7) (cond : Word → Word → Bool) (r : Reg) (ea : Operand) (s : State) :
    SkipEffect s (skipWhen cls cond r ea s) cls ea
      (cond ((resolve ea false s).after.reg r) (resolve ea false s).value) := by
  have hlen := instrLen_code (resolve_reads ea false s).fixed.code
  rw [skipWhen, resolve_cycles, hlen, State.baseCycles]
  cases cond ((resolve ea false s).after.reg r) (resolve ea false s).value with
  | true =>
    obtain ⟨frame, special, hcost⟩ := readForm_frame ea s
      (s.pc + 1 + BitVec.ofNat 16 ea.words + BitVec.ofNat 16 (instrLen s (s.pc + 1 + BitVec.ofNat 16 ea.words)))
      (s.params.cycBase[cls.toNat]'cls.isLt + s.params.cycMode[ea.mode.toNat]'ea.mode.isLt + s.params.cycSkip)
    exact ⟨frame, special, fun _ => ⟨rfl, hcost.trans (Nat.add_right_comm _ _ _)⟩, nofun⟩
  | false =>
    obtain ⟨frame, special, hcost⟩ := readForm_frame ea s (s.pc + 1 + BitVec.ofNat 16 ea.words)
      (s.params.cycBase[cls.toNat]'cls.isLt + s.params.cycMode[ea.mode.toNat]'ea.mode.isLt)
    exact ⟨frame, special, nofun, fun _ => ⟨rfl, hcost⟩⟩

/-- An instruction that skips when `cond` holds has the effect of a skip by that condition's outcome. -/
theorem exec_skip_effect {i : Instr} {cls : BitVec 7} {cond : Word → Word → Bool} {r : Reg} {ea : Operand} {s : State}
    {holds : Bool} (hexec : exec i s = .next (skipWhen cls cond r ea s))
    (hcond : cond ((resolve ea false s).after.reg r) (resolve ea false s).value = holds) :
    ∃ t, exec i s = .next t ∧ SkipEffect s t cls ea holds :=
  ⟨_, hexec, hcond ▸ skipWhen_effect cls cond r ea s⟩

/-- Settles O36: the eight differ in their class and condition alone. -/
theorem skipResult : Obligations.SkipResult := by
  intro r ea s p
  dsimp only
  intro hp
  have heffect : ∃ t, exec p.1 s = .next t ∧ SkipEffect s t p.2.1 ea p.2.2 := by
    simp only [List.mem_cons, List.not_mem_nil, or_false] at hp
    rcases hp with rfl | rfl | rfl | rfl | rfl | rfl | rfl | rfl
    · exact exec_skip_effect rfl (condEq_eq _ _)
    · exact exec_skip_effect rfl (condNe_eq _ _)
    · exact exec_skip_effect rfl (condUg_eq _ _)
    · exact exec_skip_effect rfl (condUl_eq _ _)
    · exact exec_skip_effect rfl (condSg_eq _ _)
    · exact exec_skip_effect rfl (condSl_eq _ _)
    · exact exec_skip_effect rfl (condBs_eq _ _)
    · exact exec_skip_effect rfl (condBc_eq _ _)
  obtain ⟨t, hexec, effect⟩ := heffect
  exact ⟨t, hexec, effect.frame, effect.special, effect.taken, effect.notTaken⟩

end Sys2Proof.Machine
end

section
/-! PROOFS. The statements of 45_control_flow.md: the jumps, the calls and the return. -/
namespace Sys2Proof.Machine

/-! ### Jumps (R295, R296) -/

/-- Resolving the operand and moving pc is all a jump does, and the mode's cycles join the class's. -/
theorem jump_effect (ea : Operand) (s : State) (target : Word) (base : Nat) :
    let t := (resolve ea false s).after.retire target (base + (resolve ea false s).cycles)
    t.pc = target ∧ t.cost = base + s.params.cycMode[ea.mode.toNat]'ea.mode.isLt + s.stall ∧
      ReadFrame s t ea [] ∧ SameSpecial s t ea false := by
  rw [resolve_cycles]
  obtain ⟨frame, special, hcost⟩ :=
    readForm_frame ea s target (base + s.params.cycMode[ea.mode.toNat]'ea.mode.isLt)
  exact ⟨rfl, hcost, frame, special⟩

/-- Settles O37: the two jumps differ in their class and in what the operand's value is added to. -/
theorem jumpResult : Obligations.JumpResult :=
  fun ea s => ⟨⟨_, rfl, jump_effect ea s _ (s.baseCycles 0x2E#7)⟩, ⟨_, rfl, jump_effect ea s _ (s.baseCycles 0x2F#7)⟩⟩

/-! ### The return (R294) -/

theorem raise_stack_twice (s : State) : (s.raise .stack).raise .stack = s.raise .stack :=
  congrArg (fun w => { s with hcr := w }) (word_or_self s.hcr _)

/-- Of two checked reads neither sees what the other did, and STACK is raised once if either is outside the window. -/
theorem sRead_sRead (s : State) (a b : Word) :
    (s.sRead a).2.sRead b = ((s.sRead b).1,
      { s with hcr := if s.inWindow a = true ∧ s.inWindow b = true then s.hcr else s.hcr ||| 0x0008 }) := by
  have hsame : (s.raise .stack).inWindow b = s.inWindow b := rfl
  by_cases ha : s.inWindow a = true <;> by_cases hb : s.inWindow b = true
  · rw [State.sRead_inside ha, State.sRead_inside hb, if_pos ⟨ha, hb⟩]
  · rw [State.sRead_inside ha, State.sRead_outside hb, if_neg fun h => hb h.2]; rfl
  · rw [State.sRead_outside ha, State.sRead_inside (hsame.trans hb), State.sRead_inside hb, if_neg fun h => ha h.1]; rfl
  · rw [State.sRead_outside ha, State.sRead_outside (hsame ▸ hb), State.sRead_outside hb, raise_stack_twice,
      if_neg fun h => ha h.1]; rfl

theorem exec_rfn_outermost {s : State} (h : s.bp ≤ s.sbot) :
    exec .rfn s = .next ((s.raise .exit).retire s.pc (s.baseCycles 0x32#7)) := if_pos h

theorem exec_rfn_return {s : State} (h : s.sbot < s.bp) :
    exec .rfn s = .next { s with
      pc := (s.sRead (s.bp - 1)).1
      sp := s.bp - 2
      bp := (s.sRead (s.bp - 2)).1
      hcr := if s.inWindow (s.bp - 1) = true ∧ s.inWindow (s.bp - 2) = true then s.hcr else s.hcr ||| 0x0008
      cost := s.baseCycles 0x32#7 + s.stall
      stall := 0 } := by
  refine (if_neg (Nat.not_le.2 h)).trans ?_
  rw [sRead_sRead]
  rfl

/-- Settles O39: the comparison of BP with SBOT chooses between EXIT and two checked reads. -/
theorem returnResult : Obligations.ReturnResult := by
  intro s cost ok
  have hok (a : Word) : ok a ↔ s.inWindow a = true := (s.inWindow_iff a).symm
  refine ⟨exec_rfn_outermost, fun h => ⟨_, exec_rfn_return h, rfl, ?_⟩⟩
  simp only [hok]
  have hvalue {a : Word} (ha : s.inWindow a = true) : (s.sRead a).1 = s.ramAt a := by rw [State.sRead_inside ha]
  have hzero {a : Word} (ha : ¬s.inWindow a = true) : (s.sRead a).1 = 0 := by rw [State.sRead_outside ha]
  exact ⟨hvalue, hzero, hvalue, hzero, fun h => if_pos h, fun h => if_neg h, rfl⟩

/-! ### The pushes of a call (R290, R291) -/

/-- The state after the call's first push: the target is resolved, and the caller's BP is written at SP. -/
def State.callEntered (s : State) (ea : Operand) : State := (resolve ea false s).after.sWrite s.sp s.bp

/-- The state after the parameters `ps` are pushed above the two words of the frame. -/
def State.paramsPushed (s : State) (ea : Operand) (ps : List Operand) : State :=
  (pushParams ps (s.sp + 2) (s.callEntered ea)).2

/-- The state after all pushes, the last of which is the return address. -/
def State.callPushed (s : State) (ea : Operand) (ps : List Operand) : State :=
  (s.paramsPushed ea ps).sWrite (s.sp + 1) (s.pc + BitVec.ofNat 16 (1 + ea.words + paramsWords ps))

/-- The state a call to `target` leaves after its pushes, with `cycles` the cost of the class and the operands. -/
def State.called (s : State) (ea : Operand) (ps : List Operand) (target : Word) (cycles : Nat) : State :=
  { s.callPushed ea ps with bp := s.sp + 2, sp := s.sp + 2 + BitVec.ofNat 16 ps.length }.retire target cycles

/-- The cycles of a call's operands: the target's mode, and CYC_PARAM with its mode for each parameter. -/
def State.callCycles (s : State) (ea : Operand) (ps : List Operand) : Nat :=
  s.params.cycMode[ea.mode.toNat]'ea.mode.isLt +
    (ps.map fun o => s.params.cycParam + s.params.cycMode[o.mode.toNat]'o.mode.isLt).sum

section Pushes
variable (s : State) (ea : Operand) (ps : List Operand)

theorem callEntered_pushes : Pushes s (s.callEntered ea) := (Pushes.resolve ea s).trans (.sWrite _ _ _)

theorem paramsPushed_pushes : Pushes s (s.paramsPushed ea ps) :=
  (callEntered_pushes s ea).trans (pushParams_pushes ps _ _)

theorem callPushed_pushes : Pushes s (s.callPushed ea ps) := (paramsPushed_pushes s ea ps).trans (.sWrite _ _ _)

/-- Resolving the target moves neither SP nor BP, so the pushes are those of the caller's. -/
theorem callProc_eq_called (cls : BitVec 7) (rel : Bool) :
    callProc cls rel (1 + ea.words + paramsWords ps) ea ps s =
      s.called ea ps (if rel then s.pc + (resolve ea false s).value else (resolve ea false s).value)
        (s.baseCycles cls + s.callCycles ea ps) := by
  have hreads := resolve_reads ea false s
  have hparams := (callEntered_pushes s ea).fixed.params
  have hcycles : (resolve ea false s).cycles + (pushParams ps (s.sp + 2) (s.callEntered ea)).1 =
      s.callCycles ea ps := by
    rw [resolve_cycles, pushParams_cycles]
    simp only [hparams, State.callCycles]
  rw [← hcycles, ← Nat.add_assoc]
  simp only [callProc, hreads.sp, hreads.bp]
  rfl

theorem exec_jfr : exec (.jfr ea ps) s = .next (s.called ea ps (s.pc + (resolve ea false s).value)
    (s.baseCycles 0x30#7 + s.callCycles ea ps)) := congrArg Host.Outcome.next (callProc_eq_called s ea ps 0x30#7 true)

theorem exec_jfa : exec (.jfa ea ps) s = .next (s.called ea ps (resolve ea false s).value
    (s.baseCycles 0x31#7 + s.callCycles ea ps)) := congrArg Host.Outcome.next (callProc_eq_called s ea ps 0x31#7 false)

/-! #### Registers -/

theorem callEntered_gpr : (s.callEntered ea).gpr = (resolve ea false s).after.gpr := sWrite_gpr _ _ _

theorem callEntered_xb : (s.callEntered ea).xb = (resolve ea false s).after.xb := sWrite_xb _ _ _

theorem callPushed_gpr : (s.callPushed ea ps).gpr = (s.paramsPushed ea ps).gpr := sWrite_gpr _ _ _

theorem callPushed_xb : (s.callPushed ea ps).xb = (s.paramsPushed ea ps).xb := sWrite_xb _ _ _

theorem callPushed_ext : (s.callPushed ea ps).ext = (s.paramsPushed ea ps).ext := by
  rw [State.callPushed, State.sWrite_fields]

/-- A call changes no register but the pointer bases of its operands. -/
theorem callPushed_reg {q : Reg} (h : ∀ o ∈ ea :: ps, incBase o ≠ some q) : (s.callPushed ea ps).reg q = s.reg q :=
  calc (s.callPushed ea ps).reg q
    _ = (s.paramsPushed ea ps).reg q := State.reg_congr _ _ (callPushed_gpr s ea ps) q
    _ = (s.callEntered ea).reg q := pushParams_reg ps _ _ q fun o ho => h o (List.mem_cons_of_mem _ ho)
    _ = (resolve ea false s).after.reg q := State.reg_congr _ _ (callEntered_gpr s ea) q
    _ = s.reg q := resolve_reg ea false s q (h ea List.mem_cons_self)

/-- A call changes no nibble of XB but those of its operands' pointer bases. -/
theorem callPushed_nibble {n : Ptr} (h : ∀ o ∈ ea :: ps, incBase o ≠ some n.toReg) :
    nibble (s.callPushed ea ps).xb n = nibble s.xb n :=
  calc nibble (s.callPushed ea ps).xb n
    _ = nibble (s.paramsPushed ea ps).xb n := congrArg (nibble · n) (callPushed_xb s ea ps)
    _ = nibble (s.callEntered ea).xb n := pushParams_xb ps _ _ n fun o ho => h o (List.mem_cons_of_mem _ ho)
    _ = nibble (resolve ea false s).after.xb n := congrArg (nibble · n) (callEntered_xb s ea)
    _ = nibble s.xb n := resolve_xb ea false s n (h ea List.mem_cons_self)

/-- Parameter `i` is resolved in the state the ones before it left, and its push changes no register. -/
theorem paramsPushed_succ {i : Nat} (h : i < ps.length) :
    s.paramsPushed ea (ps.take (i + 1)) =
      (resolve ps[i] false (s.paramsPushed ea (ps.take i))).after.sWrite
        (s.sp + 2 + BitVec.ofNat 16 (ps.take i).length)
        (resolve ps[i] false (s.paramsPushed ea (ps.take i))).value := by
  rw [List.take_succ_eq_append_getElem h]
  exact pushParams_snoc _ _ _ _

/-! #### The frame in data RAM -/

theorem callEntered_ramAt (a : Word) :
    (s.callEntered ea).ramAt a = if s.inWindow s.sp = true ∧ a = s.sp then s.bp else s.ramAt a := by
  have hreads := resolve_reads ea false s
  rw [State.callEntered, State.ramAt_sWrite, inWindow_same hreads.fixed, State.ramAt, hreads.ram]
  rfl

theorem callPushed_ramAt (a : Word) :
    (s.callPushed ea ps).ramAt a = if s.inWindow (s.sp + 1) = true ∧ a = s.sp + 1 then
      s.pc + BitVec.ofNat 16 (1 + ea.words + paramsWords ps) else (s.paramsPushed ea ps).ramAt a := by
  rw [State.callPushed, State.ramAt_sWrite, inWindow_same (paramsPushed_pushes s ea ps).fixed]

/-- The slot of the return address takes it. -/
theorem callPushed_returnSlot (hw : s.inWindow (s.sp + 1) = true) :
    (s.callPushed ea ps).ramAt (s.sp + 1) = s.pc + BitVec.ofNat 16 (1 + ea.words + paramsWords ps) :=
  (callPushed_ramAt s ea ps _).trans (if_pos ⟨hw, rfl⟩)

/-- The pushes leave every word of data RAM outside the window. -/
theorem callPushed_outside {a : Word} (hw : s.inWindow a = false) : (s.callPushed ea ps).ramAt a = s.ramAt a := by
  have hne {b : Word} : ¬(s.inWindow b = true ∧ a = b) := by
    rintro ⟨hb, rfl⟩
    exact Bool.false_ne_true (hw.symm.trans hb)
  have hentered := (inWindow_same (callEntered_pushes s ea).fixed a).trans hw
  rw [callPushed_ramAt, if_neg hne, State.paramsPushed, pushParams_outside ps _ _ a hentered, callEntered_ramAt,
    if_neg hne]

variable {ps}

/-- The pushes leave every word of data RAM that is not a slot of the frame. -/
theorem callPushed_otherRam {a : Word} (h : ∀ k, k < 2 + ps.length → a ≠ s.sp + BitVec.ofNat 16 k) :
    (s.callPushed ea ps).ramAt a = s.ramAt a := by
  have h0 : a ≠ s.sp := by simpa using h 0 (by omega)
  have h1 : a ≠ s.sp + 1 := h 1 (by omega)
  have hparams (k : Nat) (hk : k < ps.length) : a ≠ s.sp + 2 + BitVec.ofNat 16 k := by
    rw [slot_add]
    exact h (2 + k) (by omega)
  rw [callPushed_ramAt, if_neg fun e => h1 e.2, State.paramsPushed, pushParams_ram ps _ _ a hparams,
    callEntered_ramAt, if_neg fun e => h0 e.2]

/-- The lowest slot takes the caller's BP, which no later push overwrites. -/
theorem callPushed_bpSlot (hlen : ps.length ≤ 7) (hw : s.inWindow s.sp = true) :
    (s.callPushed ea ps).ramAt s.sp = s.bp := by
  have hne (k : Nat) (hk : k < 65535) : s.sp ≠ s.sp + BitVec.ofNat 16 (k + 1) := by
    simpa using slot_ne (a := s.sp) (i := 0) (j := k + 1) (by omega) (by omega) (by omega)
  have hparams (k : Nat) (hk : k < ps.length) : s.sp ≠ s.sp + 2 + BitVec.ofNat 16 k := by
    rw [slot_add, show 2 + k = k + 1 + 1 by omega]
    exact hne (k + 1) (by omega)
  rw [callPushed_ramAt, if_neg fun e => hne 0 (by omega) e.2, State.paramsPushed, pushParams_ram ps _ _ _ hparams,
    callEntered_ramAt, if_pos ⟨hw, rfl⟩]

/-- The slot of parameter `i` takes the value it had when its turn came. -/
theorem callPushed_paramSlot (hlen : ps.length ≤ 7) {i : Nat} (h : i < ps.length)
    (hw : s.inWindow (s.sp + BitVec.ofNat 16 (2 + i)) = true) :
    (s.callPushed ea ps).ramAt (s.sp + BitVec.ofNat 16 (2 + i)) =
      (resolve ps[i] false (s.paramsPushed ea (ps.take i))).value := by
  have hne : s.sp + BitVec.ofNat 16 (2 + i) ≠ s.sp + 1 := slot_ne (i := 2 + i) (j := 1) (by omega) (by omega) (by omega)
  rw [callPushed_ramAt, if_neg fun e => hne e.2, ← slot_add]
  refine pushParams_slot ps _ _ (by omega) i h ?_
  rw [inWindow_same (callEntered_pushes s ea).fixed, slot_add]
  exact hw

/-! #### STACK -/

/-- A push or an operand's read is outside the window. -/
def State.callFaults (s : State) (ea : Operand) (ps : List Operand) : Prop :=
  (∃ k, k < 2 + ps.length ∧ s.inWindow (s.sp + BitVec.ofNat 16 k) = false) ∨ s.readFaults ea ∨
    ∃ (i : Nat) (h : i < ps.length), (s.paramsPushed ea (ps.take i)).readFaults ps[i]

/-- STACK raised at any point between pushes is raised at the end, and no more than once. -/
theorem Pushes.hcr_of_raised {s u u' t : State} (h : Pushes s u) (hraised : u'.hcr = u.hcr ||| 0x0008)
    (k : Pushes u' t) : t.hcr = s.hcr ||| 0x0008 := by
  refine Pushes.keepsStack ?_ k
  rcases h.hcr with hu | hu <;> rw [hraised, hu]
  exact (word_or_self _ _).symm

theorem hcr_sWrite_outside {u : State} {a : Word} (hw : u.inWindow a = false) (v : Word) :
    (u.sWrite a v).hcr = u.hcr ||| 0x0008 := by
  rw [State.hcr_sWrite, hw]
  rfl

/-- Any access of the call outside the window raises STACK. -/
theorem callPushed_hcr_of_faults (h : s.callFaults ea ps) : (s.callPushed ea ps).hcr = s.hcr ||| 0x0008 := by
  have hresolve := Pushes.resolve ea s
  have hentered := callEntered_pushes s ea
  have hparams := pushParams_pushes ps (s.sp + 2) (s.callEntered ea)
  have hlast : Pushes (s.paramsPushed ea ps) (s.callPushed ea ps) := .sWrite _ _ _
  have hwindow {u : State} {a : Word} (hu : Pushes s u) (hw : s.inWindow a = false) : u.inWindow a = false :=
    (inWindow_same hu.fixed a).trans hw
  rcases h with ⟨k, hk, hw⟩ | hread | ⟨i, hi, hread⟩
  · match k with
    | 0 =>
      rw [BitVec.add_zero] at hw
      exact hresolve.hcr_of_raised (hcr_sWrite_outside (hwindow hresolve hw) _) (hparams.trans hlast)
    | 1 =>
      exact (hentered.trans hparams).hcr_of_raised
        (hcr_sWrite_outside (hwindow (paramsPushed_pushes s ea ps) hw) _) (.refl _)
    | k + 2 =>
      rw [Nat.add_comm k 2, ← slot_add] at hw
      exact hentered.hcr_of_raised (pushParams_stack ps _ _ k (by omega) (hwindow hentered hw)) hlast
  · have hraised := (resolve_hcr ea false s).trans (hcrAfter_of_faults hread)
    exact (Pushes.refl s).hcr_of_raised hraised (((Pushes.sWrite _ _ _).trans hparams).trans hlast)
  · exact hentered.hcr_of_raised (pushParams_readFaults ps _ _ i hi hread) hlast

/-- A call whose accesses are all inside the window leaves HCR. -/
theorem callPushed_hcr_of_not_faults (h : ¬s.callFaults ea ps) : (s.callPushed ea ps).hcr = s.hcr := by
  simp only [State.callFaults, not_or, not_exists, not_and, Bool.not_eq_false] at h
  obtain ⟨hslots, hread, hreads⟩ := h
  have hwindow {u : State} {a : Word} (hu : Pushes s u) (hw : s.inWindow a = true) : u.inWindow a = true :=
    (inWindow_same hu.fixed a).trans hw
  have h0 : s.inWindow s.sp = true := by simpa using hslots 0 (by omega)
  have h1 : s.inWindow (s.sp + 1) = true := hslots 1 (by omega)
  have hparams (i : Nat) (hi : i < ps.length) :
      (s.callEntered ea).inWindow (s.sp + 2 + BitVec.ofNat 16 i) = true := by
    rw [slot_add]
    exact hwindow (callEntered_pushes s ea) (hslots (2 + i) (by omega))
  calc (s.callPushed ea ps).hcr
    _ = (s.paramsPushed ea ps).hcr := by
      rw [State.callPushed, State.hcr_sWrite, if_pos (hwindow (paramsPushed_pushes s ea ps) h1)]
    _ = (s.callEntered ea).hcr := pushParams_quiet ps _ _ hparams hreads
    _ = (resolve ea false s).after.hcr := by
      rw [State.callEntered, State.hcr_sWrite, if_pos (hwindow (Pushes.resolve ea s) h0)]
    _ = s.hcr := (resolve_hcr ea false s).trans (hcrAfter_of_not_faults hread)

end Pushes

/-! ### The calls (R290 to R293) -/

/-- Settles O38: both calls are the pushes of the frame, then the new BP and SP; they differ in the target and the
class. -/
theorem callFrame : Obligations.CallFrame := by
  intro ea ps s hlen v s0 slot before arg stacked p hp
  have hexec : exec p.1 s = .next (s.called ea ps p.2.1 (p.2.2 + s.callCycles ea ps)) := by
    simp only [List.mem_cons, List.not_mem_nil, or_false] at hp
    rcases hp with rfl | rfl
    · exact exec_jfr s ea ps
    · exact exec_jfa s ea ps
  have hpushes := callPushed_pushes s ea ps
  have hslot0 : slot 0 = s.sp := BitVec.add_zero _
  have hall : before ps.length = s.paramsPushed ea ps := congrArg (s.paramsPushed ea) List.take_length
  refine ⟨_, hexec, rfl, rfl, slot_add _ _, ?_, callPushed_returnSlot s ea ps,
    fun i h => callPushed_paramSlot s ea hlen h, fun k _ => callPushed_outside s ea ps,
    fun a => callPushed_otherRam s ea, fun i _ => (paramsPushed_pushes s ea (ps.take i)).bp,
    callEntered_gpr s ea, callEntered_xb s ea, fun i h => ?_, ?_, ?_, ?_,
    callPushed_hcr_of_faults s ea, callPushed_hcr_of_not_faults s ea, ?_,
    fun q => callPushed_reg s ea ps, fun n => callPushed_nibble s ea ps,
    hpushes.xm, hpushes.cells, hpushes.laneA, hpushes.laneB, hpushes.pmem, hpushes.slots, hpushes.kernel, rfl,
    { hpushes.fixed with }⟩
  · rw [hslot0]
    exact callPushed_bpSlot s ea hlen
  · have hnext : before (i + 1) = _ := paramsPushed_succ s ea ps h
    rw [hnext]
    exact ⟨sWrite_gpr _ _ _, sWrite_xb _ _ _⟩
  · rw [hall]; exact callPushed_gpr s ea ps
  · rw [hall]; exact callPushed_xb s ea ps
  · rw [hall]; exact callPushed_ext s ea ps
  · show p.2.2 + s.callCycles ea ps + (s.callPushed ea ps).stall = _
    rw [hpushes.stall, State.callCycles, ← Nat.add_assoc]

/-! ### A call and its return (R290, R291, R294) -/

/-- Settles O40: BP - 2 and BP - 1 are the slots of the caller's BP and the return address, and a frame whose first
two slots are inside the window starts above SBOT, so RFN returns. -/
theorem callThenReturn : Obligations.CallThenReturn := by
  intro ea ps s i hlen hw0 hw1 hi
  have hcall : ∃ t, exec i s = .next t ∧ t.bp = s.sp + 2 ∧ t.ramAt s.sp = s.bp ∧
      t.ramAt (s.sp + 1) = s.pc + BitVec.ofNat 16 i.size := by
    have hbp := callPushed_bpSlot s ea hlen hw0
    have hra := callPushed_returnSlot s ea ps hw1
    simp only [List.mem_cons, List.not_mem_nil, or_false] at hi
    rcases hi with rfl | rfl
    · exact ⟨_, exec_jfr s ea ps, rfl, hbp, hra⟩
    · exact ⟨_, exec_jfa s ea ps, rfl, hbp, hra⟩
  obtain ⟨t, hexec, htbp, htram, htra⟩ := hcall
  refine ⟨t, hexec, fun u hbp hsbot hstop hram hra => ?_⟩
  rw [s.inWindow_iff] at hw0 hw1
  obtain ⟨hlow0, hhigh0⟩ := hw0
  obtain ⟨hlow1, hhigh1⟩ := hw1
  have hubp : u.bp = s.sp + 2 := hbp.trans htbp
  have hret : u.bp - 1 = s.sp + 1 := by rw [hubp]; bv_omega
  have hold : u.bp - 2 = s.sp := by rw [hubp]; bv_omega
  have hinner : u.sbot < u.bp := by rw [hubp, hsbot]; bv_omega
  obtain ⟨w, hrfn, hsp, hpc, -, hwbp, -, hhcr, -⟩ := (returnResult u).2 hinner
  rw [hret, hsbot, hstop] at hpc
  rw [hold, hsbot, hstop] at hwbp
  rw [hret, hold, hsbot, hstop] at hhcr
  exact ⟨w, hrfn, hsp.trans hold, (hwbp ⟨hlow0, hhigh0⟩).trans (hram.trans htram),
    (hpc ⟨hlow1, hhigh1⟩).trans (hra.trans htra), hhcr ⟨⟨hlow1, hhigh1⟩, hlow0, hhigh0⟩⟩

end Sys2Proof.Machine
end

section
/-! PROOFS. The statements of 46_supervisor.md: the invalid opcodes and the supervisor call. The namespace is the
family's own, since the statement of the call has the name of the model's function. -/
namespace Sys2Proof.Supervisor
open Sys2Proof.Config Sys2Proof.Machine

/-! ### Invalid opcodes (R312) -/

theorem invalidOpcode_eq (cls : BitVec 7) (s : State) : invalidOpcode cls s =
    { s with hcr := s.hcr ||| 0x0002, cost := s.params.cycBase[cls.toNat]'cls.isLt + s.stall, stall := 0 } := rfl

/-- Settles O42: the reserved classes share the invalid-opcode function, each at its own class. -/
theorem invalidOpcodeResult : Obligations.InvalidOpcodeResult :=
  fun s => ⟨congrArg Host.Outcome.next (invalidOpcode_eq 0x3B#7 s),
    fun low => congrArg Host.Outcome.next (invalidOpcode_eq (0xF#5 ++ low) s),
    fun low => congrArg Host.Outcome.next (invalidOpcode_eq (1#1 ++ low) s)⟩

/-! ### The parameters of a call (R310, R311) -/

/-- The state before an operand is what the operand before it left. -/
theorem resolveAll_take_succ (ops : List Operand) (s : State) {i : Nat} (h : i < ops.length) :
    (resolveAll (ops.take (i + 1)) s).2 = (resolve ops[i] false (resolveAll (ops.take i) s).2).after := by
  rw [List.take_succ_eq_append_getElem h, resolveAll_snoc]

/-- A call has no shape exactly when no operation has its selector and its count (R350). -/
theorem callShape_eq_none {k : Dispatcher} {selector : Word} {rest : List Word} :
    callShape k (selector :: rest) = none ↔ ∀ op, k.op selector = some op → op.count ≠ rest.length + 1 := by
  rw [Option.eq_none_iff_forall_ne_some]
  simp only [ne_eq, callShape_eq_some]
  exact ⟨fun h op hop hcount => h op.shape ⟨op, hop, hcount, rfl⟩,
    fun h _ ⟨op, hop, hcount, _⟩ => h op hop hcount⟩

/-! ### What a kernel call leaves unchanged (R350) -/

/-- HCR apart, the state after a kernel call is one that an agent may leave, with data RAM unchanged outside the
data-memory window. -/
theorem kernelCall_after (s : State) (k : Dispatcher) (params : List Word) :
    ∃ (v : State) (hcr : Word), AgentOnly s v ∧ (∀ a, 0xFC00 ≤ a → v.ramAt a = s.ramAt a) ∧
      (s.kernelCall k params).after = { v with hcr := hcr } := by
  have htick := AgentOnly.nextTick s
  rcases kernelCall_cases s k params with ⟨-, h⟩ | ⟨n, a, -, -, h⟩ | ⟨a, -, -, h⟩ | ⟨a, -, -, -, -, h⟩ |
    ⟨a, -, -, -, h⟩ <;> rw [h]
  · exact ⟨s, _, .refl s, fun _ _ => rfl, rfl⟩
  · exact ⟨_, _, htick.trans (kernelEffects_only _ a.effects), kernelEffects_ram _ a.effects, rfl⟩
  · exact ⟨_, _, htick.trans (kernelEffects_only _ a.effects), kernelEffects_ram _ a.effects, rfl⟩
  · exact ⟨_, _, htick.trans (.allocate _ a.slot params a.kernel), fun _ _ => rfl, rfl⟩
  · exact ⟨_, _, htick, fun _ _ => rfl, rfl⟩

/-- The end of a supervisor call changes general registers, pc, the cost and STALL (R311). -/
theorem kernelReturn_fields (pc0 : Word) (size : Nat) (o : KernelOutcome) :
    kernelReturn pc0 size o = { o.after with
      gpr := (kernelReturn pc0 size o).gpr
      pc := pc0 + BitVec.ofNat 16 size
      cost := o.cycles + o.after.stall
      stall := 0 } := by
  unfold kernelReturn
  split <;> rfl

section Return
variable (pc0 : Word) (size : Nat) (o : KernelOutcome)

@[simp] theorem kernelReturn_pc : (kernelReturn pc0 size o).pc = pc0 + BitVec.ofNat 16 size := by
  rw [kernelReturn_fields]
@[simp] theorem kernelReturn_xb : (kernelReturn pc0 size o).xb = o.after.xb := by rw [kernelReturn_fields]
@[simp] theorem kernelReturn_hcr : (kernelReturn pc0 size o).hcr = o.after.hcr := by rw [kernelReturn_fields]
@[simp] theorem kernelReturn_ram : (kernelReturn pc0 size o).ram = o.after.ram := by rw [kernelReturn_fields]
@[simp] theorem kernelReturn_cells : (kernelReturn pc0 size o).cells = o.after.cells := by rw [kernelReturn_fields]
@[simp] theorem kernelReturn_laneA : (kernelReturn pc0 size o).laneA = o.after.laneA := by rw [kernelReturn_fields]
@[simp] theorem kernelReturn_laneB : (kernelReturn pc0 size o).laneB = o.after.laneB := by rw [kernelReturn_fields]
@[simp] theorem kernelReturn_pmem : (kernelReturn pc0 size o).pmem = o.after.pmem := by rw [kernelReturn_fields]
@[simp] theorem kernelReturn_slots : (kernelReturn pc0 size o).slots = o.after.slots := by rw [kernelReturn_fields]
@[simp] theorem kernelReturn_kernel : (kernelReturn pc0 size o).kernel = o.after.kernel := by rw [kernelReturn_fields]

end Return

/-- Two states with one data RAM read every word of it alike. -/
theorem ramAt_congr {s t : State} (h : t.ram = s.ram) (a : Word) : t.ramAt a = s.ramAt a :=
  congrArg (fun m : Memory => m.read a.toNat) h

/-- What every supervisor call has in common beyond what most instructions keep: `u` is the state after the
parameters are resolved. -/
structure CallFrame (s u t : State) (size : Nat) : Prop where
  pc : t.pc = s.pc + BitVec.ofNat 16 size
  xb : t.xb = u.xb
  pmem : t.pmem = s.pmem
  ram : ∀ a, 0xFC00 ≤ a → t.ramAt a = s.ramAt a
  laneA : t.laneA = { s.laneA with latch := t.laneA.latch }
  laneB : t.laneB = { s.laneB with latch := t.laneB.latch }

theorem supervisorCall_frame (k : Dispatcher) (ea : Operand) (ps : List Operand) (s : State) :
    CallFrame s (resolveAll (ea :: ps) s).2 (supervisorCall k ea ps s) (1 + ea.words + paramsWords ps) := by
  have hreads := resolveAll_reads (ea :: ps) s
  obtain ⟨v, hcr, hagent, hram, hafter⟩ :=
    kernelCall_after (resolveAll (ea :: ps) s).2 k (resolveAll (ea :: ps) s).1
  exact {
    pc := kernelReturn_pc _ _ _
    xb := by rw [supervisorCall, kernelReturn_xb, hafter, hagent.xb]
    pmem := by rw [supervisorCall, kernelReturn_pmem, hafter, hagent.pmem, hreads.pmem]
    ram := fun a ha => by
      rw [← ramAt_congr hreads.ram, ← hram a ha, supervisorCall]
      exact ramAt_congr (by rw [kernelReturn_ram, hafter]) a
    laneA := by rw [supervisorCall, kernelReturn_laneA, hafter, ← hreads.laneA, ← hagent.laneA]
    laneB := by rw [supervisorCall, kernelReturn_laneB, hafter, ← hreads.laneB, ← hagent.laneB] }

/-! ### What a supervisor call comes to (R311, R350) -/

/-- INVKC is raised at no cost, and from `u`, the state after the parameters are resolved, nothing else is changed
that a valid call may change. -/
def TurnedAway (s u t : State) : Prop :=
  t.cost = s.stall ∧ t.hcr = u.hcr ||| 0x0004 ∧ t.gpr = u.gpr ∧ t.slots = s.slots ∧ t.kernel = s.kernel ∧
    (∀ a, t.ramAt a = s.ramAt a) ∧ t.cells = s.cells ∧ t.laneA = s.laneA ∧ t.laneB = s.laneB ∧ t.ext = u.ext

/-- The call cost `cycles` with the stall counter, and wrote its results to A and C and to no other register. -/
def Answered (s u t : State) (cycles : Nat) (hi lo : Word) : Prop :=
  t.cost = cycles + s.stall ∧ t.reg .a = lo ∧ t.reg .c = hi ∧ ∀ q, q ≠ .a → q ≠ .c → t.reg q = u.reg q

/-- An invalid call is turned away, whatever the counter of free values. -/
theorem turnedAway_invalidCall {s u : State} (h : Reads s u) (pc0 : Word) (size tick : Nat) :
    TurnedAway s u (kernelReturn pc0 size { u with tick := tick }.invalidCall) :=
  ⟨(Nat.zero_add _).trans h.stall, rfl, rfl, h.slots, h.kernel,
    ramAt_congr h.ram, h.cells, h.laneA, h.laneB, rfl⟩

/-- A kernel call with a result is answered: A is written first, then C, from the registers the parameters left. -/
theorem answered_kernelReturn {s u v : State} (hstall : v.stall = s.stall) (hgpr : v.gpr = u.gpr) (pc0 : Word)
    (size cycles : Nat) (hi lo : Word) :
    Answered s u (kernelReturn pc0 size { cycles := cycles, result := some (hi, lo), after := v }) cycles hi lo := by
  refine ⟨congrArg (cycles + ·) hstall, ?_, State.reg_setReg_same _ .c hi, fun q ha hc => ?_⟩
  · exact (State.reg_setReg_other _ .c .a hi (by decide)).trans (State.reg_setReg_same v .a lo)
  · calc ((v.setReg .a lo).setReg .c hi).reg q
      _ = (v.setReg .a lo).reg q := State.reg_setReg_other _ .c q hi hc
      _ = v.reg q := State.reg_setReg_other v .a q lo ha
      _ = u.reg q := State.reg_congr u v hgpr q

/-- A call that raises CALLBACK is answered like any other. -/
theorem answered_raise {s u v : State} (hagent : AgentOnly u v) (hstall : u.stall = s.stall) (pc0 : Word)
    (size cycles : Nat) (hi lo : Word) :
    Answered s u (kernelReturn pc0 size
      { cycles := cycles, result := some (hi, lo), after := v.raise .callback }) cycles hi lo :=
  answered_kernelReturn (v := v.raise .callback) (hagent.stall.trans hstall) hagent.gpr pc0 size cycles hi lo

theorem kernelReturn_raise_hcr {u v : State} (hagent : AgentOnly u v) (pc0 : Word) (size cycles : Nat)
    (result : Option (Word × Word)) :
    (kernelReturn pc0 size { cycles := cycles, result := result, after := v.raise .callback }).hcr =
      u.hcr ||| 0x0200 := by
  rw [kernelReturn_hcr, State.raise_hcr, hagent.hcr]
  rfl

section Outcome
variable {s u : State} {k : Dispatcher} {params : List Word}

/-- An unknown selector or a wrong count. -/
theorem kernelReturn_unknown (hreads : Reads s u) (h : callShape k params = none) (pc0 : Word) (size : Nat) :
    TurnedAway s u (kernelReturn pc0 size (u.kernelCall k params)) := by
  rw [State.kernelCall, h]
  exact turnedAway_invalidCall hreads pc0 size u.tick

theorem kernelReturn_immediate {cycles : Nat} (hreads : Reads s u)
    (h : callShape k params = some (.immediate cycles)) (pc0 : Word) (size : Nat) :
    let a := k.immediate params u.kernelView
    let t := kernelReturn pc0 size (u.kernelCall k params)
    Answered s u t cycles a.hi a.lo ∧ t.hcr = u.hcr ∧ t.kernel = a.effects.kernel := by
  intro a
  have hagent := (AgentOnly.nextTick u).trans (kernelEffects_only _ a.effects)
  have hcall : u.kernelCall k params =
      { cycles := cycles, result := some (a.hi, a.lo), after := u.nextTick.kernelEffects a.effects } := by
    rw [State.kernelCall, h]
  rw [hcall]
  exact ⟨answered_kernelReturn (hagent.stall.trans hreads.stall) hagent.gpr ..,
    (kernelReturn_hcr ..).trans hagent.hcr, kernelReturn_kernel ..⟩

theorem kernelReturn_callback (hreads : Reads s u) (h : callShape k params = some .callback) (pc0 : Word)
    (size : Nat) :
    let a := k.callback params u.kernelView
    let t := kernelReturn pc0 size (u.kernelCall k params)
    Answered s u t a.result.cycles a.result.hi a.result.lo ∧ t.hcr = u.hcr ||| 0x0200 ∧
      t.kernel = a.effects.kernel := by
  intro a
  have hagent := (AgentOnly.nextTick u).trans (kernelEffects_only _ a.effects)
  have hcall : u.kernelCall k params =
      { cycles := a.result.cycles, result := some (a.result.hi, a.result.lo),
        after := (u.nextTick.kernelEffects a.effects).raise .callback } := by
    rw [State.kernelCall, h]
  rw [hcall]
  exact ⟨answered_raise hagent hreads.stall .., kernelReturn_raise_hcr hagent .., kernelReturn_kernel ..⟩

/-- A task call that finds its slot empty and its pointers valid queues the slot and touches no memory and no lane. -/
theorem kernelReturn_task_queued (hreads : Reads s u) (h : callShape k params = some .task) (pc0 : Word)
    (size : Nat) :
    let a := k.task params u.kernelView
    s.slots[a.slot].status = .empty ∧ taskValid params = true →
    let t := kernelReturn pc0 size (u.kernelCall k params)
    Answered s u t a.result.cycles a.result.hi a.result.lo ∧ t.hcr = u.hcr ||| 0x0200 ∧ t.kernel = a.kernel ∧
      t.slots = s.slots.set a.slot { status := .queued, dispatched := false, params := params } ∧
      (∀ b, t.ramAt b = s.ramAt b) ∧ t.cells = s.cells ∧ t.laneA = s.laneA ∧ t.laneB = s.laneB := by
  intro a htask
  rw [← hreads.slots] at htask ⊢
  have hagent := (AgentOnly.nextTick u).trans (.allocate _ a.slot params a.kernel)
  have hcall : u.kernelCall k params =
      { cycles := a.result.cycles, result := some (a.result.hi, a.result.lo),
        after := (u.nextTick.allocate a.slot params a.kernel).raise .callback } := by
    rw [State.kernelCall, h]
    exact if_pos htask
  rw [hcall]
  refine ⟨answered_raise hagent hreads.stall .., kernelReturn_raise_hcr hagent .., kernelReturn_kernel ..,
    kernelReturn_slots .., ramAt_congr ?_, ?_, ?_, ?_⟩
  · simp [hreads.ram]
  · simp [hreads.cells]
  · simp [hreads.laneA]
  · simp [hreads.laneB]

theorem kernelReturn_task_turnedAway (hreads : Reads s u) (h : callShape k params = some .task) (pc0 : Word)
    (size : Nat) :
    ¬(s.slots[(k.task params u.kernelView).slot].status = .empty ∧ taskValid params = true) →
    TurnedAway s u (kernelReturn pc0 size (u.kernelCall k params)) := by
  intro htask
  rw [← hreads.slots] at htask
  have hcall : u.kernelCall k params = u.nextTick.invalidCall := by
    rw [State.kernelCall, h]
    exact if_neg htask
  rw [hcall]
  exact turnedAway_invalidCall hreads pc0 size (u.tick + 1)

end Outcome

/-- Settles O41: the selector's operation and its count decide the call's shape, and the shape what the call comes
to. -/
theorem supervisorCall : Obligations.SupervisorCall := by
  intro ea ps s
  refine ⟨rfl, ⟨rfl, fun i h => ⟨resolveAll_value _ s i h, resolveAll_take_succ _ s h⟩⟩, fun k => ?_⟩
  intro p u t turnedAway answered valid
  have hreads := resolveAll_reads (ea :: ps) s
  have hplain := supervisorCall_plain k ea ps s
  have hframe := supervisorCall_frame k ea ps s
  have hlength : (resolveAll ps (resolve ea false s).after).1.length = ps.length := resolveAll_length ps _
  refine ⟨resolveAll_length (ea :: ps) s, hframe.pc, hplain.stall, hplain.sp, hplain.bp, hplain.xm, hframe.xb,
    hframe.pmem, hplain.fixed, hframe.ram, hframe.laneA, hframe.laneB, ?_⟩
  cases hop : k.op (resolve ea false s).value with
  | none => exact kernelReturn_unknown hreads (callShape_eq_none.2 fun op h => by rw [hop] at h; cases h) _ _
  | some op =>
    refine ⟨fun hcount => kernelReturn_unknown hreads (callShape_eq_none.2 fun op' h => ?_) _ _, fun hcount => ?_⟩
    · rw [hop] at h
      cases h
      rwa [hlength]
    · have hshape : callShape k p.1 = some op.shape :=
        callShape_eq_some.2 ⟨op, hop, by rw [hlength, hcount], rfl⟩
      cases hs : op.shape <;> rw [hs] at hshape
      case immediate cycles => exact kernelReturn_immediate hreads hshape _ _
      case callback => exact kernelReturn_callback hreads hshape _ _
      case task =>
        dsimp only
        rw [show valid ↔ taskValid p.1 = true from (taskValid_iff p.1).symm]
        exact ⟨kernelReturn_task_queued hreads hshape _ _, kernelReturn_task_turnedAway hreads hshape _ _⟩

end Sys2Proof.Supervisor
end

section
/-! PROOFS. The statements of 60_exceptions.md: the entry of `run`, when a burst goes on and ends, the breakpoint
check, the timers in closed form, the drain of a lane, and what the scheduler does to each slot. -/
namespace Sys2Proof.Machine
open Sys2Proof.Config

/-! ### The entry of `run` (R331, R332) -/

theorem hostTurn_run {s : State} {mode : RunMode} {rest : List HostCall} (h : s.host = .run mode :: rest) :
    s.hostTurn = ({ s with host := rest } : State).beginRun mode := by
  simp only [State.hostTurn, h, State.hostCall]

theorem beginRun_of_blocked {s : State} (h : s.hcr &&& 0x007F ≠ 0) (mode : RunMode) :
    s.beginRun mode = { s with reply := .cycles 0 } := if_pos (decide_eq_true h)

theorem beginRun_of_clear {s : State} (h : s.hcr &&& 0x007F = 0) (mode : RunMode) :
    s.beginRun mode = ({ s with hcr := 0, started := true } : State).startPass
      { mode := mode, first := true, budget := 0, used := 0, total := 0 } :=
  if_neg fun hb => of_decide_eq_true (p := s.hcr &&& 0x007F ≠ 0) hb h

/-- Settles O47: step 0 of `run`, by whether a blocking cause is set. -/
theorem runEntry : Obligations.RunEntry := by
  intro s mode rest hcall hhost
  rw [step_of_idle hcall, hostTurn_run hhost]
  refine ⟨fun hset => congrArg Host.Outcome.next ?_, fun hclear => congrArg Host.Outcome.next ?_⟩
  · exact beginRun_of_blocked (s := { s with host := rest }) hset mode
  · exact beginRun_of_clear (s := { s with host := rest }) hclear mode

/-! ### The end of a burst (R330, R336) -/

theorem afterInstr_continues {t : State} {c : RunCall} (hquiet : t.hcr = 0) (hmode : c.mode ≠ .single)
    (hbudget : c.used + t.cost < c.budget) :
    t.afterInstr c = { t with call := some { c with used := c.used + t.cost, first := false } } :=
  if_neg (by
    rintro (hset | hsingle | hused)
    · exact hset hquiet
    · exact hmode hsingle
    · exact Nat.not_le_of_lt hbudget hused)

theorem afterInstr_ends {t : State} {c : RunCall} (h : t.hcr ≠ 0 ∨ c.mode = .single ∨ c.budget ≤ c.used + t.cost) :
    t.afterInstr c = t.endOfBurst { c with used := c.used + t.cost, first := false } := if_pos h

/-- Settles O48: after the instruction the burst goes on, or its pass is finished by `endOfBurst`. -/
theorem burstRules : Obligations.BurstRules := by
  intro s t c i rest hcall hbreak hfetch hexec
  have hstep : step s = .next (t.afterInstr c) := step_of_exec hcall hbreak hfetch hexec
  refine ⟨fun ⟨hquiet, hmode, hbudget⟩ => ?_, fun hend => ?_, hkSurcharge_spec t⟩
  · rw [hstep, afterInstr_continues hquiet hmode hbudget]
  · rw [afterInstr_ends hend] at hstep
    have hp := endOfBurst_passes t { c with used := c.used + t.cost, first := false }
    exact ⟨_, hstep, endOfBurst_passResult t c _, hp.pc, hp.gpr, hp.xm, hp.xb, hp.sp, hp.bp, hp.grows,
      endOfBurst_ends t { c with used := c.used + t.cost, first := false }⟩

/-! ### The breakpoint check (R48, R337) -/

theorem breakHit_iff (s : State) (c : RunCall) : s.breakHit c = true ↔
    c.mode = .breakChecked ∧ c.first = false ∧ sparseGet false s.bpmap s.pc.toNat = true := by
  unfold State.breakHit
  rw [Bool.and_eq_true, Bool.and_eq_true, decide_eq_true_eq, Bool.not_eq_true', and_assoc]

theorem raise_sets (s : State) (k : HaltCause) : (s.raise k).hcr &&& k.mask = k.mask := by
  show (s.hcr ||| k.mask) &&& k.mask = k.mask
  rw [BitVec.or_comm, BitVec.and_comm, and_or_same]

/-- A cause that is set stays set while HCR only gains bits. -/
theorem Grows.keeps {s t : State} (h : Grows s t) {k : Word} (hk : s.hcr &&& k = k) : t.hcr &&& k = k :=
  calc t.hcr &&& k = s.hcr &&& t.hcr &&& k := by rw [BitVec.and_comm s.hcr, BitVec.and_assoc, hk]
    _ = s.hcr &&& k := by rw [show s.hcr &&& t.hcr = s.hcr from h]
    _ = k := hk

theorem setBreakBit_get (s : State) (a b : Word) (on : Bool) :
    sparseGet false (s.setBreakBit a on).bpmap b.toNat = if b = a then on else sparseGet false s.bpmap b.toNat := by
  show sparseGet false (sparseSet false s.bpmap a.toNat on) b.toNat = _
  rw [sparseGet_set]
  exact if_congr (BitVec.toNat_inj.trans eq_comm) rfl rfl

/-- Settles O49: BREAK is a cause, so the burst ends before the instruction, the scheduler is not reached and the
call returns. -/
theorem breakpointStops : Obligations.BreakpointStops := by
  refine ⟨fun s c hcall hmode hfirst hbit => ?_, breakHit_iff, setBreakBit_get⟩
  have hbrk : (s.raise .brk).hcr &&& 0x0080 = 0x0080 := raise_sets s .brk
  have hset : (s.raise .brk).hcr ≠ 0 := fun h => absurd (h ▸ hbrk) (by decide)
  have hp := endOfBurst_passes (s.raise .brk) c
  have hcall' : ({ c with used := c.used, first := false } : RunCall) = c := by rw [← hfirst]
  have hresult := endOfBurst_passResult (s.raise .brk) c c.used
  rw [hcall'] at hresult
  refine ⟨_, step_of_breakHit hcall ((breakHit_iff s c).2 ⟨hmode, hfirst, hbit⟩), hresult,
    endOfBurst_ends _ c (.inl hset), hp.pc, hp.gpr, hp.xm, hp.xb, hp.sp, hp.bp, fun a => ?_, hp.grows.keeps hbrk⟩
  exact congrArg (·.read a.toNat) (endOfBurst_halted _ c hset).1

/-! ### The timers in closed form (R342, R343) -/

/-- HCR with the cause `k` raised once a count has reached `w`. -/
def raisedAt (h k : Word) (w count : Nat) : Word := if w ≤ count then h ||| k else h

theorem raisedAt_of_le {w count : Nat} (hc : w ≤ count) (h k : Word) : raisedAt h k w count = h ||| k := if_pos hc

theorem raisedAt_of_lt {w count : Nat} (hc : count < w) (h k : Word) : raisedAt h k w count = h :=
  if_neg (Nat.not_le_of_lt hc)

/-- Counting `m` and then `n` steps of a counter that wraps at `w` raises its cause just as counting them all does. -/
theorem raisedAt_add (h k : Word) (w a m n : Nat) :
    raisedAt (raisedAt h k w (a + m)) k w ((a + m) % w + n) = raisedAt h k w (a + (m + n)) := by
  rcases Nat.lt_or_ge (a + m) w with hm | hm
  · rw [raisedAt_of_lt hm, Nat.mod_eq_of_lt hm, Nat.add_assoc]
  · rw [raisedAt_of_le hm, raisedAt_of_le (by omega) h, raisedAt, word_or_self, ite_self]

theorem wrapped_add (w a m n : Nat) : ((a + m) % w + n) % w = (a + (m + n)) % w := by
  rw [Nat.mod_add_mod, Nat.add_assoc]

/-- `n` audio samples at once. -/
def State.samples (s : State) (n : Nat) : State := { s with
  timers := { s.timers with acyc := s.timers.acyc - n * s.params.cyclesPerSample, asmp := (s.timers.asmp + n) % 512 },
  hcr := raisedAt s.hcr 0x0040 512 (s.timers.asmp + n) }

/-- `n` display lines at once. -/
def State.lines (s : State) (n : Nat) : State := { s with
  timers := { s.timers with lcyc := s.timers.lcyc - n * s.params.cyclesPerLine,
                            line := (s.timers.line + n) % s.params.linesPerFrame },
  hcr := raisedAt s.hcr 0x0100 s.params.linesPerFrame (s.timers.line + n),
  lineCalls := s.lineCalls + n }

theorem samples_zero {s : State} (h : s.timers.asmp < 512) : s.samples 0 = s := by
  simp only [State.samples, Nat.add_zero, raisedAt_of_lt h, Nat.mod_eq_of_lt h, Nat.zero_mul, Nat.sub_zero]

theorem lines_zero {s : State} (h : s.timers.line < s.params.linesPerFrame) : s.lines 0 = s := by
  simp only [State.lines, Nat.add_zero, raisedAt_of_lt h, Nat.mod_eq_of_lt h, Nat.zero_mul, Nat.sub_zero]

theorem samples_add (s : State) (m n : Nat) : (s.samples m).samples n = s.samples (m + n) := by
  simp only [State.samples, raisedAt_add, wrapped_add, Nat.sub_sub, Nat.add_mul]

theorem lines_add (s : State) (m n : Nat) : (s.lines m).lines n = s.lines (m + n) := by
  simp only [State.lines, raisedAt_add, wrapped_add, Nat.sub_sub, Nat.add_mul, Nat.add_assoc]

/-- One sample is the counter's step, with its wrap at 512. -/
theorem audioSample_eq {s : State} (h : s.timers.asmp < 512) : s.audioSample = s.samples 1 := by
  unfold State.audioSample State.samples
  dsimp only
  split
  · rename_i hwrap
    rw [hwrap, raisedAt_of_le (Nat.le_refl _), Nat.one_mul]
    rfl
  · rw [raisedAt_of_lt (by omega), Nat.mod_eq_of_lt (by omega), Nat.one_mul]

/-- One line is the counter's step, with its wrap at the frame's last line. -/
theorem videoLine_eq {s : State} (h : s.timers.line < s.params.linesPerFrame) : s.videoLine = s.lines 1 := by
  unfold State.videoLine State.lines
  dsimp only
  split
  · rename_i hwrap
    rw [hwrap, raisedAt_of_le (Nat.le_refl _), Nat.one_mul, Nat.mod_self]
    rfl
  · rw [raisedAt_of_lt (by omega), Nat.mod_eq_of_lt (by omega), Nat.one_mul]

/-- The loop counts the whole samples that ACYC holds. -/
theorem audioLoop_eq (n : Nat) (s : State) (hn : s.timers.acyc ≤ n) (h : s.timers.asmp < 512) :
    s.audioLoop n = s.samples (s.timers.acyc / s.params.cyclesPerSample) := by
  have hp := s.params.cyclesPerSample.pos
  induction n generalizing s with
  | zero => rw [Nat.le_zero.1 hn, Nat.zero_div, samples_zero h, State.audioLoop]
  | succ n ih =>
    rw [State.audioLoop]
    split
    · rename_i hle
      obtain ⟨hacyc, hasmp, -, -, hparams⟩ := audioSample_timers s h
      rw [ih _ (by omega) hasmp (by rw [hparams]; exact hp), hacyc, hparams, audioSample_eq h, samples_add,
        Nat.add_comm, ← Nat.div_eq_sub_div hp hle]
    · rw [Nat.div_eq_of_lt (Nat.lt_of_not_le ‹_›), samples_zero h]

/-- The loop counts the whole lines that LCYC holds. -/
theorem videoLoop_eq (n : Nat) (s : State) (hn : s.timers.lcyc ≤ n) (h : s.timers.line < s.params.linesPerFrame) :
    s.videoLoop n = s.lines (s.timers.lcyc / s.params.cyclesPerLine) := by
  have hp := s.params.cyclesPerLine.pos
  induction n generalizing s with
  | zero => rw [Nat.le_zero.1 hn, Nat.zero_div, lines_zero h, State.videoLoop]
  | succ n ih =>
    rw [State.videoLoop]
    split
    · rename_i hle
      obtain ⟨hlcyc, hline, -, -, hparams⟩ := videoLine_timers s h
      rw [ih _ (by omega) (by rw [hparams]; exact hline) (by rw [hparams]; exact hp), hlcyc, hparams,
        videoLine_eq h, lines_add, Nat.add_comm, ← Nat.div_eq_sub_div hp hle]
    · rw [Nat.div_eq_of_lt (Nat.lt_of_not_le ‹_›), lines_zero h]

/-- Settles O50: each loop counts the whole periods in its cycles and leaves the remainder. -/
theorem timerTicks : Obligations.TimerTicks := by
  intro s u hasmp hline
  dsimp only
  rw [Nat.mod_eq_sub_div_mul, Nat.mod_eq_sub_div_mul (k := s.params.cyclesPerLine)]
  exact ⟨audioLoop_eq (s.timers.acyc + u) { s with timers := { s.timers with acyc := s.timers.acyc + u } }
      (Nat.le_refl _) hasmp,
    videoLoop_eq (s.timers.lcyc + u) { s with timers := { s.timers with lcyc := s.timers.lcyc + u } }
      (Nat.le_refl _) hline⟩

/-! ### The drain of a lane (R346) -/

/-- A coprocessor write leaves the ring alone. -/
theorem State.copWrite_ring (s : State) (l : LaneId) (w : BitVec 32) :
    ((s.copWrite l w).lane l).ring = (s.lane l).ring := by
  by_cases h : copIndex s.params w = s.params.copTrigger
  · rw [State.copWrite_trigger h]
    cases l <;> rfl
  · rw [State.copWrite_plain h, State.lane_setLane_same]

theorem drainLoop_busy {s : State} {l : LaneId} {avail : Nat} (h : avail < (s.lane l).busy) (ring : List (BitVec 32)) :
    s.drainLoop l ring avail = s.setLane l { s.lane l with busy := (s.lane l).busy - avail } := by
  cases ring with
  | nil => rw [State.drainLoop]
  | cons w rest => rw [State.drainLoop, if_pos h]

theorem drainLoop_nil {s : State} {l : LaneId} {avail : Nat} (h : (s.lane l).busy ≤ avail) :
    s.drainLoop l [] avail = s.setLane l { s.lane l with busy := 0 } := by
  rw [State.drainLoop, Nat.sub_eq_zero_of_le h]

theorem drainLoop_cons {s : State} {l : LaneId} {avail : Nat} (h : (s.lane l).busy ≤ avail) (w : BitVec 32)
    (rest : List (BitVec 32)) : s.drainLoop l (w :: rest) avail =
      ((s.setLane l { s.lane l with busy := 0, ring := rest }).copWrite l w).drainLoop l rest
        (avail - (s.lane l).busy) := by
  rw [State.drainLoop, if_neg (Nat.not_lt_of_le h)]

/-- Settles O51: the loop runs on the lane's own ring, which a turn of the loop leaves as the words still to go. -/
theorem drainRule : Obligations.DrainRule := by
  intro s l avail
  refine ⟨fun hbusy => drainLoop_busy hbusy _, fun hbusy hring => ?_, fun w rest hbusy hring => ?_⟩
  · exact (congrArg (s.drainLoop l · avail) hring).trans (drainLoop_nil hbusy)
  · unfold State.drain
    rw [State.copWrite_ring, State.lane_setLane_same]
    exact (congrArg (s.drainLoop l · avail) hring).trans (drainLoop_cons hbusy w rest)

/-! ### The scheduler, slot by slot (R351, R352, R353) -/

theorem taskMayWrite_iff (params : List Word) (a : Word) : taskMayWrite params a = true ↔
    ∃ g ∈ taskRanges params, (g.1 < 0xFC00 ∧ g.1 + g.2 ≤ 0xFC00) ∧ g.1 ≤ a.toNat ∧ a.toNat < g.1 + g.2 := by
  simp only [taskMayWrite, List.any_eq_true, Bool.and_eq_true, decide_eq_true_eq, pointerValid_iff, and_assoc]

/-- What the scheduler may make of the slot `x`: one that is not queued stays; a queued one keeps its record, and stays
queued or runs with valid pointers. -/
structure SlotKept (x y : TaskSlot) : Prop where
  stays : x.status ≠ .queued → y = x
  params : y.params = x.params
  status : x.status = .queued → y.status = .queued ∨ y.status = .running ∧ taskValid x.params = true

theorem SlotKept.refl (x : TaskSlot) : SlotKept x x := ⟨fun _ => rfl, rfl, .inl⟩

theorem SlotKept.trans {x y z : TaskSlot} (h : SlotKept x y) (k : SlotKept y z) : SlotKept x z := by
  refine ⟨fun hx => ?_, k.params.trans h.params, fun hx => ?_⟩
  · have hyx := h.stays hx
    exact (k.stays (hyx ▸ hx)).trans hyx
  · rcases h.status hx with hy | ⟨hy, hv⟩
    · exact h.params ▸ k.status hy
    · rw [k.stays (by rw [hy]; nofun)]
      exact .inr ⟨hy, hv⟩

/-- A slot that is queued now was queued before. -/
theorem SlotKept.queued {x y : TaskSlot} (h : SlotKept x y) (hy : y.status = .queued) : x.status = .queued := by
  by_contra hx
  exact hx (h.stays hx ▸ hy)

/-- What the scheduler may do to the slots, HCR and data RAM, whichever slots it went over. -/
structure Scheduled (s t : State) : Prop where
  slots : ∀ i : Fin 16, SlotKept s.slots[i] t.slots[i]
  hcr : t.hcr = s.hcr ∨ t.hcr = s.hcr ||| 0x0010
  quiet : (∀ i : Fin 16, s.slots[i].status = .queued → taskValid s.slots[i].params = true) → t.hcr = s.hcr
  ram : ∀ a, t.ramAt a ≠ s.ramAt a →
    ∃ i : Fin 16, s.slots[i].status = .queued ∧ taskMayWrite s.slots[i].params a = true

theorem Scheduled.refl (s : State) : Scheduled s s :=
  ⟨fun _ => .refl _, .inl rfl, fun _ => rfl, fun _ h => absurd rfl h⟩

theorem Scheduled.trans {s t u : State} (h : Scheduled s t) (k : Scheduled t u) : Scheduled s u where
  slots i := (h.slots i).trans (k.slots i)
  hcr := by
    rcases h.hcr with ht | ht <;> rcases k.hcr with hu | hu <;> rw [hu, ht]
    · exact .inl rfl
    · exact .inr rfl
    · exact .inr rfl
    · exact .inr (word_or_self _ _)
  quiet hvalid :=
    (k.quiet fun i hi => (h.slots i).params ▸ hvalid i ((h.slots i).queued hi)).trans (h.quiet hvalid)
  ram a hne := by
    by_cases hst : t.ramAt a = s.ramAt a
    · obtain ⟨i, hi, hw⟩ := k.ram a (hst ▸ hne)
      exact ⟨i, (h.slots i).queued hi, (h.slots i).params ▸ hw⟩
    · exact h.ram a hst

/-- One slot replaced by what the scheduler may make of it. -/
theorem slotKept_set (v : Vector TaskSlot 16) (i j : Fin 16) {x : TaskSlot} (h : SlotKept v[i] x) :
    SlotKept v[j] (v.set i x)[j] := by
  rw [slots_getElem_set]
  split
  · subst j
    exact h
  · exact .refl _

theorem schedSlot_scheduled (s : State) (i : Fin 16) : Scheduled s (s.schedSlot i) := by
  rcases schedSlot_cases s i with e | ⟨hq, hv, e⟩ | ⟨hq, hv, ram, e, hram⟩ <;> rw [e]
  · exact .refl s
  · have hslot : SlotKept s.slots[i] { s.slots[i] with dispatched := true } := ⟨fun h => absurd hq h, rfl, .inl⟩
    refine ⟨fun j => slotKept_set _ i j hslot, .inr rfl, fun hvalid => ?_, fun _ hne => absurd rfl hne⟩
    exact absurd (hv.symm.trans (hvalid i hq)) (by decide)
  · have hslot : SlotKept s.slots[i] { status := .running, dispatched := true, params := s.slots[i].params } :=
      ⟨fun h => absurd hq h, rfl, fun _ => .inr ⟨rfl, hv⟩⟩
    refine ⟨fun j => slotKept_set _ i j hslot, .inl rfl, fun _ => rfl, fun a hne => ⟨i, hq, ?_⟩⟩
    by_contra hw
    exact hne (hram a (Bool.eq_false_iff.2 hw))

theorem foldl_schedSlot_scheduled (l : List (Fin 16)) (s : State) : Scheduled s (l.foldl State.schedSlot s) := by
  induction l generalizing s with
  | nil => exact .refl s
  | cons i l ih => exact (schedSlot_scheduled s i).trans (ih _)

/-- At one slot the scheduler leaves the others alone. -/
theorem schedSlot_other (s : State) {i j : Fin 16} (h : j ≠ i) : (s.schedSlot j).slots[i] = s.slots[i] := by
  rcases schedSlot_cases s j with e | ⟨_, _, e⟩ | ⟨_, _, _, e, _⟩ <;> rw [e]
  · exact (slots_getElem_set _ _ _ _).trans (if_neg h)
  · exact (slots_getElem_set _ _ _ _).trans (if_neg h)

theorem foldl_schedSlot_other {l : List (Fin 16)} {i : Fin 16} (h : i ∉ l) (s : State) :
    (l.foldl State.schedSlot s).slots[i] = s.slots[i] := by
  induction l generalizing s with
  | nil => rfl
  | cons j l ih =>
    exact (ih (List.not_mem_of_not_mem_cons h) _).trans (schedSlot_other s (List.ne_of_not_mem_cons h).symm)

theorem taskSched_eq_foldl (s : State) : s.taskSched = (List.finRange 16).foldl State.schedSlot s := rfl

/-- The turn of slot `i` among the others: they leave it alone before and after it, so the scheduler finds it as it was
and leaves it as its own turn does. -/
theorem taskSched_turn (s : State) (i : Fin 16) : ∃ t, Scheduled s t ∧ t.slots[i] = s.slots[i] ∧
    Scheduled (t.schedSlot i) s.taskSched ∧ s.taskSched.slots[i] = (t.schedSlot i).slots[i] := by
  obtain ⟨before, after, hsplit⟩ := List.append_of_mem (List.mem_finRange i)
  have hnodup : (before ++ i :: after).Nodup := hsplit ▸ List.nodup_finRange 16
  obtain ⟨hbefore, hafter⟩ := not_or.1 (List.mem_append.not.1 (List.nodup_cons.1 (List.nodup_middle.1 hnodup)).1)
  refine ⟨before.foldl State.schedSlot s, foldl_schedSlot_scheduled _ s, foldl_schedSlot_other hbefore s, ?_⟩
  rw [taskSched_eq_foldl, hsplit, List.foldl_append, List.foldl_cons]
  exact ⟨foldl_schedSlot_scheduled _ _, foldl_schedSlot_other hafter _⟩

/-- A queued slot not yet marked, after the scheduler. -/
theorem taskSched_fresh (s : State) (i : Fin 16) (hq : s.slots[i].status = .queued)
    (hd : s.slots[i].dispatched = false) :
    s.taskSched.slots[i].dispatched = true ∧
    (taskValid s.slots[i].params = true → s.taskSched.slots[i].status = .running) ∧
    (taskValid s.slots[i].params = false →
      s.taskSched.slots[i].status = .queued ∧ s.taskSched.hcr = s.hcr ||| 0x0010) := by
  obtain ⟨t, hbefore, hfound, hafter, hleft⟩ := taskSched_turn s i
  obtain ⟨hmark, hrun, hfault⟩ := schedSlot_fresh t i (hfound ▸ hq) (hfound ▸ hd)
  rw [hfound] at hrun hfault
  rw [hleft]
  refine ⟨hmark, hrun, fun hv => ⟨(hfault hv).1, ?_⟩⟩
  have hset : (t.schedSlot i).hcr = s.hcr ||| 0x0010 := by
    rw [(hfault hv).2]
    rcases hbefore.hcr with e | e <;> rw [e]
    exact word_or_self _ _
  rcases hafter.hcr with e | e <;> rw [e, hset]
  exact word_or_self _ _

/-- Settles O52: each slot's turn, and what all the turns together may do. -/
theorem schedulerFrame : Obligations.SchedulerFrame := by
  intro s
  have hp := Passes.of_sched (taskSched_sched s)
  have honly := (taskSched_sched s).only
  have h : Scheduled s s.taskSched := foldl_schedSlot_scheduled _ s
  dsimp only
  simp only [← taskValid_iff]
  refine ⟨hp.gpr, hp.xm, hp.xb, hp.pc, hp.sp, hp.bp, hp.cells, by rw [honly], by rw [honly], by rw [honly], hp.ext,
    hp.kernel, by rw [honly]; constructor <;> rfl, h.hcr, h.quiet, fun i => (h.slots i).stays,
    fun i hq => ⟨(h.slots i).params, (h.slots i).status hq⟩, fun i hq hd => ?_, fun a hne => ?_⟩
  · obtain ⟨hmark, hrun, hfault⟩ := taskSched_fresh s i hq hd
    exact ⟨hmark, hrun, fun hv => hfault (Bool.eq_false_iff.2 hv)⟩
  · obtain ⟨i, hq, hw⟩ := h.ram a hne
    obtain ⟨g, hg, ⟨-, htop⟩, hlo, hhi⟩ := (taskMayWrite_iff _ a).1 hw
    exact ⟨i, hq, g, hg, hlo, hhi, htop⟩

end Sys2Proof.Machine
end

section
/-! PROOFS. The statements of 70_reset_and_hazards.md: the reset in place and the loader path. -/
namespace Sys2Proof.Machine
open Sys2Proof.Config

/-! ### The reset in place (R380, R382) -/

/-- Both lanes are empty after a reset. -/
theorem resetInPlace_lane (s : State) (l : LaneId) : s.resetInPlace.lane l = Lane.reset := by
  cases l <;> rfl

/-- Every kernel task slot is emptied by a reset, queued and running ones too. -/
theorem resetInPlace_slot_status (s : State) (i : Fin 16) : s.resetInPlace.slots[i].status = .empty :=
  congrArg TaskSlot.status (Vector.getElem_replicate i.isLt)

/-- Settles O53: each field's value by the definition of the reset, the lanes and the slots by their lemmas. -/
theorem resetInPlace : Obligations.ResetInPlace := by
  intro s
  refine ⟨rfl, rfl, rfl, rfl, rfl, rfl, rfl, rfl, rfl, fun l => ?_, rfl, rfl, fun _ => ⟨rfl, rfl⟩, fun _ => rfl,
    resetInPlace_slot_status s, rfl, rfl, rfl⟩
  have hlane : (s.hostCall .reset).lane l = Lane.reset := resetInPlace_lane s l
  rw [hlane]
  exact ⟨rfl, rfl, rfl, fun _ => rfl⟩

/-! ### The loader path (R381) -/

/-- An image in canonical form is taken in as it is. -/
theorem AppImage.canonical_of_wf {img : AppImage} (hcode : img.code.wf memoryWords) (hram : img.ram.wf memoryWords) :
    img.canonical = img := by
  unfold AppImage.canonical
  rw [Memory.canonical_of_wf hcode, Memory.canonical_of_wf hram]

/-- What a successful load leaves of the machine, for an image in canonical form (R381 step 3). -/
theorem launch_of_wf (s : State) {img : AppImage} (hcode : img.code.wf memoryWords) (hram : img.ram.wf memoryWords) :
    s.launch img = { s with
      image := img, code := img.code, ram := img.ram, sbot := img.sbot, stop := img.stop, sp := img.sbot,
      bp := img.sbot, hcr := s.hcr &&& ~~~0x0020 } := by
  unfold State.launch
  rw [AppImage.canonical_of_wf hcode hram]
  rfl

theorem load_loaded {s : State} (h : s.hcr &&& 0x0020 ≠ 0) (img : AppImage) :
    s.load (.loaded img) = { s.launch img with reply := .done } := if_neg h

theorem load_failed {s : State} (h : s.hcr &&& 0x0020 ≠ 0) (code : Nat) :
    s.load (.failed code) = { s with reply := .rejected (.image code) } := if_neg h

theorem load_pending {s : State} (h : s.hcr &&& 0x0020 ≠ 0) :
    s.load .pending = { s with reply := .done } := if_neg h

theorem hostCall_load (s : State) (r : LoadResult) : s.hostCall (.load r) = s.load r := rfl

/-- Settles O55: a load by its result while INIT is set, and turned away while it is clear. -/
theorem loaderPath : Obligations.LoaderPath := by
  intro s img code
  simp only [hostCall_load]
  refine ⟨fun hinit => ⟨fun hcode hram => ?_, load_failed hinit code, load_pending hinit⟩, load_notInitialising⟩
  rw [load_loaded hinit, launch_of_wf s hcode hram]

end Sys2Proof.Machine
end
